-- ==== Sys2Proof/Word.lean ====
section
/-! DEFINITION. The word types of OWSEQ (00_scope.md R7): bytes, 8-byte ROM addresses, the 9-byte scratchpad. -/

namespace Sys2Proof

/-- A byte, bit 0 least significant (R7). -/
abbrev Byte := BitVec 8

/-- An 8-byte ROM address, byte 0 first (R61). -/
abbrev RomAddr := Vector Byte 8

/-- The nine bytes of a scratchpad, byte 0 first (R62). -/
abbrev Scratchpad := Vector Byte 9

/-- Eight bytes 0x00. -/
def RomAddr.zero : RomAddr := #v[0, 0, 0, 0, 0, 0, 0, 0]

/-- Nine bytes 0x00. -/
def Scratchpad.zero : Scratchpad := #v[0, 0, 0, 0, 0, 0, 0, 0, 0]

end Sys2Proof
end

