-- ==== Sys2Proof/Syntax.lean ====
section
/-! DEFINITION. The instructions: one constructor per row of spec/opcode_table.json (30_encoding.md R90, R97).
No instruction has a field (R98): operands are in registers. -/

namespace Sys2Proof

/-- The two formats of R98: a host opcode written to `CMD`, a command byte SEQ writes on the bus. -/
inductive Format where
  | host8
  | wire8
  deriving DecidableEq, Repr

/-- The 18 host operations (R97), then the six wire commands (R90). -/
inductive Instr where
  | crcClr
  | crcPush
  | readSp
  | writeSp
  | copySp
  | recallE2
  | readTemp
  | readRaw
  | setRes
  | getRes
  | setAlarms
  | getAlarms
  | isExt
  | isParasite
  | discover
  | getAddr
  | alarmSearch
  | pack64
  | convertT
  | readScratchpad
  | writeScratchpad
  | copyScratchpad
  | recallEeprom
  | readPowerSupply
  deriving DecidableEq, Repr

/-- The format of an instruction (the column "format" of the opcode table). -/
def Instr.format : Instr → Format
  | .crcClr | .crcPush | .readSp | .writeSp | .copySp | .recallE2 => .host8
  | .readTemp | .readRaw | .setRes | .getRes | .setAlarms | .getAlarms => .host8
  | .isExt | .isParasite | .discover | .getAddr | .alarmSearch | .pack64 => .host8
  | .convertT | .readScratchpad | .writeScratchpad => .wire8
  | .copyScratchpad | .recallEeprom | .readPowerSupply => .wire8

end Sys2Proof
end

