-- ==== Sys2Proof/WellFormed.lean ====
section
/-! DEFINITION. Well-formed instructions. An instruction has no fields (30_encoding.md R98), so the one thing that can be
wrong with it is the place it stands in: a wire command is no host opcode and a host opcode is no wire command (R92, R99). -/

namespace Sys2Proof

/-- `i` may stand where a byte of format `f` is read. -/
def Instr.wellFormedAs (f : Format) (i : Instr) : Bool :=
  i.format == f

end Sys2Proof
end

