-- ==== Sys2Proof/Decode.lean ====
section
/-! DEFINITION. Decoding and encoding (30_encoding.md R90, R97, R98, R99). One byte is one instruction; which of the two
tables a byte is looked up in depends on where it stands: in `CMD` (and `SEQ.OP`) or at a wire command of a procedure. -/

namespace Sys2Proof

/-- A row of the opcode table: the byte matches when its bits under `mask` are `pattern`. -/
structure OpcodeRow where
  pattern : Byte
  mask    : Byte
  instr   : Instr
  deriving DecidableEq, Repr

/-- Why a byte is rejected. -/
inductive DecodeError where
  /-- A value of `CMD` that R97 does not list (R99). -/
  | illegalHostOpcode (b : Byte)
  /-- A byte that is none of the six commands of R90 (R92). -/
  | notAWireCommand (b : Byte)
  deriving DecidableEq, Repr

/-- The answer of a decoder. -/
inductive Decoded where
  | instr (i : Instr)
  | rejected (why : DecodeError)
  deriving DecidableEq, Repr

/-- The host opcodes of R97. -/
def hostTable : List OpcodeRow :=
  [ ⟨0x01, 0xFF, .crcClr⟩, ⟨0x02, 0xFF, .crcPush⟩,
    ⟨0x10, 0xFF, .readSp⟩, ⟨0x11, 0xFF, .writeSp⟩, ⟨0x12, 0xFF, .copySp⟩, ⟨0x13, 0xFF, .recallE2⟩,
    ⟨0x20, 0xFF, .readTemp⟩, ⟨0x21, 0xFF, .readRaw⟩,
    ⟨0x30, 0xFF, .setRes⟩, ⟨0x31, 0xFF, .getRes⟩, ⟨0x32, 0xFF, .setAlarms⟩, ⟨0x33, 0xFF, .getAlarms⟩,
    ⟨0x40, 0xFF, .isExt⟩, ⟨0x41, 0xFF, .isParasite⟩,
    ⟨0x50, 0xFF, .discover⟩, ⟨0x51, 0xFF, .getAddr⟩, ⟨0x52, 0xFF, .alarmSearch⟩, ⟨0x53, 0xFF, .pack64⟩ ]

/-- The wire commands of R90. -/
def wireTable : List OpcodeRow :=
  [ ⟨0x44, 0xFF, .convertT⟩, ⟨0xBE, 0xFF, .readScratchpad⟩, ⟨0x4E, 0xFF, .writeScratchpad⟩,
    ⟨0x48, 0xFF, .copyScratchpad⟩, ⟨0xB8, 0xFF, .recallEeprom⟩, ⟨0xB4, 0xFF, .readPowerSupply⟩ ]

/-- The first row of a table that the byte matches. -/
def lookupRow (table : List OpcodeRow) (b : Byte) : Option Instr :=
  match table with
  | [] => none
  | row :: rows => if b &&& row.mask = row.pattern then some row.instr else lookupRow rows b

/-- The host operation a byte of `CMD` starts (R97), or its rejection (R99). -/
def decodeHost (b : Byte) : Decoded :=
  match lookupRow hostTable b with
  | some i => .instr i
  | none => .rejected (.illegalHostOpcode b)

/-- The wire command a byte is (R90), or its rejection (R92). -/
def decodeWire (b : Byte) : Decoded :=
  match lookupRow wireTable b with
  | some i => .instr i
  | none => .rejected (.notAWireCommand b)

/-- The decoder of a format. -/
def decodeAs (f : Format) (b : Byte) : Decoded :=
  match f with
  | .host8 => decodeHost b
  | .wire8 => decodeWire b

/-- The byte of an instruction (R97 for host operations, R90 for wire commands). -/
def encode : Instr → Byte
  | .crcClr => 0x01
  | .crcPush => 0x02
  | .readSp => 0x10
  | .writeSp => 0x11
  | .copySp => 0x12
  | .recallE2 => 0x13
  | .readTemp => 0x20
  | .readRaw => 0x21
  | .setRes => 0x30
  | .getRes => 0x31
  | .setAlarms => 0x32
  | .getAlarms => 0x33
  | .isExt => 0x40
  | .isParasite => 0x41
  | .discover => 0x50
  | .getAddr => 0x51
  | .alarmSearch => 0x52
  | .pack64 => 0x53
  | .convertT => 0x44
  | .readScratchpad => 0xBE
  | .writeScratchpad => 0x4E
  | .copyScratchpad => 0x48
  | .recallEeprom => 0xB8
  | .readPowerSupply => 0xB4

/-- The instruction of an answer of a decoder. -/
def Decoded.toOption : Decoded → Option Instr
  | .instr i => some i
  | .rejected _ => none

/-- What the decoders read from a table word: every row of the table has one byte (R98). A word is looked up as a host
opcode, then as a wire command; no byte is both. -/
def decodeTableWord (nbits w : Nat) : Option Instr :=
  if nbits = 8 ∧ w < 256 then
    match (decodeHost (BitVec.ofNat 8 w)).toOption with
    | some i => some i
    | none => (decodeWire (BitVec.ofNat 8 w)).toOption
  else none

end Sys2Proof
end

