-- ==== Sys2Proof/Config.lean ====
section
/-! DEFINITION. What an implementation fixes (00_scope.md R6, 92_eei_decisions.md "Open parameters"). -/

namespace Sys2Proof

/-- `MAXDEV` minus one. R6: OPEN, 1 <= MAXDEV <= 255; no value can be proved of this constant (log entry 4). -/
opaque Config.maxDevLessOne : Fin 255

/-- The parameter `CRC8` (R6, R111; open in 92_eei_decisions.md, 93_implementation_defined.md U1), as plain data: the
function is a fold of its one-byte update from 0x00, and the update is R112's or an open one (log entry 6). -/
inductive CrcFunction where
  /-- the Dallas/Maxim CRC-8 of R111 and R112. -/
  | dallasMaxim
  /-- any other: `Config.crcUpdOther`. -/
  | other
  deriving DecidableEq, Repr

/-- The one-byte update of a `CRC8` that is not the Dallas/Maxim function; nothing can be proved of it (log entry 6). -/
opaque Config.crcUpdOther : Byte → Byte → Byte

/-- The parameters `CFG_FIXED` and `CFG_RES_LSB` (R6, R102; open in 92_eei_decisions.md, 93_implementation_defined.md U2):
the fixed bits of a configuration byte and the position of its two resolution bits (log entry 7). -/
structure CfgLayout where
  /-- `CFG_FIXED`. -/
  fixed  : Byte
  /-- `CFG_RES_LSB`: the two bits lie inside the byte. -/
  resLsb : Fin 7
  deriving DecidableEq, Repr

/-- The layout R102 gives: bits 6:5, the other bits 0b00011111. -/
def CfgLayout.standard : CfgLayout :=
  { fixed := 0x1F, resLsb := 5 }

/-- The parameters a machine is built with. They stand in `State` so that every statement holds for every value of
them and a test can choose one; no step changes them (log entries 4 to 7). -/
structure Params where
  /-- `MAXDEV` minus one (R6). -/
  maxDevLessOne : Fin 255
  /-- `RT_ABORT_ON_RES_FAIL` (R6, R141, 90_conflicts.md C2). -/
  abortOnResFail : Bool
  /-- `CRC8` (R6, R111). -/
  crc : CrcFunction
  /-- `CFG_FIXED`, `CFG_RES_LSB` (R6, R102). -/
  cfg : CfgLayout
  deriving DecidableEq, Repr

/-- `MAXDEV`, 1 to 255 (R6). -/
def Params.maxDev (p : Params) : Nat :=
  p.maxDevLessOne.val + 1

/-- The parameters of the machine at reset: `MAXDEV` open, the others at the values R6 gives them:
`RT_ABORT_ON_RES_FAIL` false, the CRC-8 of R111, the layout of R102. -/
def Config.params : Params :=
  { maxDevLessOne := Config.maxDevLessOne, abortOnResFail := false, crc := .dallasMaxim, cfg := .standard }

/-- `T_EEPROM` in ticks (R6, D12). -/
def Config.tEeprom : Nat := 10

/-- The reflected polynomial constant of the Dallas/Maxim CRC-8 (R111). -/
def Config.crcPoly : Byte := 0x8C

/-- The NaN that READ_TEMP writes on failure (R151). -/
def Config.nanF32 : BitVec 32 := 0x7FC00000

/-- What a byte of `REG` that no DISCOVER has written reads as. R37, R48: unspecified, unreadable (log entry 8). -/
def Config.regBlank : Byte := 0

end Sys2Proof
end

