-- ==== Sys2Proof/Machine/State.lean ====
section
/-! DEFINITION. The state of OWSEQ as plain data (10_state.md R20 to R48), the events its ports deliver, and the reset
state. INVENTORY.md lists every field with its rule and its reset value. -/

namespace Sys2Proof.Machine

/-! ## Ports -/

/-- What the transport port samples at `bt_ack` (R40): `bt_rbyte`, `bt_rflag`, `bt_raddr`. A primitive uses the inputs
its row of R96 names and ignores the others. -/
structure Answer where
  rbyte : Byte
  rflag : Bool
  raddr : BitVec 64
  deriving DecidableEq, Repr

/-- What an agent outside SEQ does next (R5): the host accesses a register (R23), `rst` is asserted (R240), the transport
acknowledges (R41), a millisecond tick arrives (R43); `turn` is a moment at which no port does anything. -/
inductive Event where
  | hostWrite (r v : Byte)
  | hostRead (r : Byte)
  | rst
  | ack (a : Answer)
  | tick
  | turn
  deriving DecidableEq, Repr

/-- The outputs of the transport port (R40); `flag` is `usePower` of WRITE and `alarmOnly` of SEARCH. -/
structure BusPort where
  req   : Bool
  op    : BitVec 3
  wbyte : Byte
  waddr : BitVec 64
  flag  : Bool
  deriving DecidableEq, Repr

/-! ## Sequencer -/

/-- Which byte a data phase of Write-Scratchpad sends (R93). -/
inductive WriteByte where
  | th
  | tl
  | cfg
  deriving DecidableEq, Repr

/-- What an assisted wait is for (R225): a conversion or an EEPROM copy. -/
inductive WaitFor where
  | conversion
  | eeprom
  deriving DecidableEq, Repr

/-- The failure kinds (60_exceptions.md R210); labels only, no cause code exists. -/
inductive FailKind where
  | noDevice
  | crc
  | verify
  | badArg
  | absent
  | range
  | illegalOp
  deriving DecidableEq, Repr

/-- Which value registers an operation writes when it ends (R22, R35, R215). -/
inductive ResultKind where
  /-- none: READ_SP, WRITE_SP, COPY_SP, RECALL_E2, SET_RES, SET_ALARMS, ALARM_SEARCH. -/
  | plain
  /-- `RAW` and `TEMP_F32`: READ_TEMP (R146). -/
  | temp
  /-- `RAW`: READ_RAW (R147). -/
  | raw
  /-- `RES`: GET_RES (R161). -/
  | res
  /-- `TH_OUT`, `TL_OUT`: GET_ALARMS (R164). -/
  | alarms
  /-- `STATUS.BOOL`: IS_EXT (R181). -/
  | ext
  /-- `STATUS.BOOL`: IS_PARASITE (R182). -/
  | parasite
  /-- `OK = (COUNT > 0)`: DISCOVER (R191). -/
  | count
  deriving DecidableEq, Repr

/-- One move of a procedure of 41_scratchpad.md to 45_registry.md. The positions of `SEQ.STEP` (R31) are lists of these:
what remains of the procedure. -/
inductive Micro where
  /-- `SEQ.STEP = 0` of an operation in progress (R33): SEQ decodes `SEQ.OP`. -/
  | dispatch
  /-- `BusReset()`, with the presence test of `TxnStart` (R120). -/
  | reset
  /-- `BusSelect(a)` (R120). -/
  | select
  /-- `BusWrite(b)` of a wire command, followed by its data phase (R90, R93). -/
  | cmd (b : Byte)
  /-- `BusWrite` of a data byte (R123). -/
  | write (w : WriteByte)
  /-- `SP[i] <- BusRead()` (R121). -/
  | read (i : Fin 9)
  /-- `t_ext <- BusReadBit()` (R180). -/
  | readBit
  /-- `BusSearchReset()` (R191). -/
  | searchReset
  /-- the loop of DISCOVER, at the test of its condition (R191). -/
  | discover
  /-- `BusSearch(alarmOnly = 1)` and its outcome (R197). -/
  | alarmSearch
  /-- the CRC test of `SpRead` (R121). -/
  | checkCrc
  /-- the comparison of bytes 2, 3, 4 in `SpWrite` (R124). -/
  | checkEcho
  /-- `t_th, t_tl, t_cfg` from `L_TH, L_TL, L_CFG` (R125). -/
  | loadArgs
  /-- `t_th, t_tl` from `SP`, `t_cfg <- CfgEncode(L_RES)` (R162). -/
  | loadRes
  /-- `t_th, t_tl` from `L_TH, L_TL`, `t_cfg <- SP[4]` (R165). -/
  | loadAlarms
  /-- the start of `GetRes` inside `Convert` (R144): the fallback of R141 holds from here to `resolve`. -/
  | getRes
  /-- the end of `GetRes` inside `Convert`: `t_res`, or the fallback of R141. -/
  | resolve
  /-- the start of `AssistWait` (R145). -/
  | assist (w : WaitFor)
  /-- inside `Wait(n)` (R226). -/
  | waiting (n : Nat)
  /-- `raise Fail(kind)` (R214). -/
  | fail (k : FailKind)
  /-- the end of the operation (R35): its result registers and flags. -/
  | finish (r : ResultKind)
  deriving DecidableEq, Repr

/-- `SEQ.OP` (R30) and `SEQ.STEP` (R31). `step` counts the primitives completed in this operation and is 0 when none is in
progress and at the start of one; `todo` is what remains of the procedure (log entry 3). -/
structure Seq where
  op   : Byte
  step : Nat
  todo : List Micro
  deriving DecidableEq, Repr

/-- The operand latches (R30). -/
structure Latches where
  addr     : RomAddr
  th       : Byte
  tl       : Byte
  cfg      : Byte
  res      : Byte
  persist  : Bool
  idx      : Byte
  byte     : Byte
  pullupEn : Bool
  deriving DecidableEq, Repr

/-- The scratch values of an operation (R32): `t_res`, `t_ext`, `t_ok`, `t_th`, `t_tl`, `t_cfg`, `t_a`. -/
structure Scratch where
  res : Byte
  ext : Bool
  ok  : Bool
  th  : Byte
  tl  : Byte
  cfg : Byte
  a   : RomAddr
  deriving DecidableEq, Repr

/-- The conversion-time counter (R43, R224). -/
structure Ctc where
  cnt : BitVec 10
  run : Bool
  deriving DecidableEq, Repr

/-! ## Host registers -/

/-- The five bits of `STATUS` (R25); bits 7:5 are zero and not stored. -/
structure Status where
  busy   : Bool
  ok     : Bool
  bool   : Bool
  ill    : Bool
  pullup : Bool
  deriving DecidableEq, Repr

/-- The operand registers (R21). -/
structure Operands where
  addr  : RomAddr
  th    : Byte
  tl    : Byte
  cfg   : Byte
  res   : Byte
  flags : Byte
  idx   : Byte
  byte  : Byte
  deriving DecidableEq, Repr

/-- The result registers (R22), but `COUNT` and the flags. -/
structure Results where
  sp      : Scratchpad
  raw     : BitVec 16
  tempF32 : BitVec 32
  res     : Byte
  thOut   : Byte
  tlOut   : Byte
  crcAcc  : Byte
  a64     : BitVec 64
  deriving DecidableEq, Repr

/-- The registry memory `REG` (R37): pairs (8 k + j, byte j of entry k), addresses strictly rising, none equal to
`Config.regBlank`. -/
abbrev Memory := List Host.Cell

/-! ## Ghost state -/

/-- The events of a trace (00_scope.md R8, R47). `search` carries the address when one was found. -/
inductive TraceEvent where
  | reset (p : Bool)
  | select (a : RomAddr)
  | write (b : Byte)
  | read (b : Byte)
  | readBit (t : Bool)
  | searchReset
  | search (alarmOnly : Bool) (found : Option RomAddr)
  | pullup (v : Bool)
  | wait (n : Nat)
  deriving DecidableEq, Repr

/-! ## The state -/

/-- Everything the spec gives the machine (R20), the ghost state of R47, and the model's own `env` and `params`. -/
structure State where
  /-- `CMD` (R24). -/
  cmd      : Byte
  /-- `STATUS` (R25); its bit PULLUP is the pin `pullup_out` (R42), its bit BUSY the wire `busy_out` (R44). -/
  status   : Status
  /-- `CTRL.PULLUP_EN` (R26). -/
  pullupEn : Bool
  /-- the operand registers (R21). -/
  args     : Operands
  /-- the result registers (R22). -/
  out      : Results
  /-- `COUNT` (R38). -/
  count    : Byte
  /-- `REG` (R37). -/
  reg      : Memory
  /-- `SEQ.OP`, `SEQ.STEP` (R30, R31). -/
  seq      : Seq
  /-- the operand latches (R30). -/
  latch    : Latches
  /-- the scratch values (R32). -/
  tmp      : Scratch
  /-- the transport port's outputs (R40). -/
  bus      : BusPort
  /-- the counter (R43). -/
  ctc      : Ctc
  /-- the host port's read value (R23). -/
  hostRd   : Byte
  /-- ghost: the trace of the operation (R8, R47). -/
  trace    : List TraceEvent
  /-- ghost: how the last operation failed, if it did (R47, R210). -/
  failKind : Option FailKind
  /-- the model's own: what the ports will deliver, in order (log entry 1). -/
  env      : List Event
  /-- the model's own: the parameters the machine was built with (log entries 4 and 5). -/
  params   : Params
  deriving DecidableEq, Repr

/-- Why the machine stops. No run from reset stops: the spec gives OWSEQ no trap (R213). -/
inductive Fault where
  /-- Raised by `step` when SEQ stands at a byte that its decoder rejects. No run reaches such a state, since only a legal
  opcode starts an operation (R33, R99). Safe: the model stops where the spec gives no machine (log entry 19). -/
  | undecodable (b : Byte)
  /-- Raised by GET_ADDR when `L_IDX < COUNT` and `L_IDX >= MAXDEV`: there is no such entry of `REG` (R37). No run reaches
  such a state, since `COUNT <= MAXDEV` (R38). Safe (log entry 19). -/
  | registryHole (index : Nat)
  deriving DecidableEq, Repr

/-- Why an instruction has no meaning. -/
inductive Refusal where
  /-- Raised by `exec` for an instruction that has no meaning yet. Safe. No arm of `exec` answers it. -/
  | notModelled (mnemonic : String)
  deriving DecidableEq, Repr

/-- The machine right after reset (R48). Values R48 does not give: latches and scratch (log entry 9), port outputs
(log entry 10), `hostRd` (log entry 11), ghost state (log entry 12), `env` (log entry 1). -/
def State.reset : State where
  cmd := 0x00
  status := { busy := false, ok := false, bool := false, ill := false, pullup := false }
  pullupEn := false
  args := { addr := RomAddr.zero, th := 0, tl := 0, cfg := 0, res := 0, flags := 0, idx := 0, byte := 0 }
  out :=
    { sp := Scratchpad.zero, raw := 0x0000, tempF32 := 0x7FC00000, res := 0, thOut := 0, tlOut := 0, crcAcc := 0, a64 := 0 }
  count := 0
  reg := []
  seq := { op := 0, step := 0, todo := [] }
  latch :=
    { addr := RomAddr.zero, th := 0, tl := 0, cfg := 0, res := 0, persist := false, idx := 0, byte := 0, pullupEn := false }
  tmp := { res := 0, ext := false, ok := false, th := 0, tl := 0, cfg := 0, a := RomAddr.zero }
  bus := { req := false, op := 0, wbyte := 0, waddr := 0, flag := false }
  ctc := { cnt := 0, run := false }
  hostRd := 0
  trace := []
  failKind := none
  env := []
  params := Config.params

end Sys2Proof.Machine
end

