-- ==== Sys2Proof/Machine/Checksum.lean ====
section
/-! DEFINITION. CRCV, the CRC-8 validator (40_crc.md R111, R112, R114): pure functions of bytes and of the
parameter `CRC8` (00_scope.md R6). -/

namespace Sys2Proof.Machine

/-- One of the eight shifts of `Upd` (R112): logical shift right, with the reflected polynomial XORed in when bit 0 was 1. -/
def crcShift (x : Byte) : Byte :=
  if x.getLsbD 0 then (x >>> 1) ^^^ Config.crcPoly else x >>> 1

/-- `n` shifts. -/
def crcShifts (n : Nat) (x : Byte) : Byte :=
  match n with
  | 0 => x
  | n + 1 => crcShifts n (crcShift x)

/-- `Upd(acc, b)` (R112) of the `CRC8` the machine was built with (R6). -/
def crcUpd (f : CrcFunction) (acc b : Byte) : Byte :=
  match f with
  | .dallasMaxim => crcShifts 8 (acc ^^^ b)
  | .other => Config.crcUpdOther acc b

/-- The running checksum of a byte sequence, started at `acc`. -/
def crcFrom (f : CrcFunction) (acc : Byte) (bs : List Byte) : Byte :=
  match bs with
  | [] => acc
  | b :: bs => crcFrom f (crcUpd f acc b) bs

/-- `CRC8` (R111): initial value 0x00, no final inversion. -/
def crc8 (f : CrcFunction) (bs : List Byte) : Byte :=
  crcFrom f 0x00 bs

/-- `RomValid` (R114): CRC-8 of bytes 0..6 equals byte 7. -/
def romValid (f : CrcFunction) (a : RomAddr) : Bool :=
  crc8 f [a[0], a[1], a[2], a[3], a[4], a[5], a[6]] == a[7]

/-- `SpValid` (R114): CRC-8 of bytes 0..7 equals byte 8. -/
def spValid (f : CrcFunction) (sp : Scratchpad) : Bool :=
  crc8 f [sp[0], sp[1], sp[2], sp[3], sp[4], sp[5], sp[6], sp[7]] == sp[8]

end Sys2Proof.Machine
end

