-- ==== Sys2Proof/Machine/Flags.lean ====
section
/-! DEFINITION. The flags of `STATUS` and `CTRL` (10_state.md R25, R26, R33, R35, R36; 30_encoding.md R99). -/

namespace Sys2Proof.Machine

/-- `STATUS` as the host reads it (R25): bits 7:5 zero, PULLUP, ILL, BOOL, OK, BUSY. -/
def statusByte (f : Status) : Byte :=
  0#3 ++ BitVec.ofBool f.pullup ++ BitVec.ofBool f.ill ++ BitVec.ofBool f.bool ++ BitVec.ofBool f.ok
    ++ BitVec.ofBool f.busy

/-- `CTRL` as the host reads it (R26): bits 7:1 zero. -/
def ctrlByte (pullupEn : Bool) : Byte :=
  0#7 ++ BitVec.ofBool pullupEn

/-- The flags at the start of an operation (R33). -/
def statusStarted (f : Status) : Status :=
  { f with busy := true, ok := false, bool := false, ill := false }

/-- The flags after a refused illegal opcode (R99); BUSY stays as it is. -/
def statusIllegal (f : Status) : Status :=
  { f with ill := true, ok := false, bool := false }

/-- The flags at the end of an operation (R35). -/
def statusEnded (ok : Bool) (f : Status) : Status :=
  { f with ok := ok, busy := false }

/-- The wire `busy_out` (R44). -/
def busyOut (s : State) : Bool := s.status.busy

/-- The pin `pullup_out` (R42). -/
def pullupOut (s : State) : Bool := s.status.pullup

end Sys2Proof.Machine
end

