-- ==== Sys2Proof/Machine/Operands.lean ====
section
/-! DEFINITION. Operand and result assembly (30_encoding.md R100 to R106, 42_conversion.md R148 to R150). -/

namespace Sys2Proof.Machine

/-- The raw register `{SP[1], SP[0]}` (R100, R148); its value is `toInt`. -/
def rawOf (sp : Scratchpad) : BitVec 16 :=
  sp[1] ++ sp[0]

/-- The position of the highest set bit of `m`, looked for at `k` and below (R150). -/
def topBit (m k : Nat) : Nat :=
  match k with
  | 0 => 0
  | k + 1 => if 2 ^ (k + 1) ≤ m then k + 1 else topBit m k

/-- `F32(raw)` (R150), the binary32 pattern of `raw / 16`; the three fields do not overlap, so their sum is their OR. -/
def f32 (raw : BitVec 16) : BitVec 32 :=
  if raw = 0 then 0x00000000
  else
    let m := raw.toInt.natAbs
    let e := topBit m 15
    BitVec.ofNat 32 ((if raw.msb then 2 ^ 31 else 0) + (127 + e - 4) * 2 ^ 23 + (m - 2 ^ e) * 2 ^ (23 - e))

/-- `CfgEncode(res)` (R102), in the layout the machine was built with (R6). -/
def cfgEncode (l : CfgLayout) (res : Byte) : Byte :=
  ((res - 9) <<< l.resLsb.val) ||| l.fixed

/-- `ResDecode(cfg)` (R103); the last arm is the default the spec keeps, unreachable with a two-bit field. -/
def resDecode (l : CfgLayout) (cfg : Byte) : Byte :=
  let r := cfg.extractLsb' l.resLsb.val 2
  if r = 0 then 9 else if r = 1 then 10 else if r = 2 then 11 else if r = 3 then 12 else 12

/-- `TConv(r)` in ticks (R104, R142). -/
def tConv (r : Byte) : Nat :=
  if r = 9 then 94 else if r = 10 then 188 else if r = 11 then 375 else 750

/-- `ResValid(r)` (R106). -/
def resValid (r : Byte) : Bool :=
  r == 9 || r == 10 || r == 11 || r == 12

/-- `Pack64` (R105): address byte `i` at bits 8i+7:8i. -/
def pack64 (a : RomAddr) : BitVec 64 :=
  a[7] ++ a[6] ++ a[5] ++ a[4] ++ a[3] ++ a[2] ++ a[1] ++ a[0]

/-- The address on `bt_raddr` (R40): byte `i` is bits 8i+7:8i. -/
def unpack64 (x : BitVec 64) : RomAddr :=
  #v[x.extractLsb' 0 8, x.extractLsb' 8 8, x.extractLsb' 16 8, x.extractLsb' 24 8,
     x.extractLsb' 32 8, x.extractLsb' 40 8, x.extractLsb' 48 8, x.extractLsb' 56 8]

/-- `ARG_FLAGS.PERSIST` (R21). -/
def persistFlag (flags : Byte) : Bool :=
  flags.getLsbD 0

/-- The latches at the start of an operation (R30, R33): the present operand registers and `CTRL.PULLUP_EN`. -/
def latchOperands (a : Operands) (pullupEn : Bool) : Latches where
  addr := a.addr
  th := a.th
  tl := a.tl
  cfg := a.cfg
  res := a.res
  persist := persistFlag a.flags
  idx := a.idx
  byte := a.byte
  pullupEn := pullupEn

/-- The byte a data phase of Write-Scratchpad sends (R93, R123). -/
def writeByteOf (w : WriteByte) (t : Scratch) : Byte :=
  match w with
  | .th => t.th
  | .tl => t.tl
  | .cfg => t.cfg

/-- The number of ticks an assisted wait loads (R225). -/
def waitTicks (w : WaitFor) (t : Scratch) : Nat :=
  match w with
  | .conversion => tConv t.res
  | .eeprom => Config.tEeprom

end Sys2Proof.Machine
end

