-- ==== Sys2Proof/Machine/Ops.lean ====
section
/-! DEFINITION. The named operations over the registry memory and the registers: the host's register map (10_state.md
R23), the start and the end of an operation (R33, R35), a failure (60_exceptions.md R214, R215), reset
(70_reset_and_hazards.md R240). OWSEQ takes no exception and returns from none (R213): `State.raise` and `State.finish`
are the one shared place where an operation fails. -/

namespace Sys2Proof.Machine

/-! ## The registry memory `REG` (R37) -/

/-- One byte of `REG`. -/
def Memory.read (m : Memory) (a : Nat) : Byte :=
  match m with
  | [] => Config.regBlank
  | (k, b) :: m => if k = a then b else Memory.read m a

/-- One byte written, keeping the canonical form. -/
def Memory.write (m : Memory) (a : Nat) (v : Byte) : Memory :=
  match m with
  | [] => if v = Config.regBlank then [] else [(a, v)]
  | (k, b) :: m =>
    if a < k then (if v = Config.regBlank then (k, b) :: m else (a, v) :: (k, b) :: m)
    else if a = k then (if v = Config.regBlank then m else (a, v) :: m)
    else (k, b) :: Memory.write m a v

/-- The canonical form: addresses strictly rising, no entry equal to what an unlisted address reads as. -/
def Memory.wf (m : Memory) : Bool :=
  match m with
  | [] => true
  | (k, b) :: m => b != Config.regBlank && m.all (fun c => decide (k < c.1)) && Memory.wf m

/-- `REG[k][0..7]` (R37). -/
def readEntry (m : Memory) (k : Nat) : RomAddr :=
  #v[Memory.read m (8 * k), Memory.read m (8 * k + 1), Memory.read m (8 * k + 2), Memory.read m (8 * k + 3),
     Memory.read m (8 * k + 4), Memory.read m (8 * k + 5), Memory.read m (8 * k + 6), Memory.read m (8 * k + 7)]

/-- Bytes written one after the other from address `a` on. -/
def writeBytes (m : Memory) (a : Nat) (bs : List Byte) : Memory :=
  match bs with
  | [] => m
  | b :: bs => writeBytes (Memory.write m a b) (a + 1) bs

/-- `REG[k][0..7] <- a` (R191). -/
def writeEntry (m : Memory) (k : Nat) (a : RomAddr) : Memory :=
  writeBytes m (8 * k) [a[0], a[1], a[2], a[3], a[4], a[5], a[6], a[7]]

/-! ## Small updates -/

/-- A primitive has completed (R31): its event joins the trace (R8) and `SEQ.STEP` advances. -/
def State.log (s : State) (e : TraceEvent) : State :=
  { s with trace := s.trace ++ [e], seq := { s.seq with step := s.seq.step + 1 } }

/-- SEQ stands at the position `todo`. -/
def State.goto (s : State) (todo : List Micro) : State :=
  { s with seq := { s.seq with todo := todo } }

/-- A sub-procedure has succeeded: `t_ok <- 1` (R32). -/
def State.succeed (s : State) : State :=
  { s with tmp := { s.tmp with ok := true } }

/-- A sub-procedure has failed with a kind: `t_ok <- 0` (R32), the kind is noted as ghost state (R210). -/
def State.raise (s : State) (k : FailKind) : State :=
  { s with tmp := { s.tmp with ok := false }, failKind := some k }

/-! ## The end of an operation -/

/-- The end of an operation (R35, R214): `OK`, `BUSY <- 0`, `SEQ.STEP <- 0`. -/
def State.endOp (s : State) (ok : Bool) : State :=
  { s with
    status := statusEnded ok s.status
    seq := { s.seq with step := 0, todo := [] }
    failKind := if ok then none else s.failKind }

/-- The value registers an operation writes when it succeeds. -/
def State.writeResults (s : State) (r : ResultKind) : State :=
  match r with
  | .temp => { s with out := { s.out with raw := rawOf s.out.sp, tempF32 := f32 (rawOf s.out.sp) } }
  | .raw => { s with out := { s.out with raw := rawOf s.out.sp } }
  | .res => { s with out := { s.out with res := resDecode s.params.cfg s.out.sp[4] } }
  | .alarms => { s with out := { s.out with thOut := s.out.sp[2], tlOut := s.out.sp[3] } }
  | .ext => { s with status := { s.status with bool := s.tmp.ext } }
  | .parasite => { s with status := { s.status with bool := !s.tmp.ext } }
  | .plain | .count => s

/-- The value registers an operation writes when it fails (R215). -/
def State.writeSentinels (s : State) (r : ResultKind) : State :=
  match r with
  | .temp => { s with out := { s.out with raw := 0, tempF32 := Config.nanF32 } }
  | .raw => { s with out := { s.out with raw := 0 } }
  | .res => { s with out := { s.out with res := 0 } }
  | .alarms => { s with out := { s.out with thOut := 0, tlOut := 0 } }
  | .ext | .parasite => { s with status := { s.status with bool := false } }
  | .plain | .count => s

/-- The end of an operation whose result registers are `r`: success when `t_ok` is 1, else the failure of R214. DISCOVER
succeeds when `COUNT > 0` (R191). -/
def State.finish (s : State) (r : ResultKind) : State :=
  match r with
  | .count => if s.count = 0 then (s.raise .noDevice).endOp false else s.endOp true
  | r => if s.tmp.ok then (s.writeResults r).endOp true else (s.writeSentinels r).endOp false

/-! ## The start of an operation -/

/-- The start of the operation whose opcode is `op` (R33). The ghost trace starts empty (log entry 12). -/
def State.startOp (s : State) (op : Byte) : State :=
  { s with
    seq := { op := op, step := 0, todo := [.dispatch] }
    latch := latchOperands s.args s.pullupEn
    status := statusStarted s.status
    trace := []
    failKind := none }

/-- A host write of `CMD` while `BUSY = 0` (R24): a legal opcode starts its operation (R33), any other is refused (R99). -/
def State.writeCmd (s : State) (v : Byte) : State :=
  match decodeHost v with
  | .instr _ => { s with cmd := v }.startOp v
  | .rejected _ => { s with cmd := v, status := statusIllegal s.status, failKind := some .illegalOp }

/-! ## The host's register port (R23) -/

/-- A host read of register number `r` (R23): the present value; reserved numbers read 0x00. -/
def readReg (s : State) (r : Byte) : Byte :=
  let n := r.toNat
  if n = 0x00 then s.cmd
  else if n = 0x01 then statusByte s.status
  else if n = 0x02 then ctrlByte s.pullupEn
  else if n = 0x03 then s.count
  else if n = 0x04 then s.args.th
  else if n = 0x05 then s.args.tl
  else if n = 0x06 then s.args.cfg
  else if n = 0x07 then s.args.res
  else if n = 0x08 then s.args.flags
  else if n = 0x09 then s.args.idx
  else if n = 0x0A then s.args.byte
  else if n = 0x0B then s.out.crcAcc
  else if n = 0x0C then s.out.res
  else if n = 0x0D then s.out.thOut
  else if n = 0x0E then s.out.tlOut
  else if h : 0x10 ≤ n ∧ n < 0x18 then s.args.addr[n - 0x10]
  else if h : 0x18 ≤ n ∧ n < 0x21 then s.out.sp[n - 0x18]
  else if 0x22 ≤ n ∧ n < 0x24 then s.out.raw.extractLsb' (8 * (n - 0x22)) 8
  else if 0x24 ≤ n ∧ n < 0x28 then s.out.tempF32.extractLsb' (8 * (n - 0x24)) 8
  else if 0x28 ≤ n ∧ n < 0x30 then s.out.a64.extractLsb' (8 * (n - 0x28)) 8
  else 0x00

/-- A host write of `v` to a register number other than `CMD`'s (R21, R22, R23, R26): result registers, `STATUS` and reserved
numbers ignore it. -/
def writeReg (s : State) (r v : Byte) : State :=
  let n := r.toNat
  if n = 0x02 then { s with pullupEn := v.getLsbD 0 }
  else if n = 0x04 then { s with args := { s.args with th := v } }
  else if n = 0x05 then { s with args := { s.args with tl := v } }
  else if n = 0x06 then { s with args := { s.args with cfg := v } }
  else if n = 0x07 then { s with args := { s.args with res := v } }
  else if n = 0x08 then { s with args := { s.args with flags := v } }
  else if n = 0x09 then { s with args := { s.args with idx := v } }
  else if n = 0x0A then { s with args := { s.args with byte := v } }
  else if h : 0x10 ≤ n ∧ n < 0x18 then { s with args := { s.args with addr := s.args.addr.set (n - 0x10) v } }
  else s

/-- A host write (R23, R24): ignored whole while `BUSY = 1` (R34). -/
def hostWrite (s : State) (r v : Byte) : State :=
  if s.status.busy then s
  else if r = 0x00 then s.writeCmd v
  else writeReg s r v

/-- A host read (R23, R34): allowed at any time, changes nothing but the port's read value. -/
def hostRead (s : State) (r : Byte) : State :=
  { s with hostRd := readReg s r }

/-- `rst` (R240, R241): all state takes its reset value, whatever is in progress; what the ports will deliver and the
parameters are not state of the block. -/
def resetBlock (s : State) : State :=
  { State.reset with env := s.env, params := s.params }

end Sys2Proof.Machine
end

