-- ==== Sys2Proof/Machine/Sequencer.lean ====
section
/-! DEFINITION. SEQ: the procedures every family shares, as lists of moves (41_scratchpad.md R120 to R129, 42_conversion.md
R144, R145, 44_power.md R180), and the engine that runs them against the events of the ports (10_state.md R31, R40 to R43,
60_exceptions.md R218, R226 to R228). One primitive completes before the next is requested (R41, R72). -/

namespace Sys2Proof.Machine

/-! ## Procedures -/

/-- `TxnStart(a)` (R120); the presence test is part of `reset`. -/
def txnStart : List Micro := [.reset, .select]

/-- The nine reads of a Read-Scratchpad data phase (R93). -/
def nineReads : List Micro :=
  [.read 0, .read 1, .read 2, .read 3, .read 4, .read 5, .read 6, .read 7, .read 8]

/-- What follows the command byte `b` (R93): its data phase, and the wait of an EEPROM copy. -/
def dataPhase (b : Byte) : List Micro :=
  match decodeWire b with
  | .instr .readScratchpad => nineReads
  | .instr .writeScratchpad => [.write .th, .write .tl, .write .cfg]
  | .instr .copyScratchpad => [.assist .eeprom]
  | .instr .readPowerSupply => [.readBit]
  | _ => []

/-- The command byte of a wire command, as a move. -/
def wire (i : Instr) : Micro := .cmd (encode i)

/-- `SpRead(a)` (R121). -/
def spRead : List Micro := txnStart ++ [wire .readScratchpad, .checkCrc]

/-- `SpWriteRaw(a, t_th, t_tl, t_cfg)` (R123). -/
def spWriteRaw : List Micro := txnStart ++ [wire .writeScratchpad]

/-- `SpWrite(a, t_th, t_tl, t_cfg)` (R124). -/
def spWrite : List Micro := spWriteRaw ++ spRead ++ [.checkEcho]

/-- `PowerQuery(a)` (R180). -/
def powerQuery : List Micro := txnStart ++ [wire .readPowerSupply]

/-- `SpCopy(a)` (R127). -/
def spCopy : List Micro := powerQuery ++ txnStart ++ [wire .copyScratchpad]

/-- `SpRecall(a)` (R129). -/
def spRecall : List Micro := txnStart ++ [wire .recallEeprom] ++ spRead

/-- `Convert(a)` (R144). -/
def convert : List Micro :=
  txnStart ++ [wire .convertT] ++ [.getRes] ++ spRead ++ [.resolve] ++ powerQuery ++ [.assist .conversion] ++ spRead

/-! ## The assisted wait (R145) -/

/-- Whether `AssistWait` drives the pin: the device is parasite-powered and the latched `PULLUP_EN` is 1 (R145). -/
def assistDrives (s : State) : Bool :=
  !s.tmp.ext && s.latch.pullupEn

/-- The start of `AssistWait(n, parasite)`: the pin is asserted when it is to be driven, and the counter is loaded (R145,
R226). -/
def openAssist (s : State) (n : Nat) : State :=
  let p := if assistDrives s then { s with status := { s.status with pullup := true } }.log (.pullup true) else s
  { p with ctc := { cnt := BitVec.ofNat 10 n, run := true } }

/-- The end of `AssistWait(n, parasite)`: the counter has reached 0, and the pin is released when it was driven. -/
def closeAssist (s : State) (n : Nat) : State :=
  let w := { s with ctc := { s.ctc with run := false } }.log (.wait n)
  if assistDrives s then { w with status := { w.status with pullup := false } }.log (.pullup false) else w

/-! ## Moves that need no port -/

/-- How SEQ goes through a procedure. -/
inductive Course where
  /-- move after move. -/
  | running
  /-- a failure is on its way to the place that handles it (R214): the fallback of R141, or the end of the operation. -/
  | failing
  /-- the same, and the next fallback does not handle it: the failure comes from before its `GetRes`. -/
  | passing
  deriving DecidableEq, Repr

/-- The course on which the move `m` is skipped; none when it is not skipped. -/
def Course.skips (c : Course) (m : Micro) : Option Course :=
  match c, m with
  | .running, _ => none
  | .failing, .getRes => some .passing
  | .failing, .resolve => none
  | .passing, .resolve => some .failing
  | .failing, .finish _ | .passing, .finish _ => none
  | .failing, _ => some .failing
  | .passing, _ => some .passing

/-- The resolution a conversion goes on with (R141): the one read, or the highest when the read failed. -/
def resolveRes (s : State) : State :=
  { s with tmp := { s.tmp with res := if s.tmp.ok then resDecode s.params.cfg s.out.sp[4] else 12 } }

/-- SEQ goes on with the procedure `todo` until it needs a port, waits for a tick, or has ended (R31). -/
def advance (c : Course) (todo : List Micro) (s : State) : State :=
  match todo with
  | [] => s.goto []
  | m :: t =>
    match c.skips m with
    | some c => advance c t s
    | none =>
      match m with
      | .fail k => advance .failing t (s.raise k)
      | .checkCrc =>
        if spValid s.params.crc s.out.sp then advance .running t s.succeed else advance .failing t (s.raise .crc)
      | .checkEcho =>
        if s.out.sp[2] = s.tmp.th ∧ s.out.sp[3] = s.tmp.tl ∧ s.out.sp[4] = s.tmp.cfg then
          advance .running t s.succeed
        else advance .failing t (s.raise .verify)
      | .loadArgs =>
        advance .running t { s with tmp := { s.tmp with th := s.latch.th, tl := s.latch.tl, cfg := s.latch.cfg } }
      | .loadRes =>
        advance .running t
          { s with tmp := { s.tmp with th := s.out.sp[2], tl := s.out.sp[3], cfg := cfgEncode s.params.cfg s.latch.res } }
      | .loadAlarms =>
        advance .running t { s with tmp := { s.tmp with th := s.latch.th, tl := s.latch.tl, cfg := s.out.sp[4] } }
      | .getRes => advance .running t s
      | .resolve =>
        if !s.tmp.ok && s.params.abortOnResFail then advance .failing t { s with tmp := { s.tmp with res := 0 } }
        else advance .running t (resolveRes s)
      | .assist w => (openAssist s (waitTicks w s.tmp)).goto (.waiting (waitTicks w s.tmp) :: t)
      | .waiting n => if s.ctc.cnt = 0 then advance .running t (closeAssist s n) else s.goto (.waiting n :: t)
      | .discover => if s.count.toNat < s.params.maxDev then s.goto (.discover :: t) else advance .running t s
      | .finish r => s.finish r
      | .dispatch => s.goto (.dispatch :: t)
      | .reset => s.goto (.reset :: t)
      | .select => s.goto (.select :: t)
      | .cmd b => s.goto (.cmd b :: t)
      | .write w => s.goto (.write w :: t)
      | .read i => s.goto (.read i :: t)
      | .readBit => s.goto (.readBit :: t)
      | .searchReset => s.goto (.searchReset :: t)
      | .alarmSearch => s.goto (.alarmSearch :: t)

/-! ## The transport port -/

/-- SEQ requests the primitive `m` (R41, R96): `bt_op` and the outputs the primitive uses are set and `bt_req` raised; the
other outputs keep their values (log entry 10). `usePower` is never set (R95). A move that is no primitive requests
nothing. -/
def requestOf (m : Micro) (s : State) : State :=
  match m with
  | .reset => { s with bus := { s.bus with req := true, op := 0 } }
  | .select => { s with bus := { s.bus with req := true, op := 1, waddr := pack64 s.latch.addr } }
  | .cmd b => { s with bus := { s.bus with req := true, op := 2, wbyte := b, flag := false } }
  | .write w => { s with bus := { s.bus with req := true, op := 2, wbyte := writeByteOf w s.tmp, flag := false } }
  | .read _ => { s with bus := { s.bus with req := true, op := 3 } }
  | .readBit => { s with bus := { s.bus with req := true, op := 4 } }
  | .discover => { s with bus := { s.bus with req := true, op := 5, flag := false } }
  | .alarmSearch => { s with bus := { s.bus with req := true, op := 5, flag := true } }
  | .searchReset => { s with bus := { s.bus with req := true, op := 6 } }
  | _ => s

/-- SEQ requests the primitive it stands at. -/
def request (s : State) : State :=
  match s.seq.todo with
  | [] => s
  | m :: _ => requestOf m s

/-- `bt_req` falls (R41). -/
def lower (s : State) : State :=
  { s with bus := { s.bus with req := false } }

/-- Whether a move is a request at the transport port (R96). -/
def Micro.isBus : Micro → Bool
  | .reset | .select | .cmd _ | .write _ | .read _ | .readBit | .searchReset | .discover | .alarmSearch => true
  | _ => false

/-- DISCOVER stores an accepted address (R191). -/
def storeEntry (s : State) (a : RomAddr) : State :=
  { s with reg := writeEntry s.reg s.count.toNat a, count := s.count + 1 }

/-- A search has answered the candidate `t_a` (R191, R197). -/
def candidate (s : State) (alarmOnly : Bool) (a : RomAddr) : State :=
  { s with tmp := { s.tmp with a := a } }.log (.search alarmOnly (some a))

/-- What the primitive `m` does when the transport answers `a`: its event in the trace, and what the procedure does with the
answer before its next move. -/
def effect (m : Micro) (a : Answer) (s : State) : State :=
  match m with
  | .reset => if a.rflag then (s.log (.reset true)).succeed else s.log (.reset false)
  | .select => s.log (.select s.latch.addr)
  | .cmd b => s.log (.write b)
  | .write w => s.log (.write (writeByteOf w s.tmp))
  | .read i => { s with out := { s.out with sp := s.out.sp.set i a.rbyte } }.log (.read a.rbyte)
  | .readBit => ({ s with tmp := { s.tmp with ext := a.rflag } }.log (.readBit a.rflag)).succeed
  | .searchReset => s.log .searchReset
  | .discover =>
    if a.rflag then
      if romValid s.params.crc (unpack64 a.raddr) then storeEntry (candidate s false (unpack64 a.raddr)) (unpack64 a.raddr)
      else candidate s false (unpack64 a.raddr)
    else s.log (.search false none)
  | .alarmSearch =>
    if a.rflag then
      if romValid s.params.crc (unpack64 a.raddr) then
        let c := candidate s true (unpack64 a.raddr)
        { c with args := { c.args with addr := unpack64 a.raddr } }.succeed
      else candidate s true (unpack64 a.raddr)
    else s.log (.search true none)
  | _ => s

/-- Where SEQ goes when the primitive `m` has answered `a`; `t` is what follows `m` in the procedure, `f` the `CRC8` a found
address is tested with. -/
def behind (f : CrcFunction) (m : Micro) (a : Answer) (t : List Micro) : List Micro :=
  match m with
  | .reset => if a.rflag then t else .fail .absent :: t
  | .cmd b => dataPhase b ++ t
  | .discover => if a.rflag then .discover :: t else t
  | .alarmSearch =>
    if a.rflag then (if romValid f (unpack64 a.raddr) then t else .fail .crc :: t) else .fail .noDevice :: t
  | _ => t

/-- SEQ goes on from the position it stands at. -/
def settle (s : State) : State :=
  advance .running s.seq.todo s

/-- The transport acknowledges (R41): the primitive SEQ stands at completes, `bt_req` falls, SEQ goes on. Where SEQ stands at
no primitive it has no effect. -/
def acceptAck (s : State) (a : Answer) : State :=
  match s.seq.todo with
  | [] => s
  | m :: t => if m.isBus then settle ((effect m a (lower s)).goto (behind s.params.crc m a t)) else s

/-- A tick arrives (R43, R226): the running counter counts down, and at 0 the wait is over. -/
def acceptTick (s : State) : State :=
  if s.ctc.run && s.ctc.cnt != 0 then settle { s with ctc := { s.ctc with cnt := s.ctc.cnt - 1 } } else s

/-- An event of SEQ's side reaches SEQ; the events of the host do not. -/
def accept (s : State) (e : Event) : State :=
  match e with
  | .ack a => acceptAck s a
  | .tick => acceptTick s
  | .turn | .hostWrite _ _ | .hostRead _ | .rst => s

/-! ## SEQ's turn -/

/-- Whether an event is an access of the host or a reset: SEQ pauses for it (R23, R240). -/
def Event.ofHost : Event → Bool
  | .hostWrite _ _ | .hostRead _ | .rst => true
  | .ack _ | .tick | .turn => false

/-- SEQ runs against the events `es`: before each it requests the primitive it stands at. It stops when its procedure has
ended, when the host's turn comes, and when no event is left (it then waits, R41, R227). What is left of `es` becomes `env`. -/
def feed (es : List Event) (s : State) : State :=
  match es with
  | [] => { request s with env := [] }
  | e :: es =>
    if s.seq.todo.isEmpty || e.ofHost then { s with env := e :: es } else feed es (accept (request s) e)

/-- SEQ goes on with the operation in progress. -/
def resume (s : State) : State :=
  let s := settle s
  feed s.env s

/-- SEQ runs the procedure `p` of the operation in progress. -/
def runProc (p : List Micro) (s : State) : State :=
  resume (s.goto p)

/-- SEQ issues one wire command with its data phase (R93) and goes on to the next position of the procedure that issued it:
what followed the command in `SEQ.STEP`. -/
def runWire (i : Instr) (s : State) : State :=
  let t := runProc [wire i] s
  if t.seq.todo.isEmpty then advance .running s.seq.todo.tail t else t.goto (t.seq.todo ++ s.seq.todo.tail)

/-- SEQ's turn at a position that is no instruction: inside a procedure it goes on, at its end the operation ends (R31). -/
def seqTurn (s : State) : State :=
  if s.seq.todo.isEmpty then s.endOp s.status.ok else resume s

end Sys2Proof.Machine
end

