-- ==== Sys2Proof/Machine/Configuration.lean ====
section
/-! DEFINITION. The configuration manager: SET_RES, GET_RES, SET_ALARMS, GET_ALARMS (43_config.md R161, R162, R164,
R165). -/

namespace Sys2Proof.Machine

/-- The procedure of SET_RES (R162): the argument is tested before any primitive, and the copy is made when `PERSIST`
was set. -/
def setResProc (l : Latches) : List Micro :=
  if resValid l.res then
    spRead ++ [.loadRes] ++ spWrite ++ (if l.persist then spCopy else []) ++ [.finish .plain]
  else [.fail .badArg, .finish .plain]

/-- The procedure of GET_RES (R160, R161). -/
def getResProc : List Micro := spRead ++ [.finish .res]

/-- The procedure of SET_ALARMS (R165). -/
def setAlarmsProc : List Micro := spRead ++ [.loadAlarms] ++ spWrite ++ [.finish .plain]

/-- The procedure of GET_ALARMS (R164). -/
def getAlarmsProc : List Micro := spRead ++ [.finish .alarms]

/-- SET_RES (R162). -/
def execSetRes (s : State) : Host.Outcome State Fault Refusal :=
  .next (runProc (setResProc s.latch) s)

/-- GET_RES (R161). -/
def execGetRes (s : State) : Host.Outcome State Fault Refusal :=
  .next (runProc getResProc s)

/-- SET_ALARMS (R165). -/
def execSetAlarms (s : State) : Host.Outcome State Fault Refusal :=
  .next (runProc setAlarmsProc s)

/-- GET_ALARMS (R164). -/
def execGetAlarms (s : State) : Host.Outcome State Fault Refusal :=
  .next (runProc getAlarmsProc s)

end Sys2Proof.Machine
end

