-- ==== Sys2Proof/Machine/Conversion.lean ====
section
/-! DEFINITION. The conversion controller: READ_TEMP, READ_RAW (42_conversion.md R146, R147). -/

namespace Sys2Proof.Machine

/-- The procedure of READ_TEMP (R146). -/
def readTempProc : List Micro := convert ++ [.finish .temp]

/-- The procedure of READ_RAW (R147). -/
def readRawProc : List Micro := convert ++ [.finish .raw]

/-- READ_TEMP (R146). -/
def execReadTemp (s : State) : Host.Outcome State Fault Refusal :=
  .next (runProc readTempProc s)

/-- READ_RAW (R147). -/
def execReadRaw (s : State) : Host.Outcome State Fault Refusal :=
  .next (runProc readRawProc s)

end Sys2Proof.Machine
end

