-- ==== Sys2Proof/Machine/CrcHelper.lean ====
section
/-! DEFINITION. The CRC helper operations CRC_CLR and CRC_PUSH (40_crc.md R115, R116). -/

namespace Sys2Proof.Machine

/-- CRC_CLR (R115): `CRC_ACC <- 0x00`, `OK <- 1`. -/
def execCrcClr (s : State) : Host.Outcome State Fault Refusal :=
  .next ({ s with out := { s.out with crcAcc := 0x00 } }.endOp true)

/-- CRC_PUSH (R116): `CRC_ACC <- Upd(CRC_ACC, ARG_BYTE)`, `OK <- 1`; the operand is read from its latch (R30). -/
def execCrcPush (s : State) : Host.Outcome State Fault Refusal :=
  .next ({ s with out := { s.out with crcAcc := crcUpd s.params.crc s.out.crcAcc s.latch.byte } }.endOp true)

end Sys2Proof.Machine
end

