-- ==== Sys2Proof/Machine/Power.lean ====
section
/-! DEFINITION. The power-mode detector: IS_EXT, IS_PARASITE (44_power.md R181, R182). -/

namespace Sys2Proof.Machine

/-- The procedure of IS_EXT (R181). -/
def isExtProc : List Micro := powerQuery ++ [.finish .ext]

/-- The procedure of IS_PARASITE (R182). -/
def isParasiteProc : List Micro := powerQuery ++ [.finish .parasite]

/-- IS_EXT (R181). -/
def execIsExt (s : State) : Host.Outcome State Fault Refusal :=
  .next (runProc isExtProc s)

/-- IS_PARASITE (R182). -/
def execIsParasite (s : State) : Host.Outcome State Fault Refusal :=
  .next (runProc isParasiteProc s)

end Sys2Proof.Machine
end

