-- ==== Sys2Proof/Machine/Registry.lean ====
section
/-! DEFINITION. The device registry: DISCOVER, GET_ADDR, ALARM_SEARCH, PACK64 (45_registry.md R191, R195, R197, R198). -/

namespace Sys2Proof.Machine

/-- The procedure of DISCOVER after `COUNT <- 0` (R191). -/
def discoverProc : List Micro := [.searchReset, .discover, .finish .count]

/-- The procedure of ALARM_SEARCH (R197). -/
def alarmSearchProc : List Micro := [.alarmSearch, .finish .plain]

/-- DISCOVER (R191). -/
def execDiscover (s : State) : Host.Outcome State Fault Refusal :=
  .next (runProc discoverProc { s with count := 0 })

/-- GET_ADDR (R195): a valid index copies its entry to `ADDR`, any other fails with kind `Range` and leaves `ADDR`. -/
def execGetAddr (s : State) : Host.Outcome State Fault Refusal :=
  if s.latch.idx.toNat < s.count.toNat then
    if s.latch.idx.toNat < s.params.maxDev then
      .next ({ s with args := { s.args with addr := readEntry s.reg s.latch.idx.toNat } }.endOp true)
    else .fault (.registryHole s.latch.idx.toNat)
  else .next ((s.raise .range).endOp false)

/-- ALARM_SEARCH (R197). -/
def execAlarmSearch (s : State) : Host.Outcome State Fault Refusal :=
  .next (runProc alarmSearchProc s)

/-- PACK64 (R198). -/
def execPack64 (s : State) : Host.Outcome State Fault Refusal :=
  .next ({ s with out := { s.out with a64 := pack64 s.latch.addr } }.endOp true)

end Sys2Proof.Machine
end

