-- ==== Sys2Proof/Machine/Scratchpad.lean ====
section
/-! DEFINITION. The scratchpad accessor: READ_SP, WRITE_SP, COPY_SP, RECALL_E2 (41_scratchpad.md R122, R125, R128, R130). -/

namespace Sys2Proof.Machine

/-- The procedure of READ_SP (R122). -/
def readSpProc : List Micro := spRead ++ [.finish .plain]

/-- The procedure of WRITE_SP (R125). -/
def writeSpProc : List Micro := [.loadArgs] ++ spWrite ++ [.finish .plain]

/-- The procedure of COPY_SP (R128). -/
def copySpProc : List Micro := spCopy ++ [.finish .plain]

/-- The procedure of RECALL_E2 (R130). -/
def recallE2Proc : List Micro := spRecall ++ [.finish .plain]

/-- READ_SP (R122). -/
def execReadSp (s : State) : Host.Outcome State Fault Refusal :=
  .next (runProc readSpProc s)

/-- WRITE_SP (R125). -/
def execWriteSp (s : State) : Host.Outcome State Fault Refusal :=
  .next (runProc writeSpProc s)

/-- COPY_SP (R128). -/
def execCopySp (s : State) : Host.Outcome State Fault Refusal :=
  .next (runProc copySpProc s)

/-- RECALL_E2 (R130). -/
def execRecallE2 (s : State) : Host.Outcome State Fault Refusal :=
  .next (runProc recallE2Proc s)

end Sys2Proof.Machine
end

