-- ==== Sys2Proof/Machine/WireCommands.lean ====
section
/-! DEFINITION. The six wire commands (30_encoding.md R90, R93) as instructions of SEQ: the command byte, its data phase, and
the position of the procedure behind it (log entry 17). -/

namespace Sys2Proof.Machine

/-- CONVERT_T (R90, R144): `WRITE(44)`, no data phase. -/
def execConvertT (s : State) : Host.Outcome State Fault Refusal :=
  .next (runWire .convertT s)

/-- READ_SCRATCHPAD (R93, R121): `WRITE(BE)`, then nine reads into `SP[0..8]`. -/
def execReadScratchpad (s : State) : Host.Outcome State Fault Refusal :=
  .next (runWire .readScratchpad s)

/-- WRITE_SCRATCHPAD (R93, R123): `WRITE(4E)`, then the bytes `t_th`, `t_tl`, `t_cfg`. -/
def execWriteScratchpad (s : State) : Host.Outcome State Fault Refusal :=
  .next (runWire .writeScratchpad s)

/-- COPY_SCRATCHPAD (R93, R127): `WRITE(48)`, then `AssistWait(T_EEPROM, parasite)`. -/
def execCopyScratchpad (s : State) : Host.Outcome State Fault Refusal :=
  .next (runWire .copyScratchpad s)

/-- RECALL_EEPROM (R93, R129): `WRITE(B8)`, no data phase. -/
def execRecallEeprom (s : State) : Host.Outcome State Fault Refusal :=
  .next (runWire .recallEeprom s)

/-- READ_POWER_SUPPLY (R93, R180): `WRITE(B4)`, then one time slot into `t_ext`. -/
def execReadPowerSupply (s : State) : Host.Outcome State Fault Refusal :=
  .next (runWire .readPowerSupply s)

end Sys2Proof.Machine
end

