-- ==== Sys2Proof/Machine/Dispatch.lean ====
section
/-! DEFINITION. The meaning of every instruction: one arm per row of spec/opcode_table.json. -/

namespace Sys2Proof.Machine

/-- What SEQ does with the instruction it stands at. -/
def exec (i : Instr) (s : State) : Host.Outcome State Fault Refusal :=
  match i with
  | .crcClr => Sys2Proof.Machine.execCrcClr s
  | .crcPush => Sys2Proof.Machine.execCrcPush s
  | .readSp => Sys2Proof.Machine.execReadSp s
  | .writeSp => Sys2Proof.Machine.execWriteSp s
  | .copySp => Sys2Proof.Machine.execCopySp s
  | .recallE2 => Sys2Proof.Machine.execRecallE2 s
  | .readTemp => Sys2Proof.Machine.execReadTemp s
  | .readRaw => Sys2Proof.Machine.execReadRaw s
  | .setRes => Sys2Proof.Machine.execSetRes s
  | .getRes => Sys2Proof.Machine.execGetRes s
  | .setAlarms => Sys2Proof.Machine.execSetAlarms s
  | .getAlarms => Sys2Proof.Machine.execGetAlarms s
  | .isExt => Sys2Proof.Machine.execIsExt s
  | .isParasite => Sys2Proof.Machine.execIsParasite s
  | .discover => Sys2Proof.Machine.execDiscover s
  | .getAddr => Sys2Proof.Machine.execGetAddr s
  | .alarmSearch => Sys2Proof.Machine.execAlarmSearch s
  | .pack64 => Sys2Proof.Machine.execPack64 s
  | .convertT => Sys2Proof.Machine.execConvertT s
  | .readScratchpad => Sys2Proof.Machine.execReadScratchpad s
  | .writeScratchpad => Sys2Proof.Machine.execWriteScratchpad s
  | .copyScratchpad => Sys2Proof.Machine.execCopyScratchpad s
  | .recallEeprom => Sys2Proof.Machine.execRecallEeprom s
  | .readPowerSupply => Sys2Proof.Machine.execReadPowerSupply s

end Sys2Proof.Machine
end

