-- ==== Sys2Proof/Machine/Fetch.lean ====
section
/-! DEFINITION. Where SEQ finds its next instruction, whose turn a step is, and how an instruction is placed there. -/

namespace Sys2Proof.Machine

/-- What SEQ stands at. -/
inductive Position where
  /-- the start of an operation: the opcode in `SEQ.OP` (R33). -/
  | hostOp (b : Byte)
  /-- a wire command of a procedure (R90). -/
  | wireCmd (b : Byte)
  /-- inside a procedure, at no instruction. -/
  | inside
  deriving DecidableEq, Repr

/-- The position of SEQ (R31). -/
def position (s : State) : Position :=
  match s.seq.todo with
  | .dispatch :: _ => .hostOp s.seq.op
  | .cmd b :: _ => .wireCmd b
  | _ => .inside

/-- The instruction byte SEQ stands at, if it stands at one. -/
def fetchByte (s : State) : Option Byte :=
  match position s with
  | .hostOp b | .wireCmd b => some b
  | .inside => none

/-- The instruction SEQ stands at: a byte of `SEQ.OP` is decoded as a host opcode, a command byte as a wire command. -/
def fetch (s : State) : Option Decoded :=
  match position s with
  | .hostOp b => some (decodeHost b)
  | .wireCmd b => some (decodeWire b)
  | .inside => none

/-- Whose turn the next step is. -/
inductive Turn where
  /-- the host's or the reset input's, with its event and what is left of `env`. -/
  | host (e : Event) (rest : List Event)
  /-- SEQ's: an operation is in progress. -/
  | seq
  /-- nobody's: no operation is in progress; an acknowledge or a tick has no effect (R43). -/
  | idle
  deriving DecidableEq, Repr

/-- Whose turn the next step is: the host's when its event is next in `env`, else SEQ's while `BUSY = 1`. -/
def nextTurn (s : State) : Turn :=
  match s.env with
  | [] => if s.status.busy then .seq else .idle
  | e :: es => if e.ofHost then .host e es else if s.status.busy then .seq else .idle

/-- A host access or a reset (R23, R34, R240). -/
def hostTurn (s : State) (e : Event) : State :=
  match e with
  | .hostWrite r v => hostWrite s r v
  | .hostRead r => hostRead s r
  | .rst => resetBlock s
  | .ack _ | .tick | .turn => s

/-- A step of nobody: what the ports delivered is lost. -/
def idleTurn (s : State) : State :=
  { s with env := s.env.tail }

/-- What remains of a procedure at its wire command `b`. -/
def fromCommand (b : Byte) (p : List Micro) : List Micro :=
  match p with
  | [] => []
  | m :: t => if m = .cmd b then m :: t else fromCommand b t

/-- An operation whose procedure issues a wire command (R93), with that procedure. -/
def issuer (i : Instr) : Instr × List Micro :=
  match i with
  | .readScratchpad => (.readSp, readSpProc)
  | .writeScratchpad => (.writeSp, writeSpProc)
  | .copyScratchpad => (.copySp, copySpProc)
  | .recallEeprom => (.recallE2, recallE2Proc)
  | .convertT => (.readTemp, readTempProc)
  | .readPowerSupply => (.isExt, isExtProc)
  | i => (i, [])

/-- `s` with the byte `b` where SEQ takes its next instruction, and SEQ's turn next. A host opcode is written to `CMD` while
no operation is in progress (R33); a wire command is the position of SEQ in an operation that issues it; any other byte is
a host write of `CMD` still to come, which step refuses (R99) (log entry 18). -/
def placeByte (s : State) (b : Byte) : State :=
  match decodeHost b, decodeWire b with
  | .instr _, _ =>
    { hostWrite { s with status := { s.status with busy := false } } 0x00 b with env := .turn :: s.env }
  | .rejected _, .instr i =>
    { (hostWrite { s with status := { s.status with busy := false } } 0x00 (encode (issuer i).1)).goto
        (fromCommand b (issuer i).2) with env := .turn :: s.env }
  | .rejected _, .rejected _ =>
    { s with status := { s.status with busy := false }, env := .hostWrite 0x00 b :: s.env }

end Sys2Proof.Machine
end

