-- ==== Sys2Proof/Machine/Step.lean ====
section
/-! DEFINITION. One step of the machine. -/

namespace Sys2Proof.Machine

/-- One step (log entries 1 and 2): an access of the host or a reset when it is next; else, with an operation in progress,
SEQ runs the instruction it stands at, or goes on inside its procedure. -/
def step (s : State) : Host.Outcome State Fault Refusal :=
  match nextTurn s with
  | .host e rest => .next (hostTurn { s with env := rest } e)
  | .idle => .next (idleTurn s)
  | .seq =>
    match fetch s with
    | some (.instr i) => exec i s
    | some (.rejected (.illegalHostOpcode b)) => .fault (.undecodable b)
    | some (.rejected (.notAWireCommand b)) => .fault (.undecodable b)
    | none => .next (seqTurn s)

/-- `s` with the instruction whose bits are `w` placed where SEQ takes its next instruction, so that the next step runs it
(log entry 18). Every row of the opcode table has one byte (R98); a word of another width is no instruction and changes
nothing. -/
def State.withFetchWord (s : State) (nbits w : Nat) : State :=
  if nbits = 8 ∧ w < 256 then placeByte s (BitVec.ofNat 8 w) else s

end Sys2Proof.Machine
end

