-- ==== Sys2Proof/Safety.lean ====
section
/-! DEFINITION. The terms claims are stated in: what the transport answers in each transaction, what an operation leaves
alone, the invariant of the machine, the pull-up window of a trace. -/

namespace Sys2Proof.Machine

/-! ## Answers of the transport -/

/-- The answers to the twelve primitives of a scratchpad read (R121). -/
structure ReadAnswers where
  reset   : Answer
  select  : Answer
  command : Answer
  bytes   : Vector Answer 9
  deriving DecidableEq, Repr

/-- The acknowledges of a scratchpad read, in order. -/
def ReadAnswers.events (x : ReadAnswers) : List Event :=
  [.ack x.reset, .ack x.select, .ack x.command, .ack x.bytes[0], .ack x.bytes[1], .ack x.bytes[2], .ack x.bytes[3],
   .ack x.bytes[4], .ack x.bytes[5], .ack x.bytes[6], .ack x.bytes[7], .ack x.bytes[8]]

/-- The nine bytes clocked in. -/
def ReadAnswers.sp (x : ReadAnswers) : Scratchpad :=
  #v[x.bytes[0].rbyte, x.bytes[1].rbyte, x.bytes[2].rbyte, x.bytes[3].rbyte, x.bytes[4].rbyte, x.bytes[5].rbyte,
     x.bytes[6].rbyte, x.bytes[7].rbyte, x.bytes[8].rbyte]

/-- The trace of the head of a transaction that found presence (R91), with its command byte. -/
def headTrace (a : RomAddr) (cmd : Byte) : List TraceEvent :=
  [.reset true, .select a, .write cmd]

/-- The twelve events of a scratchpad read (R121). -/
def ReadAnswers.trace (x : ReadAnswers) (a : RomAddr) : List TraceEvent :=
  headTrace a 0xBE ++
    [.read x.bytes[0].rbyte, .read x.bytes[1].rbyte, .read x.bytes[2].rbyte, .read x.bytes[3].rbyte,
     .read x.bytes[4].rbyte, .read x.bytes[5].rbyte, .read x.bytes[6].rbyte, .read x.bytes[7].rbyte,
     .read x.bytes[8].rbyte]

/-- The answers to the six primitives of a scratchpad write (R123). -/
structure WriteAnswers where
  reset   : Answer
  select  : Answer
  command : Answer
  th      : Answer
  tl      : Answer
  cfg     : Answer
  deriving DecidableEq, Repr

/-- The acknowledges of a scratchpad write, in order. -/
def WriteAnswers.events (x : WriteAnswers) : List Event :=
  [.ack x.reset, .ack x.select, .ack x.command, .ack x.th, .ack x.tl, .ack x.cfg]

/-- The six events of a scratchpad write (R123). -/
def writeTrace (a : RomAddr) (th tl cfg : Byte) : List TraceEvent :=
  headTrace a 0x4E ++ [.write th, .write tl, .write cfg]

/-- The answers to the four primitives of a power query (R180). -/
structure PowerAnswers where
  reset   : Answer
  select  : Answer
  command : Answer
  slot    : Answer
  deriving DecidableEq, Repr

/-- The acknowledges of a power query, in order. -/
def PowerAnswers.events (x : PowerAnswers) : List Event :=
  [.ack x.reset, .ack x.select, .ack x.command, .ack x.slot]

/-- The four events of a power query (R180). -/
def PowerAnswers.trace (x : PowerAnswers) (a : RomAddr) : List TraceEvent :=
  headTrace a 0xB4 ++ [.readBit x.slot.rflag]

/-- The answers to the three primitives of a transaction without data phase (R91). -/
structure HeadAnswers where
  reset   : Answer
  select  : Answer
  command : Answer
  deriving DecidableEq, Repr

/-- The acknowledges of such a transaction, in order. -/
def HeadAnswers.events (x : HeadAnswers) : List Event :=
  [.ack x.reset, .ack x.select, .ack x.command]

/-- `n` ticks. -/
def ticks (n : Nat) : List Event := List.replicate n .tick

/-- The trace of `AssistWait(n, parasite)` (R145): the pin is driven when `drives`. -/
def assistTrace (drives : Bool) (n : Nat) : List TraceEvent :=
  if drives then [.pullup true, .wait n, .pullup false] else [.wait n]

/-- The address a search answers (R40, R96). -/
def candidateOf (a : Answer) : RomAddr := unpack64 a.raddr

/-- The addresses DISCOVER accepts among the candidates of its searches (R193). -/
def validOnes (p : Params) (found : List Answer) : List RomAddr :=
  (found.map candidateOf).filter (romValid p.crc)

/-- The trace of searches of DISCOVER that found the candidates `found`. -/
def searchTrace (found : List Answer) : List TraceEvent :=
  found.map (fun a => .search false (some (candidateOf a)))

/-- The acknowledges `l`, in order. -/
def acks (l : List Answer) : List Event := l.map .ack

/-- The comparison of the write verification (R69, R124): bytes 2, 3, 4 are the three written. -/
def echoes (sp : Scratchpad) (th tl cfg : Byte) : Bool :=
  sp[2] == th && sp[3] == tl && sp[4] == cfg

/-- How a verified write ends (R124): none is success. -/
def verifyKind (f : CrcFunction) (sp : Scratchpad) (th tl cfg : Byte) : Option FailKind :=
  if spValid f sp then (if echoes sp th tl cfg then none else some .verify) else some .crc

/-- How a scratchpad read ends (R121): none is success. -/
def crcKind (f : CrcFunction) (sp : Scratchpad) : Option FailKind :=
  if spValid f sp then none else some .crc

/-- The resolution a conversion goes on with (R141) after a resolution read that answered `sp`. -/
def resolutionOf (p : Params) (sp : Scratchpad) : Byte :=
  if spValid p.crc sp then resDecode p.cfg sp[4] else 12

/-! ## Runs: every way the transport can answer an operation

A run lists the answers of the transport in the order they are asked for, up to the end of the procedure; the rest follows
from them: the events that reach SEQ, the trace, the failure kind (none for success), the bytes in `SP` at the end. A run is
legal when its presence flags and checksums are those of its shape; every sequence of answers that ends an operation is a
legal run of it, and each failure of R211 has its shape. -/

/-- A scratchpad read (R121): no presence, or twelve answers. -/
inductive ReadRun where
  | absent (p : Answer)
  | present (x : ReadAnswers)
  deriving DecidableEq, Repr

/-- The shape of a read agrees with its presence flag. -/
def ReadRun.legal : ReadRun → Bool
  | .absent p => !p.rflag
  | .present x => x.reset.rflag

/-- The events of a read. -/
def ReadRun.events : ReadRun → List Event
  | .absent p => [.ack p]
  | .present x => x.events

/-- The trace of a read. -/
def ReadRun.trace (r : ReadRun) (a : RomAddr) : List TraceEvent :=
  match r with
  | .absent _ => [.reset false]
  | .present x => x.trace a

/-- How a read ends: `Absent`, `Crc`, or success. -/
def ReadRun.kind (p : Params) : ReadRun → Option FailKind
  | .absent _ => some .absent
  | .present x => crcKind p.crc x.sp

/-- `SP` after a read: the bytes clocked in, or what it held (R28). -/
def ReadRun.spAfter (r : ReadRun) (old : Scratchpad) : Scratchpad :=
  match r with
  | .absent _ => old
  | .present x => x.sp

/-- A power query (R180). -/
inductive PowerRun where
  | absent (p : Answer)
  | present (x : PowerAnswers)
  deriving DecidableEq, Repr

/-- The shape of a power query agrees with its presence flag. -/
def PowerRun.legal : PowerRun → Bool
  | .absent p => !p.rflag
  | .present x => x.reset.rflag

/-- The events of a power query. -/
def PowerRun.events : PowerRun → List Event
  | .absent p => [.ack p]
  | .present x => x.events

/-- The trace of a power query. -/
def PowerRun.trace (r : PowerRun) (a : RomAddr) : List TraceEvent :=
  match r with
  | .absent _ => [.reset false]
  | .present x => x.trace a

/-- How a power query ends. -/
def PowerRun.kind : PowerRun → Option FailKind
  | .absent _ => some .absent
  | .present _ => none

/-- The sample of the slot is `v`, of a device that was present. -/
def PowerRun.sampled (r : PowerRun) (v : Bool) : Bool :=
  match r with
  | .absent _ => false
  | .present x => x.slot.rflag == v

/-- A verified write (R124): no presence at the write, or the three bytes and the read-back. -/
inductive WriteRun where
  | absent (p : Answer)
  | sent (w : WriteAnswers) (r : ReadRun)
  deriving DecidableEq, Repr

/-- The shape of a verified write agrees with its presence flags. -/
def WriteRun.legal : WriteRun → Bool
  | .absent p => !p.rflag
  | .sent w r => w.reset.rflag && r.legal

/-- The events of a verified write. -/
def WriteRun.events : WriteRun → List Event
  | .absent p => [.ack p]
  | .sent w r => w.events ++ r.events

/-- The trace of a verified write of `th`, `tl`, `cfg`. -/
def WriteRun.trace (r : WriteRun) (a : RomAddr) (th tl cfg : Byte) : List TraceEvent :=
  match r with
  | .absent _ => [.reset false]
  | .sent _ b => writeTrace a th tl cfg ++ b.trace a

/-- How a verified write of `th`, `tl`, `cfg` ends (R124, R218). -/
def WriteRun.kind (p : Params) (r : WriteRun) (th tl cfg : Byte) : Option FailKind :=
  match r with
  | .absent _ | .sent _ (.absent _) => some .absent
  | .sent _ (.present x) => verifyKind p.crc x.sp th tl cfg

/-- `SP` after a verified write. -/
def WriteRun.spAfter (r : WriteRun) (old : Scratchpad) : Scratchpad :=
  match r with
  | .absent _ => old
  | .sent _ b => b.spAfter old

/-- A copy to EEPROM (R127): no presence at the power query, none at the copy, or both transactions and the wait. -/
inductive CopyRun where
  | absent (p : Answer)
  | uncopied (q : PowerAnswers) (p : Answer)
  | copied (q : PowerAnswers) (h : HeadAnswers)
  deriving DecidableEq, Repr

/-- The shape of a copy agrees with its presence flags. -/
def CopyRun.legal : CopyRun → Bool
  | .absent p => !p.rflag
  | .uncopied q p => q.reset.rflag && !p.rflag
  | .copied q h => q.reset.rflag && h.reset.rflag

/-- The events of a copy; `T_EEPROM` is 10 ticks (R6). -/
def CopyRun.events : CopyRun → List Event
  | .absent p => [.ack p]
  | .uncopied q p => q.events ++ [.ack p]
  | .copied q h => q.events ++ (h.events ++ ticks 10)

/-- The trace of a copy, with the pull-up window when the device is parasite-powered and `PULLUP_EN` is latched (R128). -/
def CopyRun.trace (r : CopyRun) (a : RomAddr) (pullupEn : Bool) : List TraceEvent :=
  match r with
  | .absent _ => [.reset false]
  | .uncopied q _ => q.trace a ++ [.reset false]
  | .copied q _ => q.trace a ++ headTrace a 0x48 ++ assistTrace (!q.slot.rflag && pullupEn) 10

/-- How a copy ends: success means that both transactions found presence. -/
def CopyRun.kind : CopyRun → Option FailKind
  | .absent _ | .uncopied _ _ => some .absent
  | .copied _ _ => none

/-- Whether a copy waited, so that the counter was used (R226). -/
def CopyRun.waited : CopyRun → Bool
  | .copied _ _ => true
  | .absent _ | .uncopied _ _ => false

/-- A recall from EEPROM (R129): no presence at the recall, or the recall and its confirming read. -/
inductive RecallRun where
  | absent (p : Answer)
  | recalled (h : HeadAnswers) (r : ReadRun)
  deriving DecidableEq, Repr

/-- The shape of a recall agrees with its presence flags. -/
def RecallRun.legal : RecallRun → Bool
  | .absent p => !p.rflag
  | .recalled h r => h.reset.rflag && r.legal

/-- The events of a recall. -/
def RecallRun.events : RecallRun → List Event
  | .absent p => [.ack p]
  | .recalled h r => h.events ++ r.events

/-- The trace of a recall: no wait stands between the command and the read. -/
def RecallRun.trace (r : RecallRun) (a : RomAddr) : List TraceEvent :=
  match r with
  | .absent _ => [.reset false]
  | .recalled _ b => headTrace a 0xB8 ++ b.trace a

/-- How a recall ends. -/
def RecallRun.kind (p : Params) : RecallRun → Option FailKind
  | .absent _ => some .absent
  | .recalled _ r => r.kind p

/-- `SP` after a recall. -/
def RecallRun.spAfter (r : RecallRun) (old : Scratchpad) : Scratchpad :=
  match r with
  | .absent _ => old
  | .recalled _ b => b.spAfter old

/-- The resolution a conversion goes on with after the resolution read `r` (R141). -/
def resolutionAfter (p : Params) (r : ReadRun) : Byte :=
  match r with
  | .absent _ => 12
  | .present x => resolutionOf p x.sp

/-- A conversion (R144): no presence at the conversion command; a failed resolution read with `RT_ABORT_ON_RES_FAIL`; no
presence at the power query; or the wait and the final read. -/
inductive ConvertRun where
  | absent (p : Answer)
  | aborted (h : HeadAnswers) (r : ReadRun)
  | unpowered (h : HeadAnswers) (r : ReadRun) (p : Answer)
  | converted (h : HeadAnswers) (r : ReadRun) (q : PowerAnswers) (f : ReadRun)
  deriving DecidableEq, Repr

/-- The shape of a conversion agrees with its presence flags, its checksums and the parameter. -/
def ConvertRun.legal (p : Params) (c : ConvertRun) : Bool :=
  match c with
  | .absent b => !b.rflag
  | .aborted h r => h.reset.rflag && r.legal && (r.kind p).isSome && p.abortOnResFail
  | .unpowered h r b => h.reset.rflag && r.legal && ((r.kind p).isNone || !p.abortOnResFail) && !b.rflag
  | .converted h r q f =>
    h.reset.rflag && r.legal && ((r.kind p).isNone || !p.abortOnResFail) && q.reset.rflag && f.legal

/-- The events of a conversion, with the ticks of its wait (R142, R226). -/
def ConvertRun.events (p : Params) : ConvertRun → List Event
  | .absent b => [.ack b]
  | .aborted h r => h.events ++ r.events
  | .unpowered h r b => h.events ++ (r.events ++ [.ack b])
  | .converted h r q f => h.events ++ (r.events ++ (q.events ++ (ticks (tConv (resolutionAfter p r)) ++ f.events)))

/-- The trace of a conversion (R144). -/
def ConvertRun.trace (p : Params) (c : ConvertRun) (a : RomAddr) (pullupEn : Bool) : List TraceEvent :=
  match c with
  | .absent _ => [.reset false]
  | .aborted _ r => headTrace a 0x44 ++ r.trace a
  | .unpowered _ r _ => headTrace a 0x44 ++ r.trace a ++ [.reset false]
  | .converted _ r q f =>
    headTrace a 0x44 ++ r.trace a ++ q.trace a ++
      assistTrace (!q.slot.rflag && pullupEn) (tConv (resolutionAfter p r)) ++ f.trace a

/-- How a conversion ends; a failure of the resolution read alone is no failure of a conversion (R141). -/
def ConvertRun.kind (p : Params) : ConvertRun → Option FailKind
  | .absent _ | .unpowered _ _ _ => some .absent
  | .aborted _ r => r.kind p
  | .converted _ _ _ f => f.kind p

/-- `SP` after a conversion. -/
def ConvertRun.spAfter (c : ConvertRun) (old : Scratchpad) : Scratchpad :=
  match c with
  | .absent _ => old
  | .aborted _ r | .unpowered _ r _ => r.spAfter old
  | .converted _ r _ f => f.spAfter (r.spAfter old)

/-- Whether a conversion waited, so that the counter was used (R226). -/
def ConvertRun.waited : ConvertRun → Bool
  | .converted _ _ _ _ => true
  | .absent _ | .aborted _ _ | .unpowered _ _ _ => false

/-- A read and a verified write that keeps some of what was read (R162, R165): the read fails, or the write ends it. -/
inductive UpdateRun where
  | unread (r : ReadRun)
  | written (x : ReadAnswers) (w : WriteRun)
  deriving DecidableEq, Repr

/-- The shape of an update agrees with its presence flags and its first checksum. -/
def UpdateRun.legal (p : Params) : UpdateRun → Bool
  | .unread r => r.legal && (r.kind p).isSome
  | .written x w => x.reset.rflag && spValid p.crc x.sp && w.legal

/-- The events of an update. -/
def UpdateRun.events : UpdateRun → List Event
  | .unread r => r.events
  | .written x w => x.events ++ w.events

/-- The trace of an update that writes `f sp` for the scratchpad `sp` read. -/
def UpdateRun.trace (u : UpdateRun) (a : RomAddr) (f : Scratchpad → Byte × Byte × Byte) : List TraceEvent :=
  match u with
  | .unread r => r.trace a
  | .written x w => x.trace a ++ w.trace a (f x.sp).1 (f x.sp).2.1 (f x.sp).2.2

/-- How an update that writes `f sp` ends. -/
def UpdateRun.kind (p : Params) (u : UpdateRun) (f : Scratchpad → Byte × Byte × Byte) : Option FailKind :=
  match u with
  | .unread r => r.kind p
  | .written x w => w.kind p (f x.sp).1 (f x.sp).2.1 (f x.sp).2.2

/-- `SP` after an update. -/
def UpdateRun.spAfter (u : UpdateRun) (old : Scratchpad) : Scratchpad :=
  match u with
  | .unread r => r.spAfter old
  | .written x w => w.spAfter x.sp

/-- The three bytes SET_RES writes (R162): the thresholds as read, the configuration byte built anew. -/
def setResBytes (p : Params) (l : Latches) (sp : Scratchpad) : Byte × Byte × Byte :=
  (sp[2], sp[3], cfgEncode p.cfg l.res)

/-- The three bytes SET_ALARMS writes (R165): the latched thresholds, the configuration byte as read. -/
def setAlarmsBytes (l : Latches) (sp : Scratchpad) : Byte × Byte × Byte := (l.th, l.tl, sp[4])

/-! ## What an operation leaves alone -/

/-- The operation has ended (R35) with the failure kind `kind`, none for success: `BUSY = 0`, `OK` is the success value, every
other flag as before, `SEQ.STEP = 0`. -/
def EndedWith (kind : Option FailKind) (s t : State) : Prop :=
  t.status = { s.status with busy := false, ok := kind.isNone } ∧ t.seq = { op := s.seq.op, step := 0, todo := [] } ∧
    t.failKind = kind

/-- Registers no per-device operation writes: `CMD`, `CTRL`, the operand registers, `COUNT`, the latches, the host port's
read value, the parameters, and every byte of `REG`. -/
def KeepsRegisters (s t : State) : Prop :=
  t.cmd = s.cmd ∧ t.pullupEn = s.pullupEn ∧ t.args = s.args ∧ t.count = s.count ∧ t.latch = s.latch ∧
    t.hostRd = s.hostRd ∧ t.params = s.params ∧ t.reg = s.reg ∧ ∀ k, Memory.read t.reg k = Memory.read s.reg k

/-- What a wire command and its data phase leave alone: every host register but `SP`, every byte of `REG`, the latches, the
flags, the pin, the parameters, the failure kind. -/
def KeepsForCommand (s u : State) : Prop :=
  u.cmd = s.cmd ∧ u.status = s.status ∧ u.pullupEn = s.pullupEn ∧ u.args = s.args ∧ u.count = s.count ∧
    u.latch = s.latch ∧ u.hostRd = s.hostRd ∧ u.failKind = s.failKind ∧ u.params = s.params ∧ u.reg = s.reg ∧
    ∀ k, Memory.read u.reg k = Memory.read s.reg k

/-- The registers the host may write and read back whole (R21, R23): 0x04 to 0x0A and 0x10 to 0x17. -/
def plainRegister (r : Byte) : Bool :=
  (0x04 ≤ r && r ≤ 0x0A) || (0x10 ≤ r && r ≤ 0x17)

/-- Whether a host operation reads a scratchpad (R22, R28). -/
def readsScratchpad : Instr → Bool
  | .readSp | .writeSp | .recallE2 | .readTemp | .readRaw | .setRes | .getRes | .setAlarms | .getAlarms => true
  | _ => false

/-- The column "written by" of R22, with R27, R37, R38, R39: `i` is the operation in progress, `s` the state before and `t`
the state after. -/
def WrittenByTable (i : Instr) (s t : State) : Prop :=
  (i ≠ .discover → t.reg = s.reg ∧ t.count = s.count) ∧
  (i ≠ .crcClr → i ≠ .crcPush → t.out.crcAcc = s.out.crcAcc) ∧
  (i ≠ .pack64 → t.out.a64 = s.out.a64) ∧
  (i ≠ .readTemp → t.out.tempF32 = s.out.tempF32 ∧ (i ≠ .readRaw → t.out.raw = s.out.raw)) ∧
  (i ≠ .getRes → t.out.res = s.out.res) ∧
  (i ≠ .getAlarms → t.out.thOut = s.out.thOut ∧ t.out.tlOut = s.out.tlOut) ∧
  (readsScratchpad i = false → t.out.sp = s.out.sp) ∧
  (i ≠ .isExt → i ≠ .isParasite → t.status.bool = s.status.bool) ∧
  (i ≠ .getAddr → i ≠ .alarmSearch → t.args.addr = s.args.addr) ∧
  t.args = { s.args with addr := t.args.addr } ∧ t.cmd = s.cmd ∧ t.pullupEn = s.pullupEn ∧ t.latch = s.latch ∧
  t.hostRd = s.hostRd ∧ t.status.ill = s.status.ill ∧ t.seq.op = s.seq.op

/-- The pin and the counter are as before, and no event of either joined the trace. -/
def PinAndCounterAlone (s t : State) : Prop :=
  t.status.pullup = s.status.pullup ∧ t.ctc = s.ctc ∧
    ∃ tr, t.trace = s.trace ++ tr ∧ (∀ v, .pullup v ∉ tr) ∧ ∀ n, .wait n ∉ tr

/-- What DISCOVER leaves when its searches found the candidates `found`: the valid ones in `REG` in their order and no other
byte changed, `COUNT` their number, `OK` whether there is one; no other register changed. -/
def Discovered (found : List Answer) (s t : State) : Prop :=
  EndedWith (if validOnes s.params found = [] then some .noDevice else none) s t ∧
    t.count = BitVec.ofNat 8 (validOnes s.params found).length ∧
    (∀ (j : Nat) (h : j < (validOnes s.params found).length), readEntry t.reg j = (validOnes s.params found)[j]) ∧
    (∀ k, 8 * (validOnes s.params found).length ≤ k → Memory.read t.reg k = Memory.read s.reg k) ∧ Memory.wf t.reg = true ∧
    t.out = s.out ∧ t.args = s.args ∧ t.cmd = s.cmd ∧ t.pullupEn = s.pullupEn ∧ t.latch = s.latch ∧ t.hostRd = s.hostRd ∧
    t.params = s.params ∧ t.ctc = s.ctc ∧ t.bus.req = false

/-- The state R48 gives, register by register; it gives none for the latches, the scratch values and `REG`. -/
def HasResetValues (t : State) : Prop :=
  t.cmd = 0x00 ∧ t.status = { busy := false, ok := false, bool := false, ill := false, pullup := false } ∧
    t.pullupEn = false ∧ t.count = 0 ∧ t.args.addr = RomAddr.zero ∧ t.args.th = 0x00 ∧ t.args.tl = 0x00 ∧
    t.args.cfg = 0x00 ∧ t.args.res = 0x00 ∧ t.args.flags = 0x00 ∧ t.args.idx = 0x00 ∧ t.args.byte = 0x00 ∧
    t.out.sp = Scratchpad.zero ∧ t.out.raw = 0x0000 ∧ t.out.tempF32 = 0x7FC00000 ∧ t.out.res = 0x00 ∧
    t.out.thOut = 0x00 ∧ t.out.tlOut = 0x00 ∧ t.out.crcAcc = 0x00 ∧ t.out.a64 = 0 ∧ t.seq.op = 0 ∧ t.seq.step = 0 ∧
    t.seq.todo = [] ∧ t.ctc = { cnt := 0, run := false } ∧ pullupOut t = false ∧ t.bus.req = false ∧ busyOut t = false

/-! ## The procedure of the operation in progress (R31) -/

/-- The procedure of a host operation with the latched operands `l`; four operations need no move of SEQ, and a wire command
is a move of another procedure. -/
def procedureOf (i : Instr) (l : Latches) : List Micro :=
  match i with
  | .readSp => readSpProc
  | .writeSp => writeSpProc
  | .copySp => copySpProc
  | .recallE2 => recallE2Proc
  | .readTemp => readTempProc
  | .readRaw => readRawProc
  | .setRes => setResProc l
  | .getRes => getResProc
  | .setAlarms => setAlarmsProc
  | .getAlarms => getAlarmsProc
  | .isExt => isExtProc
  | .isParasite => isParasiteProc
  | .discover => discoverProc
  | .alarmSearch => alarmSearchProc
  | .crcClr | .crcPush | .getAddr | .pack64 => []
  | .convertT | .readScratchpad | .writeScratchpad | .copyScratchpad | .recallEeprom | .readPowerSupply => []

/-- A move written out: a wire command with its data phase (R93), a running wait as the assisted wait it belongs to (R225:
only a wait of `T_EEPROM` ticks is a copy's). -/
def Micro.unfold (m : Micro) : List Micro :=
  match m with
  | .cmd b => .cmd b :: dataPhase b
  | .waiting n => [.assist (if n = Config.tEeprom then .eeprom else .conversion)]
  | m => [m]

/-- A procedure written out. -/
def unfolded (p : List Micro) : List Micro := p.flatMap Micro.unfold

/-- `todo` is a rest of the procedure `p`. -/
def RestOf (p todo : List Micro) : Prop := unfolded todo <:+ unfolded p

/-- An operation in progress is one of R97's, and SEQ stands at its start or the moves that remain are a rest of its
procedure. -/
def InProcedure (s : State) : Prop :=
  s.status.busy = true → ∃ i, decodeHost s.seq.op = .instr i ∧
    (s.seq.todo = [.dispatch] ∨ RestOf (procedureOf i s.latch) s.seq.todo)

/-! ## The invariant of the machine -/

/-- The device waits that exist (R225): 94, 188, 375, 750 and 10 ticks. -/
def isWaitLength (n : Nat) : Bool :=
  n == 94 || n == 188 || n == 375 || n == 750 || n == 10

/-- A move that stands in a procedure behind the place SEQ is at: no start, no running wait, and a command byte only when it
is one of R90. -/
def Micro.inProcedure : Micro → Bool
  | .dispatch | .waiting _ => false
  | .cmd b => (decodeWire b).toOption.isSome
  | _ => true

/-- The rest of a procedure ends with the end of its operation. -/
def endsWithFinish (p : List Micro) : Bool :=
  match p with
  | [] => false
  | [.finish _] => true
  | _ :: t => endsWithFinish t

/-- SEQ stands at a primitive, inside a wait, or at the start of an operation that R97 lists. -/
def legalHead (op : Byte) (m : Micro) : Bool :=
  match m with
  | .dispatch => (decodeHost op).toOption.isSome
  | .waiting n => isWaitLength n
  | .cmd b => (decodeWire b).toOption.isSome
  | m => m.isBus

/-- A legal position of SEQ in an operation in progress (R31). -/
def legalPosition (op : Byte) (todo : List Micro) : Bool :=
  match todo with
  | [] => false
  | [.dispatch] => legalHead op .dispatch
  | m :: t => m != .dispatch && legalHead op m && t.all Micro.inProcedure && endsWithFinish t

/-- Whether SEQ is inside a wait (R226). -/
def inWait (s : State) : Bool :=
  match s.seq.todo with
  | .waiting _ :: _ => true
  | _ => false

/-- Whether SEQ stands at a primitive of the transport port. -/
def atPrimitive (s : State) : Bool :=
  match s.seq.todo with
  | m :: _ => m.isBus
  | [] => false

/-- The part of the invariant that says how the registers, the counter, the pin and the port fit together. -/
structure Consistent (s : State) : Prop where
  /-- `REG` is in canonical form. -/
  regCanonical : Memory.wf s.reg = true
  /-- every listed byte of `REG` belongs to one of the `MAXDEV` entries (R37). -/
  regInside : ∀ c ∈ s.reg, c.1 < 8 * s.params.maxDev
  /-- `COUNT <= MAXDEV` (R38). -/
  countBound : s.count.toNat ≤ s.params.maxDev
  /-- `SEQ.STEP = 0` when no operation is in progress (R31). -/
  idleStep : s.status.busy = false → s.seq.todo = [] ∧ s.seq.step = 0
  /-- an operation in progress stands at a legal position. -/
  position : s.status.busy = true → legalPosition s.seq.op s.seq.todo = true
  /-- `OK`, `BOOL`, `ILL` are 0 while an operation is in progress (R25, R33). -/
  busyFlags : s.status.busy = true → s.status.ok = false ∧ s.status.bool = false ∧ s.status.ill = false
  /-- `CTC.RUN = 1` exactly inside a wait, which has ticks left (R43, R226). -/
  counter : s.ctc.run = inWait s ∧ (s.ctc.run = true → 0 < s.ctc.cnt.toNat ∧ s.ctc.cnt.toNat ≤ 750)
  /-- the pin is 1 exactly inside a wait for a parasite-powered device with the latched `PULLUP_EN` 1 (R145, R252). -/
  pin : s.status.pullup = (s.ctc.run && assistDrives s)
  /-- while DISCOVER stands at its search there is room in `REG` (R191). -/
  room : ∀ t, s.seq.todo = .discover :: t → s.count.toNat < s.params.maxDev
  /-- a primitive is requested only where SEQ stands at one: by an operation in progress, never inside a wait (R41, R228,
  R252). -/
  requested : s.bus.req = true → atPrimitive s = true
  /-- `bt_op` 7 is never issued, and no WRITE has `usePower` set (R95, R96). -/
  portCodes : s.bus.op ≠ 7 ∧ (s.bus.op = 2 → s.bus.flag = false)
  /-- `SEQ.STEP` counts the events of the trace of the operation in progress (R8, R31). -/
  stepCounts : s.status.busy = true → s.seq.step = s.trace.length

/-- What is true of OWSEQ at reset and after every step. -/
structure Inv (s : State) : Prop extends Consistent s where
  /-- `SEQ.STEP` stands in the procedure of the operation in `SEQ.OP` (R31). -/
  procedure : InProcedure s

/-! ## The pull-up window of a trace (R154, R252) -/

/-- Where a trace stands with respect to the pull-up window. -/
inductive Window where
  /-- the pin is 0. -/
  | closed
  /-- `PULLUP(1)` has been seen. -/
  | opened
  /-- and then `WAIT(n)`. -/
  | waited
  deriving DecidableEq, Repr

/-- One event: between `PULLUP(1)` and `PULLUP(0)` there is exactly one `WAIT(n)`, with an `n` of R225, and nothing else. -/
def Window.next (w : Window) (e : TraceEvent) : Option Window :=
  match w, e with
  | .closed, .pullup true => some .opened
  | .closed, .pullup false => none
  | .closed, _ => some .closed
  | .opened, .wait n => if isWaitLength n then some .waited else none
  | .opened, _ => none
  | .waited, .pullup false => some .closed
  | .waited, _ => none

/-- Where a whole trace stands; none when its pull-up events are not bracketed. -/
def windowOf (w : Window) (tr : List TraceEvent) : Option Window :=
  match tr with
  | [] => some w
  | e :: tr =>
    match w.next e with
    | some w' => windowOf w' tr
    | none => none

/-- The trace is bracketed and agrees with the pin. -/
def TraceMatchesPin (s : State) : Prop :=
  windowOf .closed s.trace = some (if s.status.pullup then .opened else .closed)

/-! ## Comparing runs -/

/-- An outcome seen through a function of its next state. -/
def outcomeMap (f : State → State) (o : Host.Outcome State Fault Refusal) : Host.Outcome State Fault Refusal :=
  match o with
  | .next t => .next (f t)
  | .fault r => .fault r
  | .refused r => .refused r

/-- A state without its ghost fields (R47). -/
def forgetGhost (s : State) : State :=
  { s with trace := [], failKind := none }

/-- A state without the flags an earlier operation left (R36): `OK`, `BOOL`, `ILL`, and the ghost kind. -/
def forgetFlags (s : State) : State :=
  { s with status := { s.status with ok := false, bool := false, ill := false }, failKind := none }

/-- An access of the host; a reset is none. -/
def Event.isAccess : Event → Bool
  | .hostWrite _ _ | .hostRead _ => true
  | .rst | .ack _ | .tick | .turn => false

/-- The events without the accesses of the host. -/
def withoutAccesses (es : List Event) : List Event := es.filter (fun e => !e.isAccess)

/-- At most `n` steps, as long as an operation is in progress. -/
def runSteps (n : Nat) (s : State) : Host.Outcome State Fault Refusal :=
  match n with
  | 0 => .next s
  | n + 1 =>
    if s.status.busy then
      match step s with
      | .next t => runSteps n t
      | o => o
    else .next s

/-- The operation has ended, or SEQ waits for a port and a further step changes nothing. -/
def AtRest (s : State) : Prop := s.status.busy = false ∨ step s = .next s

/-- `CRC_PUSH` once for each byte, each latched as the operand (R117). -/
def pushAll (bs : List Byte) (s : State) : Host.Outcome State Fault Refusal :=
  match bs with
  | [] => .next s
  | b :: bs =>
    match exec .crcPush { s with latch := { s.latch with byte := b } } with
    | .next t => pushAll bs t
    | o => o

end Sys2Proof.Machine
end

