-- ==== Sys2Proof/Certificates/Slice0/Obligations.lean ====
section
/-! DEFINITION. The statements about OWSEQ for the provers. Each docstring names the rule of spec/ it formalises. -/

open Sys2Proof Sys2Proof.Machine

/-! ## Decoding (30_encoding.md) -/

/-- R90, R97, R98, R99: every byte of the two tables decodes to its mnemonic, and bytes of neither table, or of the other
one, are rejected. -/
def Obligations.TableBytesDecode : Prop :=
  (decodeHost 0x01 = .instr .crcClr ∧ decodeHost 0x02 = .instr .crcPush ∧ decodeHost 0x10 = .instr .readSp ∧
    decodeHost 0x11 = .instr .writeSp ∧ decodeHost 0x12 = .instr .copySp ∧ decodeHost 0x13 = .instr .recallE2) ∧
  (decodeHost 0x20 = .instr .readTemp ∧ decodeHost 0x21 = .instr .readRaw ∧ decodeHost 0x30 = .instr .setRes ∧
    decodeHost 0x31 = .instr .getRes ∧ decodeHost 0x32 = .instr .setAlarms ∧ decodeHost 0x33 = .instr .getAlarms) ∧
  (decodeHost 0x40 = .instr .isExt ∧ decodeHost 0x41 = .instr .isParasite ∧ decodeHost 0x50 = .instr .discover ∧
    decodeHost 0x51 = .instr .getAddr ∧ decodeHost 0x52 = .instr .alarmSearch ∧ decodeHost 0x53 = .instr .pack64) ∧
  (decodeWire 0x44 = .instr .convertT ∧ decodeWire 0xBE = .instr .readScratchpad ∧
    decodeWire 0x4E = .instr .writeScratchpad ∧ decodeWire 0x48 = .instr .copyScratchpad ∧
    decodeWire 0xB8 = .instr .recallEeprom ∧ decodeWire 0xB4 = .instr .readPowerSupply) ∧
  (decodeHost 0x00 = .rejected (.illegalHostOpcode 0x00) ∧ decodeHost 0x44 = .rejected (.illegalHostOpcode 0x44) ∧
    decodeWire 0x10 = .rejected (.notAWireCommand 0x10))

/-- R90, R97, R98: the byte of a well-formed instruction decodes to it, in its own format and as a word of the opcode
table. -/
def Obligations.EncodeThenDecode : Prop :=
  ∀ (f : Format) (i : Instr), i.wellFormedAs f = true →
    decodeAs f (encode i) = .instr i ∧ decodeTableWord 8 (encode i).toNat = some i

/-- R90, R97: each byte a decoder accepts has one meaning, and it is the byte of that instruction. -/
def Obligations.DecodeThenEncode : Prop :=
  ∀ (f : Format) (b : Byte) (i : Instr), decodeAs f b = .instr i → i.wellFormedAs f = true ∧ encode i = b

/-- R92, R99: the values of `CMD` that are no opcode are exactly those R99 lists, and a byte outside the six of R90 is no wire
command. -/
def Obligations.OtherBytesRejected : Prop :=
  (∀ b : Byte, decodeHost b = .rejected (.illegalHostOpcode b) ↔
    b = 0x00 ∨ (0x03 ≤ b ∧ b ≤ 0x0F) ∨ (0x14 ≤ b ∧ b ≤ 0x1F) ∨ (0x22 ≤ b ∧ b ≤ 0x2F) ∨ (0x34 ≤ b ∧ b ≤ 0x3F) ∨
      (0x42 ≤ b ∧ b ≤ 0x4F) ∨ 0x54 ≤ b) ∧
  ∀ b : Byte, decodeWire b = .rejected (.notAWireCommand b) ↔
    b ≠ 0x44 ∧ b ≠ 0xBE ∧ b ≠ 0x4E ∧ b ≠ 0x48 ∧ b ≠ 0xB8 ∧ b ≠ 0xB4

/-! ## One step -/

/-- R31, R33, R93: where no host event is next and an operation is in progress, a step is exec of the decoded instruction SEQ
stands at (the opcode in `SEQ.OP` at the start of an operation, a wire command inside it), with nothing around it; inside a
procedure at no instruction it is SEQ's going on. -/
def Obligations.StepRunsDecodedInstruction : Prop :=
  ∀ s : State, s.status.busy = true → (∀ e, s.env.head? = some e → e.ofHost = false) →
    (∀ i t, s.seq.todo = .dispatch :: t → decodeHost s.seq.op = .instr i → step s = exec i s) ∧
    (∀ i b t, s.seq.todo = .cmd b :: t → decodeWire b = .instr i → step s = exec i s) ∧
    (∀ m t, s.seq.todo = m :: t → m ≠ .dispatch → (∀ b, m ≠ .cmd b) → step s = .next (resume s))

/-- Log entry 18 (the model's own placement of an instruction): whatever the state, the instruction placed by `withFetchWord`
is the one the next step runs; for a host opcode it is the operation in progress R33 starts. -/
def Obligations.PlacedInstructionRunsNext : Prop :=
  ∀ (s : State) (i : Instr), step (s.withFetchWord 8 (encode i).toNat) = exec i (s.withFetchWord 8 (encode i).toNat) ∧
    (s.withFetchWord 8 (encode i).toNat).status.busy = true ∧
    (i.format = .host8 → (s.withFetchWord 8 (encode i).toNat).seq = { op := encode i, step := 0, todo := [.dispatch] })

/-- R23, R43, log entry 1 (the model's own scheduling): an event of the host is taken before SEQ moves; while no operation is
in progress an acknowledge, a tick or an empty turn changes nothing. -/
def Obligations.StepTakesEventsInOrder : Prop :=
  (∀ (s : State) (e : Event) (es : List Event), s.env = e :: es → e.ofHost = true →
    step s = .next (hostTurn { s with env := es } e)) ∧
  ∀ (s : State) (e : Event) (es : List Event), s.env = e :: es → e.ofHost = false → s.status.busy = false →
    step s = .next { s with env := es }

/-! ## The host's port (10_state.md) -/

/-- R24, R33, R97: a legal opcode written to `CMD` while `BUSY = 0` starts its operation: every latch takes the present value of
its register, the flags are cleared, `BUSY` is 1, and nothing else changes. -/
def Obligations.LegalOpcodeStartsOperation : Prop :=
  ∀ (s : State) (v : Byte) (i : Instr) (es : List Event), s.env = .hostWrite 0x00 v :: es → s.status.busy = false →
    decodeHost v = .instr i →
    step s = .next
      { s with
        env := es
        cmd := v
        seq := { op := v, step := 0, todo := [.dispatch] }
        latch :=
          { addr := s.args.addr, th := s.args.th, tl := s.args.tl, cfg := s.args.cfg, res := s.args.res,
            persist := s.args.flags.getLsbD 0, idx := s.args.idx, byte := s.args.byte, pullupEn := s.pullupEn }
        status := { s.status with busy := true, ok := false, bool := false, ill := false }
        trace := []
        failKind := none }

/-- R99: an illegal value of `CMD` starts nothing. -/
def Obligations.IllegalOpcodeRefused : Prop :=
  ∀ (s : State) (v : Byte) (es : List Event), s.env = .hostWrite 0x00 v :: es → s.status.busy = false →
    (v = 0x00 ∨ (0x03 ≤ v ∧ v ≤ 0x0F) ∨ (0x14 ≤ v ∧ v ≤ 0x1F) ∨ (0x22 ≤ v ∧ v ≤ 0x2F) ∨ (0x34 ≤ v ∧ v ≤ 0x3F) ∨
      (0x42 ≤ v ∧ v ≤ 0x4F) ∨ 0x54 ≤ v) →
    step s = .next
      { s with
        env := es
        cmd := v
        status := { s.status with busy := false, ok := false, bool := false, ill := true }
        failKind := some .illegalOp }

/-- R34: while `BUSY = 1` a host write to any register is ignored and a host read returns the present value; only reset stops an
operation. -/
def Obligations.BusyIgnoresHostWrites : Prop :=
  ∀ (s : State) (r v : Byte) (es : List Event), s.status.busy = true →
    (s.env = .hostWrite r v :: es → step s = .next { s with env := es }) ∧
    (s.env = .hostRead r :: es → step s = .next { s with env := es, hostRd := readReg s r }) ∧
    (s.env = .rst :: es → ∃ t, step s = .next t ∧ t.status.busy = false ∧ t.seq.todo = [] ∧ t.env = es)

/-- R21, R22, R23, R26: while `BUSY = 0` a write of an operand register reads back as written, a write of `CTRL` keeps bit 0
only, a write of any other register but `CMD` changes nothing; no other register changes, reserved numbers read 0. -/
def Obligations.HostWriteThenRead : Prop :=
  ∀ (s : State) (r v : Byte) (es : List Event), s.env = .hostWrite r v :: es → s.status.busy = false → r ≠ 0x00 →
    ∃ t, step s = .next t ∧ t.env = es ∧
      readReg t r =
        (if plainRegister r then v else if r = 0x02 then v &&& 0x01 else readReg s r) ∧
      (∀ q, q ≠ r → readReg t q = readReg s q) ∧
      (plainRegister r = false → r ≠ 0x02 → t = { s with env := es }) ∧
      t = { s with env := es, args := t.args, pullupEn := t.pullupEn } ∧
      ∀ q : Byte, q = 0x0F ∨ q = 0x21 ∨ 0x30 ≤ q → readReg t q = 0x00

/-- R23, R25, R26, R34: what every register number reads, the reserved ones 0 at any time, multi-byte registers least
significant byte first; a read changes nothing but the port's read value. -/
def Obligations.RegisterMapReads : Prop :=
  ∀ s : State,
    (readReg s 0x00 = s.cmd ∧ readReg s 0x03 = s.count ∧ readReg s 0x04 = s.args.th ∧ readReg s 0x05 = s.args.tl ∧
      readReg s 0x06 = s.args.cfg ∧ readReg s 0x07 = s.args.res ∧ readReg s 0x08 = s.args.flags ∧
      readReg s 0x09 = s.args.idx ∧ readReg s 0x0A = s.args.byte ∧ readReg s 0x0B = s.out.crcAcc ∧
      readReg s 0x0C = s.out.res ∧ readReg s 0x0D = s.out.thOut ∧ readReg s 0x0E = s.out.tlOut) ∧
    ((readReg s 0x01).toNat = s.status.busy.toNat + 2 * s.status.ok.toNat + 4 * s.status.bool.toNat +
        8 * s.status.ill.toNat + 16 * s.status.pullup.toNat ∧
      (readReg s 0x02).toNat = s.pullupEn.toNat ∧ busyOut s = s.status.busy ∧ pullupOut s = s.status.pullup) ∧
    (∀ i : Fin 8, readReg s (BitVec.ofNat 8 (0x10 + i)) = s.args.addr[i]) ∧
    (∀ i : Fin 9, readReg s (BitVec.ofNat 8 (0x18 + i)) = s.out.sp[i]) ∧
    readReg s 0x23 ++ readReg s 0x22 = s.out.raw ∧
    readReg s 0x27 ++ readReg s 0x26 ++ readReg s 0x25 ++ readReg s 0x24 = s.out.tempF32 ∧
    readReg s 0x2F ++ readReg s 0x2E ++ readReg s 0x2D ++ readReg s 0x2C ++ readReg s 0x2B ++ readReg s 0x2A ++
      readReg s 0x29 ++ readReg s 0x28 = s.out.a64 ∧
    (∀ q : Byte, q = 0x0F ∨ q = 0x21 ∨ 0x30 ≤ q → readReg s q = 0x00) ∧
    ∀ (r : Byte) (es : List Event), s.env = .hostRead r :: es →
      step s = .next { s with env := es, hostRd := readReg s r }

/-! ## Reset (10_state.md R48, 70_reset_and_hazards.md) -/

/-- R48, R240: the reset state has the values R48 lists, and `rst` gives them whatever is in progress; what the transport, the
ticks and the host will do (state outside the block) and the parameters are not affected. -/
def Obligations.ResetGivesTheListedValues : Prop :=
  HasResetValues State.reset ∧
  ∀ (s : State) (es : List Event), s.env = .rst :: es →
    ∃ t, step s = .next t ∧ HasResetValues t ∧ t.env = es ∧ t.params = s.params

/-- The invariant holds of the reset state, whatever `MAXDEV` is. -/
def Obligations.ResetMeetsInvariant : Prop :=
  Inv State.reset ∧ TraceMatchesPin State.reset

/-! ## What every step keeps -/

/-- R31, R38, R41, R43, R213, R228, R252: the invariant says how the registers, the counter, the pin and the port fit
together and that SEQ stands in the procedure of `SEQ.OP`. From every state of the invariant, whatever the ports deliver, a
step answers a next state of the invariant; it never faults. -/
def Obligations.StepKeepsInvariant : Prop :=
  ∀ s : State, Inv s → ∃ t, step s = .next t ∧ Inv t

/-- R154, R252: in the trace of an operation the pull-up events are bracketed around exactly one wait of R225, and the pin is 1
exactly between them. -/
def Obligations.StepKeepsPullupBracketed : Prop :=
  ∀ s t : State, Inv s → TraceMatchesPin s → step s = .next t → TraceMatchesPin t

/-- R252: while the pin is 1 an operation is in progress inside a wait of R225, no primitive is requested, the latched
`PULLUP_EN` is 1 and the power sample of the operation was 0; the trace ends with `PULLUP(1)`. -/
def Obligations.PinIsHighOnlyInsideAWait : Prop :=
  ∀ s : State, Inv s → TraceMatchesPin s → pullupOut s = true →
    busyOut s = true ∧ s.bus.req = false ∧ s.ctc.run = true ∧ s.latch.pullupEn = true ∧ s.tmp.ext = false ∧
      (∃ n t, s.seq.todo = .waiting n :: t ∧ (n = 94 ∨ n = 188 ∨ n = 375 ∨ n = 750 ∨ n = 10)) ∧
      ∃ tr, s.trace = tr ++ [.pullup true] ∧ windowOf .closed tr = some .closed

/-- R6: no step changes the parameters. -/
def Obligations.StepKeepsParameters : Prop :=
  ∀ s t : State, step s = .next t → t.params = s.params

/-- R22, R27, R37, R38, R39, R132, R196: the column "written by" of the result registers, whatever the transport answers: for
the exec of every host operation, ended or not, and for every later step of the same operation, the one that ends it and the
wire commands among them, in every state whose remaining moves are a rest of the procedure of `SEQ.OP` (R31, part of the
invariant). -/
def Obligations.ResultsWrittenOnlyByTheirOperations : Prop :=
  (∀ (i : Instr) (s t : State), i.format = .host8 → exec i s = .next t → WrittenByTable i s t) ∧
  ∀ (i : Instr) (s t : State), Inv s → s.status.busy = true → (∀ e, s.env.head? = some e → e.ofHost = false) →
    decodeHost s.seq.op = .instr i → step s = .next t → WrittenByTable i s t

/-- R154, R184, R129, R263: no other operation than a conversion and an EEPROM copy drives the pin or waits, whatever the
transport answers: neither its exec nor any later step of it. -/
def Obligations.OnlyConversionsAndCopiesDriveThePin : Prop :=
  ∀ (i : Instr) (s t : State), i ≠ .readTemp → i ≠ .readRaw → i ≠ .copySp → (i = .setRes → s.latch.persist = false) →
    (i.format = .host8 → s.ctc.run = false → exec i s = .next t → PinAndCounterAlone s t) ∧
    (Inv s → s.status.busy = true → (∀ e, s.env.head? = some e → e.ofHost = false) →
      decodeHost s.seq.op = .instr i → step s = .next t → PinAndCounterAlone s t)

/-- R47: the trace and the failure kind are read by nothing: a step of the state without them is the step without them. -/
def Obligations.GhostStateIsNeverRead : Prop :=
  ∀ s : State, outcomeMap forgetGhost (step s) = outcomeMap forgetGhost (step (forgetGhost s))

/-- R36, R216: no operation reads a flag an earlier one left: with the flags forgotten, an instruction does the same, and its
success value is the same when it ends. -/
def Obligations.FlagsAreNeverRead : Prop :=
  ∀ (i : Instr) (s : State), outcomeMap forgetFlags (exec i s) = outcomeMap forgetFlags (exec i (forgetFlags s)) ∧
    ∀ t t', s.status.busy = true → exec i s = .next t → exec i (forgetFlags s) = .next t' → t.status.busy = false →
      t.status.ok = t'.status.ok

/-! ## The transport port and the counter -/

/-- R40, R95, R96: the code and the outputs of every primitive SEQ can request; outputs a primitive does not use keep their
values (the model's choice, log entry 10). -/
def Obligations.PrimitiveRequests : Prop :=
  ∀ (s : State) (m : Micro) (t : List Micro), s.seq.todo = m :: t →
    (m = .reset → request s = { s with bus := { s.bus with req := true, op := 0 } }) ∧
    (m = .select → request s = { s with bus := { s.bus with req := true, op := 1, waddr := pack64 s.latch.addr } }) ∧
    (∀ b, m = .cmd b → request s = { s with bus := { s.bus with req := true, op := 2, wbyte := b, flag := false } }) ∧
    (m = .write .th → request s = { s with bus := { s.bus with req := true, op := 2, wbyte := s.tmp.th, flag := false } }) ∧
    (m = .write .tl → request s = { s with bus := { s.bus with req := true, op := 2, wbyte := s.tmp.tl, flag := false } }) ∧
    (m = .write .cfg →
      request s = { s with bus := { s.bus with req := true, op := 2, wbyte := s.tmp.cfg, flag := false } }) ∧
    (∀ i, m = .read i → request s = { s with bus := { s.bus with req := true, op := 3 } }) ∧
    (m = .readBit → request s = { s with bus := { s.bus with req := true, op := 4 } }) ∧
    (m = .discover → request s = { s with bus := { s.bus with req := true, op := 5, flag := false } }) ∧
    (m = .alarmSearch → request s = { s with bus := { s.bus with req := true, op := 5, flag := true } }) ∧
    (m = .searchReset → request s = { s with bus := { s.bus with req := true, op := 6 } }) ∧
    (m.isBus = false → request s = s)

/-- R41, R227, R258: with no acknowledge and no tick SEQ waits without limit: it requests the primitive it stands at, holds
every output, and stays as it is with `BUSY = 1`; inside a wait the pin stays as it is too. -/
def Obligations.WaitsWithoutLimit : Prop :=
  ∀ s : State, Inv s → s.status.busy = true → atPrimitive s = true ∨ inWait s = true → s.env = [] →
    step s = .next (request s) ∧ step (request s) = .next (request s) ∧ (request s).status = s.status ∧
      (request s).bus.req = atPrimitive s

/-- R43, R226: inside a wait each tick counts one down; the wait ends with exactly as many ticks as were left: then `CTC.RUN` is
0 and the pin is released. -/
def Obligations.TicksCountDown : Prop :=
  ∀ (s : State) (n k : Nat) (p : List Micro), s.status.busy = true → s.seq.todo = .waiting n :: p → s.ctc.run = true →
    0 < s.ctc.cnt.toNat →
    (s.env = ticks k → k < s.ctc.cnt.toNat →
      step s = .next { s with env := [], ctc := { cnt := s.ctc.cnt - BitVec.ofNat 10 k, run := true } }) ∧
    (s.env = ticks s.ctc.cnt.toNat → s.status.pullup = assistDrives s →
      ∃ u, step s = .next { request (advance .running p u) with env := [] } ∧ u.ctc = { cnt := 0, run := false } ∧
        u.status = { s.status with pullup := false } ∧ u.out = s.out ∧ u.args = s.args ∧ u.reg = s.reg ∧
        u.count = s.count ∧ u.latch = s.latch ∧ u.tmp = s.tmp ∧
        u.trace = s.trace ++ (if assistDrives s then [.wait n, .pullup false] else [.wait n]))

/-- R43, R219, R228: an acknowledge inside a wait, a tick at a primitive and an empty turn have no effect: SEQ does what it
does without them; with an access of the host or a reset directly behind, SEQ requests its primitive and pauses. -/
def Obligations.IneffectiveEventsAreSkipped : Prop :=
  ∀ (s : State) (e : Event) (es : List Event), Inv s → s.status.busy = true →
    (e = .turn ∧ (atPrimitive s = true ∨ inWait s = true) ∨ e = .tick ∧ atPrimitive s = true ∨
      (∃ a, e = .ack a) ∧ inWait s = true) →
    s.env = e :: es →
    ((∀ e', es.head? = some e' → e'.ofHost = false) → step s = step { s with env := es }) ∧
    ((∃ e', es.head? = some e' ∧ e'.ofHost = true) → step s = .next { request s with env := es })

/-- R12, R34, R251, V-HI-5: accesses of the host do not disturb an operation. If the run of the steps without them comes to
rest in `t` (the operation ended, or SEQ waits), so does the run with them, in a state that differs from `t` in nothing but
the host port's read value and the accesses still to come; in particular every exec of a host operation that ends it, so
every statement about a run below, holds of the run cut by accesses too. -/
def Obligations.HostAccessesDoNotDisturb : Prop :=
  ∀ (s t : State), Inv s → s.status.busy = true → .rst ∉ s.env →
    (∀ n : Nat, runSteps n { s with env := withoutAccesses s.env } = .next t → AtRest t →
      ∃ m u, runSteps m s = .next u ∧ AtRest u ∧
        t = { u with hostRd := s.hostRd, env := withoutAccesses u.env }) ∧
    (∀ i : Instr, s.seq.todo = [.dispatch] → decodeHost s.seq.op = .instr i →
      exec i { s with env := withoutAccesses s.env } = .next t → t.status.busy = false →
      ∃ m u, runSteps m s = .next u ∧ u.status.busy = false ∧
        t = { u with hostRd := s.hostRd, env := withoutAccesses u.env })

/-! ## The CRC validator and helper (40_crc.md) -/

/-- R113, all five items, of the function R111 gives (log entry 6): single-bit errors are detected in sequences of any
length, appending the checksum gives zero, zeros give zero, all-ones data fails, and the checksum is linear. -/
def Obligations.CrcProperties : Prop :=
  (∀ (bs : List Byte) (k : Nat) (hk : k < bs.length) (j : Nat), j < 8 →
    crc8 .dallasMaxim (bs.set k (bs[k] ^^^ ((1#8) <<< j))) ≠ crc8 .dallasMaxim bs) ∧
  (∀ bs : List Byte, crc8 .dallasMaxim (bs ++ [crc8 .dallasMaxim bs]) = 0x00) ∧
  (∀ sp : Scratchpad, spValid .dallasMaxim sp = true ↔ crc8 .dallasMaxim sp.toList = 0x00) ∧
  (∀ n : Nat, crc8 .dallasMaxim (List.replicate n 0x00) = 0x00) ∧ spValid .dallasMaxim Scratchpad.zero = true ∧
  romValid .dallasMaxim RomAddr.zero = true ∧
  crc8 .dallasMaxim (List.replicate 8 0xFF) = 0xC9 ∧ crc8 .dallasMaxim (List.replicate 7 0xFF) = 0x14 ∧
  spValid .dallasMaxim (Vector.replicate 9 0xFF) = false ∧ romValid .dallasMaxim (Vector.replicate 8 0xFF) = false ∧
  ∀ as bs : List Byte, as.length = bs.length →
    crc8 .dallasMaxim (List.zipWith (· ^^^ ·) as bs) = crc8 .dallasMaxim as ^^^ crc8 .dallasMaxim bs

/-- R111, R112, R114: the update as R112 gives it; for every `CRC8` a machine can be built with (log entry 6) the checksum as a
fold of its update, and the two predicates. -/
def Obligations.CrcDefinition : Prop :=
  (∀ x : Byte, crcShift x = if x.getLsbD 0 then (x >>> 1) ^^^ 0x8C else x >>> 1) ∧
  (∀ acc b : Byte, crcUpd .dallasMaxim acc b =
    crcShift (crcShift (crcShift (crcShift (crcShift (crcShift (crcShift (crcShift (acc ^^^ b))))))))) ∧
  (∀ (f : CrcFunction) (bs : List Byte), crc8 f bs = bs.foldl (crcUpd f) 0x00) ∧
  (∀ (f : CrcFunction) (a : RomAddr), romValid f a = true ↔ crc8 f (a.toList.take 7) = a[7]) ∧
  ∀ (f : CrcFunction) (sp : Scratchpad), spValid f sp = true ↔ crc8 f (sp.toList.take 8) = sp[8]

/-- R115: CRC_CLR clears the accumulator and succeeds; the operation started by its opcode is `BUSY` for that one step, with an
empty trace. -/
def Obligations.CrcClrClears : Prop :=
  (∀ s : State, exec .crcClr s = .next
    { s with
      out := { s.out with crcAcc := 0x00 }
      status := { s.status with ok := true, busy := false }
      seq := { op := s.seq.op, step := 0, todo := [] }
      failKind := none }) ∧
  ∀ (s : State) (es : List Event), s.env = .hostWrite 0x00 0x01 :: .turn :: es → s.status.busy = false →
    ∃ u t, step s = .next u ∧ u.status.busy = true ∧ step u = .next t ∧ t.status.busy = false ∧ t.status.ok = true ∧
      t.out.crcAcc = 0x00 ∧ t.trace = []

/-- R116: CRC_PUSH updates the accumulator with the latched operand and succeeds; pushing the accumulator itself gives 0, and 0
onto 0 leaves 0. -/
def Obligations.CrcPushUpdates : Prop :=
  decodeHost 0x02 = .instr .crcPush ∧
  (∀ s : State, exec .crcPush s = .next
    { s with
      out := { s.out with crcAcc := crcUpd s.params.crc s.out.crcAcc s.latch.byte }
      status := { s.status with ok := true, busy := false }
      seq := { op := s.seq.op, step := 0, todo := [] }
      failKind := none }) ∧
  (∀ acc : Byte, crcUpd .dallasMaxim acc acc = 0x00) ∧ crcUpd .dallasMaxim 0x00 0x00 = 0x00 ∧ crcUpd .dallasMaxim 0x00 0x01 = 0x5E

/-- R117: one CRC_CLR and one CRC_PUSH per byte, in order, leave `CRC8` of the bytes in `CRC_ACC`, for any number of bytes. -/
def Obligations.CrcHelperComputesCrc8 : Prop :=
  ∀ (bs : List Byte) (s : State), ∃ u t, exec .crcClr s = .next u ∧ pushAll bs u = .next t ∧
    t.out.crcAcc = crc8 s.params.crc bs ∧
    t.out = { s.out with crcAcc := crc8 s.params.crc bs } ∧ t.trace = s.trace ∧ t.reg = s.reg ∧ t.args = s.args

/-! ## The scratchpad accessor (41_scratchpad.md) -/

/-- R121, R122: READ_SP in every run of the transport: it reads all nine bytes, tests their CRC once and succeeds exactly
when it holds; without presence it fails and `SP` is unchanged. All-zero data passes, all-ones data fails. -/
def Obligations.ReadSpRuns : Prop :=
  decodeHost 0x10 = .instr .readSp ∧
  (∀ (s : State) (r : ReadRun) (es : List Event), r.legal = true → s.env = r.events ++ es →
    ∃ t, exec .readSp s = .next t ∧ t.env = es ∧ EndedWith (r.kind s.params) s t ∧ KeepsRegisters s t ∧
      t.out = { s.out with sp := r.spAfter s.out.sp } ∧ t.trace = s.trace ++ r.trace s.latch.addr ∧
      t.bus.req = false ∧ t.ctc = s.ctc) ∧
  crcKind .dallasMaxim Scratchpad.zero = none ∧ crcKind .dallasMaxim (Vector.replicate 9 0xFF) = some .crc ∧
  crcKind .dallasMaxim #v[0x91, 0x01, 0x4B, 0x46, 0x7F, 0xFF, 0x0F, 0x10, 0x25] = none ∧
  crcKind .dallasMaxim #v[0x90, 0x01, 0x4B, 0x46, 0x7F, 0xFF, 0x0F, 0x10, 0x25] = some .crc

/-- R123, R124, R125: WRITE_SP sends the latched thresholds and configuration byte as given, reads back, and succeeds exactly
when the read-back is valid and echoes the three bytes. -/
def Obligations.WriteSpRuns : Prop :=
  decodeHost 0x11 = .instr .writeSp ∧
  verifyKind .dallasMaxim #v[0x91, 0x01, 0x4B, 0x46, 0x3F, 0xFF, 0x0F, 0x10, 0xC5] 0x4B 0x46 0x3F = none ∧
  ∀ (s : State) (r : WriteRun) (es : List Event), r.legal = true → s.env = r.events ++ es →
    ∃ t, exec .writeSp s = .next t ∧ t.env = es ∧ EndedWith (r.kind s.params s.latch.th s.latch.tl s.latch.cfg) s t ∧
      KeepsRegisters s t ∧ t.out = { s.out with sp := r.spAfter s.out.sp } ∧
      t.trace = s.trace ++ r.trace s.latch.addr s.latch.th s.latch.tl s.latch.cfg ∧ t.bus.req = false ∧ t.ctc = s.ctc

/-- R126, R127, R128: COPY_SP asks for the power mode, copies, waits 10 ticks with the pin driven when the device is
parasite-powered and `PULLUP_EN` was latched; it succeeds exactly when both transactions found presence. -/
def Obligations.CopySpRuns : Prop :=
  decodeHost 0x12 = .instr .copySp ∧
  ∀ (s : State) (r : CopyRun) (es : List Event), r.legal = true → s.env = r.events ++ es → s.status.pullup = false →
    ∃ t, exec .copySp s = .next t ∧ t.env = es ∧ EndedWith r.kind s t ∧ KeepsRegisters s t ∧ t.out = s.out ∧
      t.trace = s.trace ++ r.trace s.latch.addr s.latch.pullupEn ∧ t.bus.req = false ∧
      t.ctc = if r.waited then { cnt := 0, run := false } else s.ctc

/-- R129, R130: RECALL_E2 recalls and confirms with a scratchpad read, with no wait between. -/
def Obligations.RecallE2Runs : Prop :=
  decodeHost 0x13 = .instr .recallE2 ∧
  ∀ (s : State) (r : RecallRun) (es : List Event), r.legal = true → s.env = r.events ++ es →
    ∃ t, exec .recallE2 s = .next t ∧ t.env = es ∧ EndedWith (r.kind s.params) s t ∧ KeepsRegisters s t ∧
      t.out = { s.out with sp := r.spAfter s.out.sp } ∧ t.trace = s.trace ++ r.trace s.latch.addr ∧
      t.bus.req = false ∧ t.ctc = s.ctc

/-! ## The conversion controller (42_conversion.md) -/

/-- R140 to R146, R151: READ_TEMP in every run of the transport and for both values of `RT_ABORT_ON_RES_FAIL`: command,
resolution read, power query, assisted wait of `TConv` of the resolution found, final read; `RAW` and `TEMP_F32` are the
final read's, or 0 and the NaN. -/
def Obligations.ReadTempRuns : Prop :=
  decodeHost 0x20 = .instr .readTemp ∧ f32 0x0191 = 0x41C88000 ∧
  ∀ (s : State) (c : ConvertRun) (es : List Event), c.legal s.params = true → s.env = c.events s.params ++ es →
    s.status.pullup = false →
    ∃ t, exec .readTemp s = .next t ∧ t.env = es ∧ EndedWith (c.kind s.params) s t ∧ KeepsRegisters s t ∧
      t.out =
        { s.out with
          sp := c.spAfter s.out.sp
          raw := if c.kind s.params = none then rawOf (c.spAfter s.out.sp) else 0x0000
          tempF32 := if c.kind s.params = none then f32 (rawOf (c.spAfter s.out.sp)) else 0x7FC00000 } ∧
      t.trace = s.trace ++ c.trace s.params s.latch.addr s.latch.pullupEn ∧ t.bus.req = false ∧
      t.ctc = if c.waited then { cnt := 0, run := false } else s.ctc

/-- R147: READ_RAW does the same and does not write `TEMP_F32`. -/
def Obligations.ReadRawRuns : Prop :=
  decodeHost 0x21 = .instr .readRaw ∧ rawOf #v[0x5E, 0xFF, 0, 0, 0, 0, 0, 0, 0] = 0xFF5E ∧
  ∀ (s : State) (c : ConvertRun) (es : List Event), c.legal s.params = true → s.env = c.events s.params ++ es →
    s.status.pullup = false →
    ∃ t, exec .readRaw s = .next t ∧ t.env = es ∧ EndedWith (c.kind s.params) s t ∧ KeepsRegisters s t ∧
      t.out =
        { s.out with
          sp := c.spAfter s.out.sp
          raw := if c.kind s.params = none then rawOf (c.spAfter s.out.sp) else 0x0000 } ∧
      t.trace = s.trace ++ c.trace s.params s.latch.addr s.latch.pullupEn ∧ t.bus.req = false ∧
      t.ctc = if c.waited then { cnt := 0, run := false } else s.ctc

/-- R100, R148, R149, R150: the pattern of `F32(raw)` is a normal binary32 number (but for 0) with the sign of `raw`, and its
value `(2^23 + fraction) * 2^(exponent - 150)` is exactly `|raw| / 16`: no rounding. -/
def Obligations.FloatIsExactlyRawOverSixteen : Prop :=
  (∀ sp : Scratchpad, (rawOf sp).toNat = sp[0].toNat + 256 * sp[1].toNat) ∧ f32 0 = 0x00000000 ∧
  ∀ raw : BitVec 16, raw ≠ 0 →
    (f32 raw).msb = raw.msb ∧ 123 ≤ ((f32 raw).toNat / 2 ^ 23) % 256 ∧ ((f32 raw).toNat / 2 ^ 23) % 256 ≤ 138 ∧
      (2 ^ 23 + (f32 raw).toNat % 2 ^ 23) * 2 ^ (((f32 raw).toNat / 2 ^ 23) % 256 + 4) = raw.toInt.natAbs * 2 ^ 150

/-- R102, R103, R104, R106, R142, R163: the four configuration bytes and their decoding from bits 6:5 alone, in the layout R102
gives; decoding and the round trip in every layout (the model's parameters, log entry 7); the legal resolutions and the
delays. -/
def Obligations.ResolutionTables : Prop :=
  (cfgEncode .standard 9 = 0x1F ∧ cfgEncode .standard 10 = 0x3F ∧ cfgEncode .standard 11 = 0x5F ∧
    cfgEncode .standard 12 = 0x7F) ∧
  (∀ r : Byte, resValid r = true ↔ r = 9 ∨ r = 10 ∨ r = 11 ∨ r = 12) ∧
  (∀ c : Byte, (resDecode .standard c).toNat = 9 + (c.toNat / 32) % 4) ∧
  (∀ (l : CfgLayout) (c : Byte), (resDecode l c).toNat = 9 + (c.toNat / 2 ^ l.resLsb.val) % 4 ∧
    resValid (resDecode l c) = true) ∧
  (∀ (l : CfgLayout) (r : Byte), l.fixed &&& (3 <<< l.resLsb.val) = 0 → resValid r = true →
    resDecode l (cfgEncode l r) = r) ∧
  (tConv 9 = 94 ∧ tConv 10 = 188 ∧ tConv 11 = 375 ∧ ∀ r : Byte, r ≠ 9 → r ≠ 10 → r ≠ 11 → tConv r = 750)

/-! ## The configuration manager (43_config.md) -/

/-- R162: SET_RES of a legal resolution, in every run that does not come to the copy: it reads the thresholds, writes them back
with the configuration byte built anew, verifies; without `PERSIST` that is all, and a failure ends it. -/
def Obligations.SetResRuns : Prop :=
  decodeHost 0x30 = .instr .setRes ∧
  ∀ (s : State) (u : UpdateRun) (es : List Event), u.legal s.params = true → resValid s.latch.res = true →
    (s.latch.persist = false ∨ (u.kind s.params (setResBytes s.params s.latch)).isSome = true) → s.env = u.events ++ es →
    ∃ t, exec .setRes s = .next t ∧ t.env = es ∧ EndedWith (u.kind s.params (setResBytes s.params s.latch)) s t ∧
      KeepsRegisters s t ∧
      t.out = { s.out with sp := u.spAfter s.out.sp } ∧
      t.trace = s.trace ++ u.trace s.latch.addr (setResBytes s.params s.latch) ∧ t.bus.req = false ∧ t.ctc = s.ctc

/-- R162: SET_RES with `PERSIST`, once the write is verified, copies to EEPROM and ends as the copy does. -/
def Obligations.SetResPersistRuns : Prop :=
  ∀ (s : State) (u : UpdateRun) (c : CopyRun) (es : List Event), u.legal s.params = true → c.legal = true →
    resValid s.latch.res = true → s.latch.persist = true → u.kind s.params (setResBytes s.params s.latch) = none →
    s.env = u.events ++ (c.events ++ es) → s.status.pullup = false →
    ∃ t, exec .setRes s = .next t ∧ t.env = es ∧ EndedWith c.kind s t ∧ KeepsRegisters s t ∧
      t.out = { s.out with sp := u.spAfter s.out.sp } ∧
      t.trace = s.trace ++ u.trace s.latch.addr (setResBytes s.params s.latch) ++ c.trace s.latch.addr s.latch.pullupEn ∧
      t.bus.req = false ∧ t.ctc = if c.waited then { cnt := 0, run := false } else s.ctc

/-- R106, R162, R218: SET_RES of any other resolution fails at once with kind BadArg: nothing is requested, no register but the
flags changes, whatever the ports are about to deliver. -/
def Obligations.SetResRejectsBadArgument : Prop :=
  ∀ s : State, resValid s.latch.res = false →
    ∃ t, exec .setRes s = .next t ∧ t.env = s.env ∧ EndedWith (some .badArg) s t ∧ KeepsRegisters s t ∧ t.out = s.out ∧
      t.trace = s.trace ∧ t.bus = s.bus ∧ t.ctc = s.ctc

/-- R160, R161, R167: GET_RES writes the decoded resolution, or 0 with `OK = 0`. -/
def Obligations.GetResRuns : Prop :=
  decodeHost 0x31 = .instr .getRes ∧ resDecode .standard 0x3F = 10 ∧ resDecode .standard 0x00 = 9 ∧
  ∀ (s : State) (r : ReadRun) (es : List Event), r.legal = true → s.env = r.events ++ es →
    ∃ t, exec .getRes s = .next t ∧ t.env = es ∧ EndedWith (r.kind s.params) s t ∧ KeepsRegisters s t ∧
      t.out =
        { s.out with
          sp := r.spAfter s.out.sp
          res := if r.kind s.params = none then resDecode s.params.cfg (r.spAfter s.out.sp)[4] else 0x00 } ∧
      t.trace = s.trace ++ r.trace s.latch.addr ∧ t.bus.req = false ∧ t.ctc = s.ctc ∧
      (t.status.ok = true ↔ t.out.res ≠ 0x00)

/-- R165: SET_ALARMS writes the latched thresholds and the configuration byte as read, and verifies. -/
def Obligations.SetAlarmsRuns : Prop :=
  decodeHost 0x32 = .instr .setAlarms ∧
  ∀ (s : State) (u : UpdateRun) (es : List Event), u.legal s.params = true → s.env = u.events ++ es →
    ∃ t, exec .setAlarms s = .next t ∧ t.env = es ∧ EndedWith (u.kind s.params (setAlarmsBytes s.latch)) s t ∧
      KeepsRegisters s t ∧ t.out = { s.out with sp := u.spAfter s.out.sp } ∧
      t.trace = s.trace ++ u.trace s.latch.addr (setAlarmsBytes s.latch) ∧ t.bus.req = false ∧ t.ctc = s.ctc

/-- R164: GET_ALARMS writes bytes 2 and 3 of the scratchpad, or two zeros with `OK = 0`. -/
def Obligations.GetAlarmsRuns : Prop :=
  decodeHost 0x33 = .instr .getAlarms ∧
  ∀ (s : State) (r : ReadRun) (es : List Event), r.legal = true → s.env = r.events ++ es →
    ∃ t, exec .getAlarms s = .next t ∧ t.env = es ∧ EndedWith (r.kind s.params) s t ∧ KeepsRegisters s t ∧
      t.out =
        { s.out with
          sp := r.spAfter s.out.sp
          thOut := if r.kind s.params = none then (r.spAfter s.out.sp)[2] else 0x00
          tlOut := if r.kind s.params = none then (r.spAfter s.out.sp)[3] else 0x00 } ∧
      t.trace = s.trace ++ r.trace s.latch.addr ∧ t.bus.req = false ∧ t.ctc = s.ctc

/-! ## The power-mode detector (44_power.md) -/

/-- R180, R181: IS_EXT: `BOOL` is 1 exactly when the device was present and its slot was sampled 1; `OK` is the presence. -/
def Obligations.IsExtRuns : Prop :=
  decodeHost 0x40 = .instr .isExt ∧
  ∀ (s : State) (r : PowerRun) (es : List Event), r.legal = true → s.env = r.events ++ es →
    ∃ t, exec .isExt s = .next t ∧ t.env = es ∧
      t.status = { s.status with busy := false, ok := r.kind.isNone, bool := r.sampled true } ∧
      t.seq = { op := s.seq.op, step := 0, todo := [] } ∧ t.failKind = r.kind ∧ KeepsRegisters s t ∧ t.out = s.out ∧
      t.trace = s.trace ++ r.trace s.latch.addr ∧ t.bus.req = false ∧ t.ctc = s.ctc

/-- R180, R182: IS_PARASITE: `BOOL` is 1 exactly when the device was present and its slot was sampled 0. -/
def Obligations.IsParasiteRuns : Prop :=
  decodeHost 0x41 = .instr .isParasite ∧
  ∀ (s : State) (r : PowerRun) (es : List Event), r.legal = true → s.env = r.events ++ es →
    ∃ t, exec .isParasite s = .next t ∧ t.env = es ∧
      t.status = { s.status with busy := false, ok := r.kind.isNone, bool := r.sampled false } ∧
      t.seq = { op := s.seq.op, step := 0, todo := [] } ∧ t.failKind = r.kind ∧ KeepsRegisters s t ∧ t.out = s.out ∧
      t.trace = s.trace ++ r.trace s.latch.addr ∧ t.bus.req = false ∧ t.ctc = s.ctc

/-! ## The registry (45_registry.md) -/

/-- R191, R193: DISCOVER when the search reports no more devices before the registry is full. -/
def Obligations.DiscoverEnumerates : Prop :=
  decodeHost 0x50 = .instr .discover ∧
  ∀ (s : State) (z stop : Answer) (found : List Answer) (es : List Event), (∀ a ∈ found, a.rflag = true) →
    stop.rflag = false → (validOnes s.params found).length < s.params.maxDev → Memory.wf s.reg = true →
    s.env = .ack z :: (acks found ++ .ack stop :: es) →
    ∃ t, exec .discover s = .next t ∧ t.env = es ∧ Discovered found s t ∧
      t.trace = s.trace ++ (.searchReset :: (searchTrace found ++ [.search false none]))

/-- R192: DISCOVER when the registry becomes full: no search is made after the last accepted address, and it succeeds. -/
def Obligations.DiscoverStopsAtCapacity : Prop :=
  ∀ (s : State) (z last : Answer) (found : List Answer) (es : List Event), (∀ a ∈ found, a.rflag = true) →
    last.rflag = true → romValid s.params.crc (candidateOf last) = true → (validOnes s.params found).length + 1 = s.params.maxDev →
    Memory.wf s.reg = true → s.env = .ack z :: (acks (found ++ [last]) ++ es) →
    ∃ t, exec .discover s = .next t ∧ t.env = es ∧ Discovered (found ++ [last]) s t ∧ t.status.ok = true ∧
      t.trace = s.trace ++ (.searchReset :: searchTrace (found ++ [last]))

/-- R194: while the search keeps reporting candidates and the registry has room, DISCOVER does not end: it requests the next
search, `BUSY` and the other flags as they were. -/
def Obligations.DiscoverMayNotEnd : Prop :=
  ∀ (s : State) (z : Answer) (found : List Answer), (∀ a ∈ found, a.rflag = true) →
    (validOnes s.params found).length < s.params.maxDev → s.env = .ack z :: acks found →
    ∃ t, exec .discover s = .next t ∧ t.status = s.status ∧ t.env = [] ∧
      t.count = BitVec.ofNat 8 (validOnes s.params found).length ∧ t.seq.todo = [.discover, .finish .count] ∧ t.bus.req = true ∧
      t.bus.op = 5 ∧ t.bus.flag = false ∧ t.trace = s.trace ++ (.searchReset :: searchTrace found)

/-- R195: GET_ADDR copies the entry when the latched index is below `COUNT`, else it fails with kind Range and `ADDR` is
unchanged; nothing is requested. That the failure writes the scratch value `t_ok` is the model's choice (log entry 23).
`COUNT <= MAXDEV` is part of the invariant (R38). -/
def Obligations.GetAddrRuns : Prop :=
  decodeHost 0x51 = .instr .getAddr ∧
  ∀ s : State, s.count.toNat ≤ s.params.maxDev →
    exec .getAddr s = .next
      (if s.latch.idx.toNat < s.count.toNat then
        { s with
          args := { s.args with addr := readEntry s.reg s.latch.idx.toNat }
          status := { s.status with ok := true, busy := false }
          seq := { op := s.seq.op, step := 0, todo := [] }
          failKind := none }
      else
        { s with
          tmp := { s.tmp with ok := false }
          status := { s.status with ok := false, busy := false }
          seq := { op := s.seq.op, step := 0, todo := [] }
          failKind := some .range })

/-- R197: ALARM_SEARCH makes one search with alarmOnly = 1: a valid address found goes to `ADDR`; none found or an invalid one
fails with kind NoDevice or Crc and leaves `ADDR`. Until the transport answers, it is asked for a SEARCH with `bt_flag` = 1;
nothing is said of `bt_op` and `bt_flag` once `bt_req` has fallen. -/
def Obligations.AlarmSearchRuns : Prop :=
  decodeHost 0x52 = .instr .alarmSearch ∧ romValid .dallasMaxim #v[0x28, 0xAA, 0xBB, 0xCC, 0xDD, 0xEE, 0x00, 0x39] = true ∧
  (∀ s : State, s.env = [] →
    ∃ t, exec .alarmSearch s = .next t ∧ t.bus.req = true ∧ t.bus.op = 5 ∧ t.bus.flag = true ∧ t.status = s.status ∧
      t.args = s.args ∧ t.trace = s.trace) ∧
  ∀ (s : State) (a : Answer) (es : List Event), s.env = .ack a :: es →
    ∃ t, exec .alarmSearch s = .next t ∧ t.env = es ∧
      EndedWith
        (if a.rflag then (if romValid s.params.crc (candidateOf a) then none else some .crc) else some .noDevice) s t ∧
      t.args.addr = (if a.rflag && romValid s.params.crc (candidateOf a) then candidateOf a else s.args.addr) ∧
      t.args = { s.args with addr := t.args.addr } ∧
      t.trace = s.trace ++ [.search true (if a.rflag then some (candidateOf a) else none)] ∧ t.out = s.out ∧
      t.count = s.count ∧ t.reg = s.reg ∧ (∀ k, Memory.read t.reg k = Memory.read s.reg k) ∧ t.cmd = s.cmd ∧
      t.pullupEn = s.pullupEn ∧ t.latch = s.latch ∧ t.hostRd = s.hostRd ∧ t.params = s.params ∧ t.ctc = s.ctc ∧
      t.bus.req = false

/-- R105, R198: PACK64 packs the latched address with byte `i` at bits 8i+7:8i and succeeds; nothing is requested. -/
def Obligations.Pack64Packs : Prop :=
  decodeHost 0x53 = .instr .pack64 ∧
    pack64 #v[0x28, 0xFF, 0x64, 0x1E, 0x0F, 0x00, 0x00, 0x34] = 0x3400000F1E64FF28 ∧
  ∀ s : State,
    exec .pack64 s = .next
      { s with
        out := { s.out with a64 := pack64 s.latch.addr }
        status := { s.status with ok := true, busy := false }
        seq := { op := s.seq.op, step := 0, todo := [] }
        failKind := none } ∧
    (∀ a : RomAddr, (pack64 a).toNat = a[0].toNat + a[1].toNat * 2 ^ 8 + a[2].toNat * 2 ^ 16 + a[3].toNat * 2 ^ 24 +
      a[4].toNat * 2 ^ 32 + a[5].toNat * 2 ^ 40 + a[6].toNat * 2 ^ 48 + a[7].toNat * 2 ^ 56 ∧ unpack64 (pack64 a) = a) ∧
    ∀ t, exec .pack64 s = .next t → ∀ i : Fin 8, readReg t (BitVec.ofNat 8 (0x28 + i)) = s.latch.addr[i]

/-! ## The wire commands (30_encoding.md R90 to R93, as instructions: log entry 17) -/

/-- R93, R121: READ_SCRATCHPAD writes 0xBE and reads nine bytes into `SP`, in order, then goes on with the procedure. -/
def Obligations.ReadScratchpadCommand : Prop :=
  ∀ (s : State) (p : List Micro) (c : Answer) (b : Vector Answer 9) (es : List Event), s.seq.todo = .cmd 0xBE :: p →
    s.env = acks (c :: b.toList) ++ es →
    ∃ u, exec .readScratchpad s = .next (advance .running p u) ∧ u.env = es ∧ KeepsForCommand s u ∧
      u.out = { s.out with sp := b.map Answer.rbyte } ∧
      u.trace = s.trace ++ (.write 0xBE :: b.toList.map (fun a => .read a.rbyte)) ∧ u.tmp = s.tmp ∧ u.ctc = s.ctc ∧
      u.seq = { op := s.seq.op, step := s.seq.step + 10, todo := [] } ∧ u.bus.req = false

/-- R93, R101, R123: WRITE_SCRATCHPAD writes 0x4E and the three bytes, in order, then goes on with the procedure. -/
def Obligations.WriteScratchpadCommand : Prop :=
  ∀ (s : State) (p : List Micro) (c b0 b1 b2 : Answer) (es : List Event), s.seq.todo = .cmd 0x4E :: p →
    s.env = acks [c, b0, b1, b2] ++ es →
    ∃ u, exec .writeScratchpad s = .next (advance .running p u) ∧ u.env = es ∧ KeepsForCommand s u ∧ u.out = s.out ∧
      u.trace = s.trace ++ [.write 0x4E, .write s.tmp.th, .write s.tmp.tl, .write s.tmp.cfg] ∧ u.tmp = s.tmp ∧
      u.ctc = s.ctc ∧ u.seq = { op := s.seq.op, step := s.seq.step + 4, todo := [] } ∧ u.bus.req = false

/-- R93, R127, R145: COPY_SCRATCHPAD writes 0x48 and waits 10 ticks, the pin driven in between when the device is
parasite-powered and `PULLUP_EN` was latched, then goes on with the procedure. -/
def Obligations.CopyScratchpadCommand : Prop :=
  ∀ (s : State) (p : List Micro) (c : Answer) (es : List Event), s.seq.todo = .cmd 0x48 :: p →
    s.env = .ack c :: (ticks 10 ++ es) → s.status.pullup = false →
    ∃ u, exec .copyScratchpad s = .next (advance .running p u) ∧ u.env = es ∧ KeepsForCommand s u ∧ u.out = s.out ∧
      u.trace = s.trace ++ (.write 0x48 :: assistTrace (!s.tmp.ext && s.latch.pullupEn) 10) ∧ u.tmp = s.tmp ∧
      u.ctc = { cnt := 0, run := false } ∧ u.bus.req = false ∧
      u.seq =
        { op := s.seq.op, step := s.seq.step + (if !s.tmp.ext && s.latch.pullupEn then 4 else 2), todo := [] }

/-- R93, R129, R144: CONVERT_T and RECALL_EEPROM write their byte and go on with the procedure: they have no data phase. -/
def Obligations.CommandsWithoutData : Prop :=
  ∀ (s : State) (p : List Micro) (c : Answer) (es : List Event), s.env = .ack c :: es →
    (s.seq.todo = .cmd 0x44 :: p → ∃ u, exec .convertT s = .next (advance .running p u) ∧ u.env = es ∧ KeepsForCommand s u ∧
      u.out = s.out ∧ u.trace = s.trace ++ [.write 0x44] ∧ u.tmp = s.tmp ∧ u.ctc = s.ctc ∧
      u.seq = { op := s.seq.op, step := s.seq.step + 1, todo := [] } ∧ u.bus.req = false) ∧
    (s.seq.todo = .cmd 0xB8 :: p → ∃ u, exec .recallEeprom s = .next (advance .running p u) ∧ u.env = es ∧
      KeepsForCommand s u ∧ u.out = s.out ∧ u.trace = s.trace ++ [.write 0xB8] ∧ u.tmp = s.tmp ∧ u.ctc = s.ctc ∧
      u.seq = { op := s.seq.op, step := s.seq.step + 1, todo := [] } ∧ u.bus.req = false)

/-- R93, R180: READ_POWER_SUPPLY writes 0xB4 and samples one time slot into `t_ext`, then goes on with the procedure. -/
def Obligations.ReadPowerSupplyCommand : Prop :=
  ∀ (s : State) (p : List Micro) (c b : Answer) (es : List Event), s.seq.todo = .cmd 0xB4 :: p →
    s.env = .ack c :: .ack b :: es →
    ∃ u, exec .readPowerSupply s = .next (advance .running p u) ∧ u.env = es ∧ KeepsForCommand s u ∧ u.out = s.out ∧
      u.trace = s.trace ++ [.write 0xB4, .readBit b.rflag] ∧ u.tmp = { s.tmp with ext := b.rflag, ok := true } ∧
      u.ctc = s.ctc ∧ u.seq = { op := s.seq.op, step := s.seq.step + 2, todo := [] } ∧ u.bus.req = false

/-- R35, R120, R214, R218: in any procedure, where SEQ stands at a bus reset of a transaction that finds no presence and no
fallback of R141 follows, the operation ends at once with `OK = 0` and kind Absent: nothing more is requested. -/
def Obligations.AbsenceEndsTheOperation : Prop :=
  ∀ (s : State) (p : Answer) (q : List Micro) (r : ResultKind) (es : List Event), s.status.busy = true →
    s.seq.todo = .reset :: (q ++ [.finish r]) → r ≠ .count → .resolve ∉ q → (∀ k, .finish k ∉ q) → p.rflag = false →
    s.env = .ack p :: es →
    ∃ t, step s = .next t ∧ t.env = es ∧ t.status.busy = false ∧ t.status.ok = false ∧ t.failKind = some .absent ∧
      t.seq = { op := s.seq.op, step := 0, todo := [] } ∧ t.trace = s.trace ++ [.reset false] ∧ t.out.sp = s.out.sp ∧
      t.bus.req = false ∧ t.args = s.args ∧ t.count = s.count ∧ t.reg = s.reg
end

