-- ==== Sys2Proof/Laws/State.lean ====
section
/-! SUPPORT. The small updates of the state, field by field: each is true by rfl, so that no proof unfolds a record. -/

namespace Sys2Proof.Machine

/-! ## log -/

@[simp] theorem State.log_cmd (s : State) (e : TraceEvent) : (s.log e).cmd = s.cmd := rfl
@[simp] theorem State.log_status (s : State) (e : TraceEvent) : (s.log e).status = s.status := rfl
@[simp] theorem State.log_pullupEn (s : State) (e : TraceEvent) : (s.log e).pullupEn = s.pullupEn := rfl
@[simp] theorem State.log_args (s : State) (e : TraceEvent) : (s.log e).args = s.args := rfl
@[simp] theorem State.log_out (s : State) (e : TraceEvent) : (s.log e).out = s.out := rfl
@[simp] theorem State.log_count (s : State) (e : TraceEvent) : (s.log e).count = s.count := rfl
@[simp] theorem State.log_reg (s : State) (e : TraceEvent) : (s.log e).reg = s.reg := rfl
@[simp] theorem State.log_seq (s : State) (e : TraceEvent) :
    (s.log e).seq = { s.seq with step := s.seq.step + 1 } := rfl
@[simp] theorem State.log_latch (s : State) (e : TraceEvent) : (s.log e).latch = s.latch := rfl
@[simp] theorem State.log_tmp (s : State) (e : TraceEvent) : (s.log e).tmp = s.tmp := rfl
@[simp] theorem State.log_bus (s : State) (e : TraceEvent) : (s.log e).bus = s.bus := rfl
@[simp] theorem State.log_ctc (s : State) (e : TraceEvent) : (s.log e).ctc = s.ctc := rfl
@[simp] theorem State.log_hostRd (s : State) (e : TraceEvent) : (s.log e).hostRd = s.hostRd := rfl
@[simp] theorem State.log_trace (s : State) (e : TraceEvent) : (s.log e).trace = s.trace ++ [e] := rfl
@[simp] theorem State.log_failKind (s : State) (e : TraceEvent) : (s.log e).failKind = s.failKind := rfl
@[simp] theorem State.log_env (s : State) (e : TraceEvent) : (s.log e).env = s.env := rfl
@[simp] theorem State.log_params (s : State) (e : TraceEvent) : (s.log e).params = s.params := rfl

/-! ## goto -/

@[simp] theorem State.goto_cmd (s : State) (p : List Micro) : (s.goto p).cmd = s.cmd := rfl
@[simp] theorem State.goto_status (s : State) (p : List Micro) : (s.goto p).status = s.status := rfl
@[simp] theorem State.goto_pullupEn (s : State) (p : List Micro) : (s.goto p).pullupEn = s.pullupEn := rfl
@[simp] theorem State.goto_args (s : State) (p : List Micro) : (s.goto p).args = s.args := rfl
@[simp] theorem State.goto_out (s : State) (p : List Micro) : (s.goto p).out = s.out := rfl
@[simp] theorem State.goto_count (s : State) (p : List Micro) : (s.goto p).count = s.count := rfl
@[simp] theorem State.goto_reg (s : State) (p : List Micro) : (s.goto p).reg = s.reg := rfl
@[simp] theorem State.goto_seq (s : State) (p : List Micro) : (s.goto p).seq = { s.seq with todo := p } := rfl
@[simp] theorem State.goto_latch (s : State) (p : List Micro) : (s.goto p).latch = s.latch := rfl
@[simp] theorem State.goto_tmp (s : State) (p : List Micro) : (s.goto p).tmp = s.tmp := rfl
@[simp] theorem State.goto_bus (s : State) (p : List Micro) : (s.goto p).bus = s.bus := rfl
@[simp] theorem State.goto_ctc (s : State) (p : List Micro) : (s.goto p).ctc = s.ctc := rfl
@[simp] theorem State.goto_hostRd (s : State) (p : List Micro) : (s.goto p).hostRd = s.hostRd := rfl
@[simp] theorem State.goto_trace (s : State) (p : List Micro) : (s.goto p).trace = s.trace := rfl
@[simp] theorem State.goto_failKind (s : State) (p : List Micro) : (s.goto p).failKind = s.failKind := rfl
@[simp] theorem State.goto_env (s : State) (p : List Micro) : (s.goto p).env = s.env := rfl
@[simp] theorem State.goto_params (s : State) (p : List Micro) : (s.goto p).params = s.params := rfl

/-! ## succeed -/

@[simp] theorem State.succeed_cmd (s : State) : (s.succeed).cmd = s.cmd := rfl
@[simp] theorem State.succeed_status (s : State) : (s.succeed).status = s.status := rfl
@[simp] theorem State.succeed_pullupEn (s : State) : (s.succeed).pullupEn = s.pullupEn := rfl
@[simp] theorem State.succeed_args (s : State) : (s.succeed).args = s.args := rfl
@[simp] theorem State.succeed_out (s : State) : (s.succeed).out = s.out := rfl
@[simp] theorem State.succeed_count (s : State) : (s.succeed).count = s.count := rfl
@[simp] theorem State.succeed_reg (s : State) : (s.succeed).reg = s.reg := rfl
@[simp] theorem State.succeed_seq (s : State) : (s.succeed).seq = s.seq := rfl
@[simp] theorem State.succeed_latch (s : State) : (s.succeed).latch = s.latch := rfl
@[simp] theorem State.succeed_tmp (s : State) : (s.succeed).tmp = { s.tmp with ok := true } := rfl
@[simp] theorem State.succeed_bus (s : State) : (s.succeed).bus = s.bus := rfl
@[simp] theorem State.succeed_ctc (s : State) : (s.succeed).ctc = s.ctc := rfl
@[simp] theorem State.succeed_hostRd (s : State) : (s.succeed).hostRd = s.hostRd := rfl
@[simp] theorem State.succeed_trace (s : State) : (s.succeed).trace = s.trace := rfl
@[simp] theorem State.succeed_failKind (s : State) : (s.succeed).failKind = s.failKind := rfl
@[simp] theorem State.succeed_env (s : State) : (s.succeed).env = s.env := rfl
@[simp] theorem State.succeed_params (s : State) : (s.succeed).params = s.params := rfl

/-! ## raise -/

@[simp] theorem State.raise_cmd (s : State) (k : FailKind) : (s.raise k).cmd = s.cmd := rfl
@[simp] theorem State.raise_status (s : State) (k : FailKind) : (s.raise k).status = s.status := rfl
@[simp] theorem State.raise_pullupEn (s : State) (k : FailKind) : (s.raise k).pullupEn = s.pullupEn := rfl
@[simp] theorem State.raise_args (s : State) (k : FailKind) : (s.raise k).args = s.args := rfl
@[simp] theorem State.raise_out (s : State) (k : FailKind) : (s.raise k).out = s.out := rfl
@[simp] theorem State.raise_count (s : State) (k : FailKind) : (s.raise k).count = s.count := rfl
@[simp] theorem State.raise_reg (s : State) (k : FailKind) : (s.raise k).reg = s.reg := rfl
@[simp] theorem State.raise_seq (s : State) (k : FailKind) : (s.raise k).seq = s.seq := rfl
@[simp] theorem State.raise_latch (s : State) (k : FailKind) : (s.raise k).latch = s.latch := rfl
@[simp] theorem State.raise_tmp (s : State) (k : FailKind) : (s.raise k).tmp = { s.tmp with ok := false } := rfl
@[simp] theorem State.raise_bus (s : State) (k : FailKind) : (s.raise k).bus = s.bus := rfl
@[simp] theorem State.raise_ctc (s : State) (k : FailKind) : (s.raise k).ctc = s.ctc := rfl
@[simp] theorem State.raise_hostRd (s : State) (k : FailKind) : (s.raise k).hostRd = s.hostRd := rfl
@[simp] theorem State.raise_trace (s : State) (k : FailKind) : (s.raise k).trace = s.trace := rfl
@[simp] theorem State.raise_failKind (s : State) (k : FailKind) : (s.raise k).failKind = some k := rfl
@[simp] theorem State.raise_env (s : State) (k : FailKind) : (s.raise k).env = s.env := rfl
@[simp] theorem State.raise_params (s : State) (k : FailKind) : (s.raise k).params = s.params := rfl

/-! ## endOp -/

@[simp] theorem State.endOp_cmd (s : State) (b : Bool) : (s.endOp b).cmd = s.cmd := rfl
@[simp] theorem State.endOp_status (s : State) (b : Bool) :
    (s.endOp b).status = { s.status with ok := b, busy := false } := rfl
@[simp] theorem State.endOp_pullupEn (s : State) (b : Bool) : (s.endOp b).pullupEn = s.pullupEn := rfl
@[simp] theorem State.endOp_args (s : State) (b : Bool) : (s.endOp b).args = s.args := rfl
@[simp] theorem State.endOp_out (s : State) (b : Bool) : (s.endOp b).out = s.out := rfl
@[simp] theorem State.endOp_count (s : State) (b : Bool) : (s.endOp b).count = s.count := rfl
@[simp] theorem State.endOp_reg (s : State) (b : Bool) : (s.endOp b).reg = s.reg := rfl
@[simp] theorem State.endOp_seq (s : State) (b : Bool) : (s.endOp b).seq = { s.seq with step := 0, todo := [] } := rfl
@[simp] theorem State.endOp_latch (s : State) (b : Bool) : (s.endOp b).latch = s.latch := rfl
@[simp] theorem State.endOp_tmp (s : State) (b : Bool) : (s.endOp b).tmp = s.tmp := rfl
@[simp] theorem State.endOp_bus (s : State) (b : Bool) : (s.endOp b).bus = s.bus := rfl
@[simp] theorem State.endOp_ctc (s : State) (b : Bool) : (s.endOp b).ctc = s.ctc := rfl
@[simp] theorem State.endOp_hostRd (s : State) (b : Bool) : (s.endOp b).hostRd = s.hostRd := rfl
@[simp] theorem State.endOp_trace (s : State) (b : Bool) : (s.endOp b).trace = s.trace := rfl
@[simp] theorem State.endOp_failKind (s : State) (b : Bool) :
    (s.endOp b).failKind = if b then none else s.failKind := rfl
@[simp] theorem State.endOp_env (s : State) (b : Bool) : (s.endOp b).env = s.env := rfl
@[simp] theorem State.endOp_params (s : State) (b : Bool) : (s.endOp b).params = s.params := rfl

/-! ## startOp -/

@[simp] theorem State.startOp_cmd (s : State) (op : Byte) : (s.startOp op).cmd = s.cmd := rfl
@[simp] theorem State.startOp_status (s : State) (op : Byte) :
    (s.startOp op).status = { s.status with busy := true, ok := false, bool := false, ill := false } := rfl
@[simp] theorem State.startOp_pullupEn (s : State) (op : Byte) : (s.startOp op).pullupEn = s.pullupEn := rfl
@[simp] theorem State.startOp_args (s : State) (op : Byte) : (s.startOp op).args = s.args := rfl
@[simp] theorem State.startOp_out (s : State) (op : Byte) : (s.startOp op).out = s.out := rfl
@[simp] theorem State.startOp_count (s : State) (op : Byte) : (s.startOp op).count = s.count := rfl
@[simp] theorem State.startOp_reg (s : State) (op : Byte) : (s.startOp op).reg = s.reg := rfl
@[simp] theorem State.startOp_seq (s : State) (op : Byte) :
    (s.startOp op).seq = { op := op, step := 0, todo := [.dispatch] } := rfl
@[simp] theorem State.startOp_latch (s : State) (op : Byte) :
    (s.startOp op).latch = latchOperands s.args s.pullupEn := rfl
@[simp] theorem State.startOp_tmp (s : State) (op : Byte) : (s.startOp op).tmp = s.tmp := rfl
@[simp] theorem State.startOp_bus (s : State) (op : Byte) : (s.startOp op).bus = s.bus := rfl
@[simp] theorem State.startOp_ctc (s : State) (op : Byte) : (s.startOp op).ctc = s.ctc := rfl
@[simp] theorem State.startOp_hostRd (s : State) (op : Byte) : (s.startOp op).hostRd = s.hostRd := rfl
@[simp] theorem State.startOp_trace (s : State) (op : Byte) : (s.startOp op).trace = [] := rfl
@[simp] theorem State.startOp_failKind (s : State) (op : Byte) : (s.startOp op).failKind = none := rfl
@[simp] theorem State.startOp_env (s : State) (op : Byte) : (s.startOp op).env = s.env := rfl
@[simp] theorem State.startOp_params (s : State) (op : Byte) : (s.startOp op).params = s.params := rfl

end Sys2Proof.Machine
end

