-- ==== Sys2Proof/Laws/Sequencer.lean ====
section
/-! SUPPORT. What the engine of SEQ does, said once: a completed primitive,
    the transactions of R120 to R129 and R180 run
against their answers,
    the assisted wait run against its ticks. A proof about an operation cites these and does not unfold
the engine. -/

namespace Sys2Proof.Machine

/-! ## A completed primitive -/

/-- What a completed primitive leaves: it was requested and answered, and `bt_req` fell (R41). -/
def primitive (m : Micro) (a : Answer) (s : State) : State :=
  effect m a (lower (requestOf m s))

theorem finish_goto (s : State) (q : List Micro) (r : ResultKind) : (s.goto q).finish r = s.finish r := by
  cases r <;> exact ite_congr rfl (fun _ => rfl) (fun _ => rfl)

theorem openAssist_goto (s : State) (q : List Micro) (n : Nat) :
    openAssist (s.goto q) n = (openAssist s n).goto q := by
  have hd : assistDrives (s.goto q) = assistDrives s := rfl
  by_cases h : assistDrives s
  · simp only [openAssist, hd, h, if_true]; rfl
  · simp only [openAssist, hd, h]; rfl

theorem closeAssist_goto (s : State) (q : List Micro) (n : Nat) :
    closeAssist (s.goto q) n = (closeAssist s n).goto q := by
  have hd : assistDrives (s.goto q) = assistDrives s := rfl
  by_cases h : assistDrives s
  · simp only [closeAssist, hd, h, if_true]; rfl
  · simp only [closeAssist, hd, h]; rfl

/-- Where SEQ goes on does not depend on the position noted before. -/
theorem advance_goto (f : Course) (p q : List Micro) (s : State) : advance f p (s.goto q) = advance f p s := by
  induction p generalizing f s with
  | nil => rfl
  | cons m t ih =>
    simp only [advance]
    cases f.skips m with
    | some c => exact ih _ _
    | none =>
    cases m with
    | checkCrc => exact ite_congr rfl (fun _ => ih _ s.succeed) (fun _ => ih _ (s.raise .crc))
    | checkEcho => exact ite_congr rfl (fun _ => ih _ s.succeed) (fun _ => ih _ (s.raise .verify))
    | loadArgs => exact ih _ { s with tmp := { s.tmp with th := s.latch.th, tl := s.latch.tl, cfg := s.latch.cfg } }
    | loadRes =>
      exact ih _ { s with tmp := { s.tmp with th := s.out.sp[2], tl := s.out.sp[3], cfg := cfgEncode s.params.cfg s.latch.res } }
    | loadAlarms =>
      exact ih _ { s with tmp := { s.tmp with th := s.latch.th, tl := s.latch.tl, cfg := s.out.sp[4] } }
    | resolve =>
      exact ite_congr rfl (fun _ => ih _ { s with tmp := { s.tmp with res := 0 } }) (fun _ => ih _ (resolveRes s))
    | assist w => simp only [openAssist_goto]; rfl
    | waiting n =>
      refine ite_congr rfl (fun _ => ?_) (fun _ => rfl)
      rw [closeAssist_goto]
      exact ih _ _
    | fail k => exact ih _ (s.raise k)
    | getRes => exact ih _ s
    | discover => exact ite_congr rfl (fun _ => rfl) (fun _ => ih _ s)
    | finish r => exact finish_goto s q r
    | _ => rfl

theorem settle_goto (s : State) (p : List Micro) : settle (s.goto p) = advance .running p s :=
  advance_goto .running p p s

@[simp] theorem goto_goto (s : State) (p q : List Micro) : (s.goto p).goto q = s.goto q := rfl

theorem requestOf_seq (m : Micro) (s : State) : (requestOf m s).seq = s.seq := by
  cases m <;> rfl

theorem requestOf_params (m : Micro) (s : State) : (requestOf m s).params = s.params := by
  cases m <;> rfl

theorem lower_params (s : State) : (lower s).params = s.params := rfl

@[simp] theorem primitive_cmd (m : Micro) (a : Answer) (s : State) : (primitive m a s).cmd = s.cmd := by
  cases m <;> simp only [primitive, effect] <;> repeat (first | rfl | split)

@[simp] theorem primitive_status (m : Micro) (a : Answer) (s : State) : (primitive m a s).status = s.status := by
  cases m <;> simp only [primitive, effect] <;> repeat (first | rfl | split)

@[simp] theorem primitive_pullupEn (m : Micro) (a : Answer) (s : State) : (primitive m a s).pullupEn = s.pullupEn := by
  cases m <;> simp only [primitive, effect] <;> repeat (first | rfl | split)

@[simp] theorem primitive_latch (m : Micro) (a : Answer) (s : State) : (primitive m a s).latch = s.latch := by
  cases m <;> simp only [primitive, effect] <;> repeat (first | rfl | split)

@[simp] theorem primitive_ctc (m : Micro) (a : Answer) (s : State) : (primitive m a s).ctc = s.ctc := by
  cases m <;> simp only [primitive, effect] <;> repeat (first | rfl | split)

@[simp] theorem primitive_hostRd (m : Micro) (a : Answer) (s : State) : (primitive m a s).hostRd = s.hostRd := by
  cases m <;> simp only [primitive, effect] <;> repeat (first | rfl | split)

@[simp] theorem primitive_failKind (m : Micro) (a : Answer) (s : State) : (primitive m a s).failKind = s.failKind := by
  cases m <;> simp only [primitive, effect] <;> repeat (first | rfl | split)

@[simp] theorem primitive_env (m : Micro) (a : Answer) (s : State) : (primitive m a s).env = s.env := by
  cases m <;> simp only [primitive, effect] <;> repeat (first | rfl | split)

@[simp] theorem primitive_params (m : Micro) (a : Answer) (s : State) : (primitive m a s).params = s.params := by
  cases m <;> simp only [primitive, effect] <;> repeat (first | rfl | split)

/-- A primitive moves `SEQ.STEP` only by counting itself; the position is set by the engine. -/
theorem primitive_goto (m : Micro) (a : Answer) (s : State) (p q : List Micro) :
    (primitive m a (s.goto q)).goto p = (primitive m a s).goto p := by
  cases m
  case discover | alarmSearch =>
    simp only [primitive, effect, lower_params, requestOf_params, State.goto_params]; repeat (first | rfl | split)
  all_goals simp only [primitive, effect] <;> repeat (first | rfl | split)

@[simp] theorem primitive_reset_present_tmp (s : State) (a : Answer) (h : a.rflag = true) :
    (primitive .reset a s).tmp = { s.tmp with ok := true } := by
  simp only [primitive, effect, h, if_true]; rfl

@[simp] theorem primitive_reset_present_bus (s : State) (a : Answer) (h : a.rflag = true) :
    (primitive .reset a s).bus = { s.bus with req := false, op := 0 } := by
  simp only [primitive, effect, h, if_true]; rfl

@[simp] theorem primitive_reset_present_seq (s : State) (a : Answer) (h : a.rflag = true) :
    (primitive .reset a s).seq = { s.seq with step := s.seq.step + 1 } := by
  simp only [primitive, effect, h, if_true]; rfl

@[simp] theorem primitive_reset_present_trace (s : State) (a : Answer) (h : a.rflag = true) :
    (primitive .reset a s).trace = s.trace ++ [.reset true] := by
  simp only [primitive, effect, h, if_true]; rfl

@[simp] theorem primitive_reset_absent_tmp (s : State) (a : Answer) (h : a.rflag = false) :
    (primitive .reset a s).tmp = s.tmp := by
  simp only [primitive, effect, h, if_false, Bool.false_eq_true]; rfl

@[simp] theorem primitive_reset_absent_bus (s : State) (a : Answer) (h : a.rflag = false) :
    (primitive .reset a s).bus = { s.bus with req := false, op := 0 } := by
  simp only [primitive, effect, h, if_false, Bool.false_eq_true]; rfl

@[simp] theorem primitive_reset_absent_seq (s : State) (a : Answer) (h : a.rflag = false) :
    (primitive .reset a s).seq = { s.seq with step := s.seq.step + 1 } := by
  simp only [primitive, effect, h, if_false, Bool.false_eq_true]; rfl

@[simp] theorem primitive_reset_absent_trace (s : State) (a : Answer) (h : a.rflag = false) :
    (primitive .reset a s).trace = s.trace ++ [.reset false] := by
  simp only [primitive, effect, h, if_false, Bool.false_eq_true]; rfl

@[simp] theorem primitive_select_args (s : State) (a : Answer) :
    (primitive .select a s).args = s.args := rfl

@[simp] theorem primitive_select_out (s : State) (a : Answer) :
    (primitive .select a s).out = s.out := rfl

@[simp] theorem primitive_select_count (s : State) (a : Answer) :
    (primitive .select a s).count = s.count := rfl

@[simp] theorem primitive_select_reg (s : State) (a : Answer) :
    (primitive .select a s).reg = s.reg := rfl

@[simp] theorem primitive_select_tmp (s : State) (a : Answer) :
    (primitive .select a s).tmp = s.tmp := rfl

@[simp] theorem primitive_select_bus (s : State) (a : Answer) :
    (primitive .select a s).bus = { s.bus with req := false, op := 1, waddr := pack64 s.latch.addr } := rfl

@[simp] theorem primitive_select_seq (s : State) (a : Answer) :
    (primitive .select a s).seq = { s.seq with step := s.seq.step + 1 } := rfl

@[simp] theorem primitive_select_trace (s : State) (a : Answer) :
    (primitive .select a s).trace = s.trace ++ [.select s.latch.addr] := rfl

@[simp] theorem primitive_cmd_args (s : State) (a : Answer) (b : Byte) :
    (primitive (.cmd b) a s).args = s.args := rfl

@[simp] theorem primitive_cmd_out (s : State) (a : Answer) (b : Byte) :
    (primitive (.cmd b) a s).out = s.out := rfl

@[simp] theorem primitive_cmd_count (s : State) (a : Answer) (b : Byte) :
    (primitive (.cmd b) a s).count = s.count := rfl

@[simp] theorem primitive_cmd_reg (s : State) (a : Answer) (b : Byte) :
    (primitive (.cmd b) a s).reg = s.reg := rfl

@[simp] theorem primitive_cmd_tmp (s : State) (a : Answer) (b : Byte) :
    (primitive (.cmd b) a s).tmp = s.tmp := rfl

@[simp] theorem primitive_cmd_bus (s : State) (a : Answer) (b : Byte) :
    (primitive (.cmd b) a s).bus = { s.bus with req := false, op := 2, wbyte := b, flag := false } := rfl

@[simp] theorem primitive_cmd_seq (s : State) (a : Answer) (b : Byte) :
    (primitive (.cmd b) a s).seq = { s.seq with step := s.seq.step + 1 } := rfl

@[simp] theorem primitive_cmd_trace (s : State) (a : Answer) (b : Byte) :
    (primitive (.cmd b) a s).trace = s.trace ++ [.write b] := rfl

@[simp] theorem primitive_write_args (s : State) (a : Answer) (w : WriteByte) :
    (primitive (.write w) a s).args = s.args := rfl

@[simp] theorem primitive_write_out (s : State) (a : Answer) (w : WriteByte) :
    (primitive (.write w) a s).out = s.out := rfl

@[simp] theorem primitive_write_count (s : State) (a : Answer) (w : WriteByte) :
    (primitive (.write w) a s).count = s.count := rfl

@[simp] theorem primitive_write_reg (s : State) (a : Answer) (w : WriteByte) :
    (primitive (.write w) a s).reg = s.reg := rfl

@[simp] theorem primitive_write_tmp (s : State) (a : Answer) (w : WriteByte) :
    (primitive (.write w) a s).tmp = s.tmp := rfl

@[simp] theorem primitive_write_bus (s : State) (a : Answer) (w : WriteByte) :
    (primitive (.write w) a s).bus = { s.bus with req := false, op := 2, wbyte := writeByteOf w s.tmp, flag :=
        false } := rfl

@[simp] theorem primitive_write_seq (s : State) (a : Answer) (w : WriteByte) :
    (primitive (.write w) a s).seq = { s.seq with step := s.seq.step + 1 } := rfl

@[simp] theorem primitive_write_trace (s : State) (a : Answer) (w : WriteByte) :
    (primitive (.write w) a s).trace = s.trace ++ [.write (writeByteOf w s.tmp)] := rfl

@[simp] theorem primitive_read_args (s : State) (a : Answer) (i : Fin 9) :
    (primitive (.read i) a s).args = s.args := rfl

@[simp] theorem primitive_read_out (s : State) (a : Answer) (i : Fin 9) :
    (primitive (.read i) a s).out = { s.out with sp := s.out.sp.set i a.rbyte } := rfl

@[simp] theorem primitive_read_count (s : State) (a : Answer) (i : Fin 9) :
    (primitive (.read i) a s).count = s.count := rfl

@[simp] theorem primitive_read_reg (s : State) (a : Answer) (i : Fin 9) :
    (primitive (.read i) a s).reg = s.reg := rfl

@[simp] theorem primitive_read_tmp (s : State) (a : Answer) (i : Fin 9) :
    (primitive (.read i) a s).tmp = s.tmp := rfl

@[simp] theorem primitive_read_bus (s : State) (a : Answer) (i : Fin 9) :
    (primitive (.read i) a s).bus = { s.bus with req := false, op := 3 } := rfl

@[simp] theorem primitive_read_seq (s : State) (a : Answer) (i : Fin 9) :
    (primitive (.read i) a s).seq = { s.seq with step := s.seq.step + 1 } := rfl

@[simp] theorem primitive_read_trace (s : State) (a : Answer) (i : Fin 9) :
    (primitive (.read i) a s).trace = s.trace ++ [.read a.rbyte] := rfl

@[simp] theorem primitive_readBit_args (s : State) (a : Answer) :
    (primitive .readBit a s).args = s.args := rfl

@[simp] theorem primitive_readBit_out (s : State) (a : Answer) :
    (primitive .readBit a s).out = s.out := rfl

@[simp] theorem primitive_readBit_count (s : State) (a : Answer) :
    (primitive .readBit a s).count = s.count := rfl

@[simp] theorem primitive_readBit_reg (s : State) (a : Answer) :
    (primitive .readBit a s).reg = s.reg := rfl

@[simp] theorem primitive_readBit_tmp (s : State) (a : Answer) :
    (primitive .readBit a s).tmp = { s.tmp with ext := a.rflag, ok := true } := rfl

@[simp] theorem primitive_readBit_bus (s : State) (a : Answer) :
    (primitive .readBit a s).bus = { s.bus with req := false, op := 4 } := rfl

@[simp] theorem primitive_readBit_seq (s : State) (a : Answer) :
    (primitive .readBit a s).seq = { s.seq with step := s.seq.step + 1 } := rfl

@[simp] theorem primitive_readBit_trace (s : State) (a : Answer) :
    (primitive .readBit a s).trace = s.trace ++ [.readBit a.rflag] := rfl

@[simp] theorem primitive_searchReset_args (s : State) (a : Answer) :
    (primitive .searchReset a s).args = s.args := rfl

@[simp] theorem primitive_searchReset_out (s : State) (a : Answer) :
    (primitive .searchReset a s).out = s.out := rfl

@[simp] theorem primitive_searchReset_count (s : State) (a : Answer) :
    (primitive .searchReset a s).count = s.count := rfl

@[simp] theorem primitive_searchReset_reg (s : State) (a : Answer) :
    (primitive .searchReset a s).reg = s.reg := rfl

@[simp] theorem primitive_searchReset_tmp (s : State) (a : Answer) :
    (primitive .searchReset a s).tmp = s.tmp := rfl

@[simp] theorem primitive_searchReset_bus (s : State) (a : Answer) :
    (primitive .searchReset a s).bus = { s.bus with req := false, op := 6 } := rfl

@[simp] theorem primitive_searchReset_seq (s : State) (a : Answer) :
    (primitive .searchReset a s).seq = { s.seq with step := s.seq.step + 1 } := rfl

@[simp] theorem primitive_searchReset_trace (s : State) (a : Answer) :
    (primitive .searchReset a s).trace = s.trace ++ [.searchReset] := rfl

/-! ## The engine, one acknowledge at a time -/

theorem feed_ack_goto (m : Micro) (hm : m.isBus = true) (a : Answer) (es : List Event) (t : List Micro) (s : State) :
    feed (.ack a :: es) (s.goto (m :: t)) = feed es (advance .running (behind s.params.crc m a t) (primitive m a s)) := by
  have h1 : request (s.goto (m :: t)) = requestOf m (s.goto (m :: t)) := rfl
  have h2 : (requestOf m (s.goto (m :: t))).seq.todo = m :: t := by rw [requestOf_seq]; rfl
  rw [feed, if_neg (by simp [Event.ofHost]), h1, accept, acceptAck, h2]
  simp only [hm, if_true]
  have h4 : (effect m a (lower (requestOf m (s.goto (m :: t))))).goto (behind s.params.crc m a t) =
      (primitive m a s).goto (behind s.params.crc m a t) := primitive_goto m a s (behind s.params.crc m a t) (m :: t)
  rw [requestOf_params, State.goto_params, h4, settle_goto]

/-- SEQ stops at a primitive; at the search of DISCOVER only while there is room (R191). -/
theorem advance_bus (m : Micro) (hm : m.isBus = true) (hd : m ≠ .discover) (t : List Micro) (s : State) :
    advance .running (m :: t) s = s.goto (m :: t) := by
  cases m <;> first | rfl | exact absurd rfl hd | cases hm

/-- A primitive followed by another one. -/
theorem feed_ack_to (m : Micro) (hm : m.isBus = true) (a : Answer) (es : List Event) (t : List Micro) (s : State)
    (m' : Micro) (t' : List Micro) (hb : behind s.params.crc m a t = m' :: t') (hm' : m'.isBus = true) (hd : m' ≠ .discover) :
    feed (.ack a :: es) (s.goto (m :: t)) = feed es ((primitive m a s).goto (m' :: t')) := by
  rw [feed_ack_goto m hm, hb, advance_bus m' hm' hd]

theorem feed_nil (s : State) : feed [] s = { request s with env := [] } := rfl

theorem requestOf_env (m : Micro) (s : State) (es : List Event) :
    { requestOf m s with env := es } = requestOf m { s with env := es } := by
  cases m <;> rfl

/-- An ended procedure leaves the events to come as they are. -/
theorem feed_ended (es : List Event) (s : State) (h : s.seq.todo = []) : feed es s = { s with env := es } := by
  cases es with
  | nil => simp [feed, request, h]
  | cons e es => simp [feed, h]

/-- The run of a procedure whose first move is a primitive. -/
theorem runProc_bus (m : Micro) (hm : m.isBus = true) (hd : m ≠ .discover) (p : List Micro) (s : State) :
    runProc (m :: p) s = feed s.env (s.goto (m :: p)) := by
  rw [runProc, resume, settle_goto, advance_bus m hm hd, State.goto_env]

/-- A present device answers the head of a transaction. -/
theorem behind_reset_present (f : CrcFunction) (a : Answer) (h : a.rflag = true) (t : List Micro) : behind f .reset a t = t := by
  simp [behind, h]

theorem behind_reset_absent (f : CrcFunction) (a : Answer) (h : a.rflag = false) (t : List Micro) :
    behind f .reset a t = .fail .absent :: t := by
  simp [behind, h]

theorem behind_readScratchpad (f : CrcFunction) (a : Answer) (t : List Micro) : behind f (wire .readScratchpad) a t =
    .read 0 :: .read 1 :: .read 2 :: .read 3 :: .read 4 :: .read 5 :: .read 6 :: .read 7 :: .read 8 :: t := rfl

theorem behind_writeScratchpad (f : CrcFunction) (a : Answer) (t : List Micro) : behind f (wire .writeScratchpad) a t =
    .write .th :: .write .tl :: .write .cfg :: t := rfl

theorem behind_readPowerSupply (f : CrcFunction) (a : Answer) (t : List Micro) : behind f (wire .readPowerSupply) a t = .readBit :: t := rfl

theorem behind_copyScratchpad (f : CrcFunction) (a : Answer) (t : List Micro) :
    behind f (wire .copyScratchpad) a t = .assist .eeprom :: t := rfl

theorem behind_recallEeprom (f : CrcFunction) (a : Answer) (t : List Micro) : behind f (wire .recallEeprom) a t = t := rfl

theorem behind_convertT (f : CrcFunction) (a : Answer) (t : List Micro) : behind f (wire .convertT) a t = t := rfl

/-! ## Transactions -/

/-- What the head of a transaction that found presence leaves, with its command (R91). -/
def afterHead (i : Instr) (x : HeadAnswers) (s : State) : State :=
  primitive (wire i) x.command (primitive .select x.select (primitive .reset x.reset s))

/-- The head of a transaction that finds presence, its command acknowledged. -/
theorem feed_head_present (i : Instr) (x : HeadAnswers) (h : x.reset.rflag = true) (t : List Micro) (es : List Event)
    (s : State) : feed (x.events ++ es) (s.goto (.reset :: .select :: wire i :: t)) =
      feed es (advance .running (behind s.params.crc (wire i) x.command t) (afterHead i x s)) := by
  obtain ⟨r, e, c⟩ := x
  simp only [HeadAnswers.events, List.cons_append, List.nil_append]
  rw [feed_ack_to .reset rfl _ _ _ _ .select _ (behind_reset_present _ _ h _) rfl (by decide),
    feed_ack_to .select rfl _ _ _ _ (wire i) _ rfl rfl (by simp [wire]), feed_ack_goto (wire i) rfl]
  rfl

/-- A transaction that finds no presence fails with kind Absent; nothing more is sent (R120). -/
theorem feed_reset_absent (a : Answer) (h : a.rflag = false) (t : List Micro) (es : List Event) (s : State) :
    feed (.ack a :: es) (s.goto (.reset :: t)) =
      feed es (advance .failing t ((primitive .reset a s).raise .absent)) := by
  rw [feed_ack_goto .reset rfl, behind_reset_absent _ _ h]
  rfl

/-- What the nine reads of a data phase leave (R93). -/
def afterNineReads (b : Vector Answer 9) (s : State) : State :=
  let s := primitive (.read 2) b[2] (primitive (.read 1) b[1] (primitive (.read 0) b[0] s))
  let s := primitive (.read 5) b[5] (primitive (.read 4) b[4] (primitive (.read 3) b[3] s))
  primitive (.read 8) b[8] (primitive (.read 7) b[7] (primitive (.read 6) b[6] s))

theorem feed_nineReads (b : Vector Answer 9) (t : List Micro) (es : List Event) (s : State) :
    feed (.ack b[0] :: .ack b[1] :: .ack b[2] :: .ack b[3] :: .ack b[4] :: .ack b[5] :: .ack b[6] :: .ack b[7] ::
        .ack b[8] :: es)
      (s.goto (.read 0 :: .read 1 :: .read 2 :: .read 3 :: .read 4 :: .read 5 :: .read 6 :: .read 7 :: .read 8 :: t)) =
      feed es (advance .running t (afterNineReads b s)) := by
  rw [feed_ack_to (.read 0) rfl _ _ _ _ (.read 1) _ rfl rfl (by decide),
    feed_ack_to (.read 1) rfl _ _ _ _ (.read 2) _ rfl rfl (by decide),
    feed_ack_to (.read 2) rfl _ _ _ _ (.read 3) _ rfl rfl (by decide),
    feed_ack_to (.read 3) rfl _ _ _ _ (.read 4) _ rfl rfl (by decide),
    feed_ack_to (.read 4) rfl _ _ _ _ (.read 5) _ rfl rfl (by decide),
    feed_ack_to (.read 5) rfl _ _ _ _ (.read 6) _ rfl rfl (by decide),
    feed_ack_to (.read 6) rfl _ _ _ _ (.read 7) _ rfl rfl (by decide),
    feed_ack_to (.read 7) rfl _ _ _ _ (.read 8) _ rfl rfl (by decide), feed_ack_goto (.read 8) rfl]
  rfl

/-- What a scratchpad read that found presence leaves before its CRC test (R121). -/
def afterRead (x : ReadAnswers) (s : State) : State :=
  afterNineReads x.bytes (afterHead .readScratchpad ⟨x.reset, x.select, x.command⟩ s)

/-- What a scratchpad write that found presence leaves (R123). -/
def afterWrite (x : WriteAnswers) (s : State) : State :=
  primitive (.write .cfg) x.cfg (primitive (.write .tl) x.tl (primitive (.write .th) x.th
    (afterHead .writeScratchpad ⟨x.reset, x.select, x.command⟩ s)))

theorem feed_threeWrites (a b c : Answer) (t : List Micro) (es : List Event) (s : State) :
    feed (.ack a :: .ack b :: .ack c :: es) (s.goto (.write .th :: .write .tl :: .write .cfg :: t)) =
      feed es (advance .running t
        (primitive (.write .cfg) c (primitive (.write .tl) b (primitive (.write .th) a s)))) := by
  rw [feed_ack_to (.write .th) rfl _ _ _ _ (.write .tl) _ rfl rfl (by decide),
    feed_ack_to (.write .tl) rfl _ _ _ _ (.write .cfg) _ rfl rfl (by decide), feed_ack_goto (.write .cfg) rfl]
  rfl

/-- A scratchpad write that finds presence (R123). -/
theorem feed_spWriteRaw_present (x : WriteAnswers) (h : x.reset.rflag = true) (t : List Micro) (es : List Event)
    (s : State) :
    feed (x.events ++ es) (s.goto (spWriteRaw ++ t)) = feed es (advance .running t (afterWrite x s)) := by
  obtain ⟨r, e, c, a1, a2, a3⟩ := x
  have := feed_head_present .writeScratchpad ⟨r, e, c⟩ h t (.ack a1 :: .ack a2 :: .ack a3 :: es) s
  rw [behind_writeScratchpad, advance_bus (.write .th) rfl (by decide), feed_threeWrites] at this
  exact this

/-- What a power query that found presence leaves (R180). -/
def afterPower (x : PowerAnswers) (s : State) : State :=
  primitive .readBit x.slot (afterHead .readPowerSupply ⟨x.reset, x.select, x.command⟩ s)

/-- A power query that finds presence (R180). -/
theorem feed_powerQuery_present (x : PowerAnswers) (h : x.reset.rflag = true) (t : List Micro) (es : List Event)
    (s : State) :
    feed (x.events ++ es) (s.goto (powerQuery ++ t)) = feed es (advance .running t (afterPower x s)) := by
  obtain ⟨r, e, c, b⟩ := x
  have := feed_head_present .readPowerSupply ⟨r, e, c⟩ h t (.ack b :: es) s
  rw [behind_readPowerSupply, advance_bus .readBit rfl (by decide),
    feed_ack_goto .readBit rfl] at this
  exact this

/-! ## What the transactions leave -/

theorem set_nine (sp : Scratchpad) (b0 b1 b2 b3 b4 b5 b6 b7 b8 : Byte) :
    ((((((((sp.set 0 b0).set 1 b1).set 2 b2).set 3 b3).set 4 b4).set 5 b5).set 6 b6).set 7 b7).set 8 b8 =
      #v[b0, b1, b2, b3, b4, b5, b6, b7, b8] := by
  ext i hi
  interval_cases i <;> simp

@[simp] theorem primitive_reset_args (s : State) (a : Answer) : (primitive .reset a s).args = s.args := by
  simp only [primitive, effect]; split <;> rfl

@[simp] theorem primitive_reset_count (s : State) (a : Answer) : (primitive .reset a s).count = s.count := by
  simp only [primitive, effect]; split <;> rfl

@[simp] theorem primitive_reset_reg (s : State) (a : Answer) : (primitive .reset a s).reg = s.reg := by
  simp only [primitive, effect]; split <;> rfl

@[simp] theorem primitive_reset_out (s : State) (a : Answer) : (primitive .reset a s).out = s.out := by
  simp only [primitive, effect]; split <;> rfl

@[simp] theorem afterHead_cmd (s : State) (i : Instr) (x : HeadAnswers) : (afterHead i x s).cmd = s.cmd := by
  simp [afterHead, wire]

@[simp] theorem afterHead_status (s : State) (i : Instr) (x : HeadAnswers) : (afterHead i x s).status = s.status := by
  simp [afterHead, wire]

@[simp] theorem afterHead_pullupEn (s : State) (i : Instr) (x : HeadAnswers) :
    (afterHead i x s).pullupEn = s.pullupEn := by
  simp [afterHead, wire]

@[simp] theorem afterHead_latch (s : State) (i : Instr) (x : HeadAnswers) : (afterHead i x s).latch = s.latch := by
  simp [afterHead, wire]

@[simp] theorem afterHead_ctc (s : State) (i : Instr) (x : HeadAnswers) : (afterHead i x s).ctc = s.ctc := by
  simp [afterHead, wire]

@[simp] theorem afterHead_hostRd (s : State) (i : Instr) (x : HeadAnswers) : (afterHead i x s).hostRd = s.hostRd := by
  simp [afterHead, wire]

@[simp] theorem afterHead_failKind (s : State) (i : Instr) (x : HeadAnswers) :
    (afterHead i x s).failKind = s.failKind := by
  simp [afterHead, wire]

@[simp] theorem afterHead_env (s : State) (i : Instr) (x : HeadAnswers) : (afterHead i x s).env = s.env := by
  simp [afterHead, wire]

@[simp] theorem afterHead_params (s : State) (i : Instr) (x : HeadAnswers) : (afterHead i x s).params = s.params := by
  simp [afterHead, wire]

@[simp] theorem afterHead_args (s : State) (i : Instr) (x : HeadAnswers) : (afterHead i x s).args = s.args := by
  simp [afterHead, wire]

@[simp] theorem afterHead_count (s : State) (i : Instr) (x : HeadAnswers) : (afterHead i x s).count = s.count := by
  simp [afterHead, wire]

@[simp] theorem afterHead_reg (s : State) (i : Instr) (x : HeadAnswers) : (afterHead i x s).reg = s.reg := by
  simp [afterHead, wire]

@[simp] theorem afterHead_out (s : State) (i : Instr) (x : HeadAnswers) : (afterHead i x s).out = s.out := by
  simp [afterHead, wire]

@[simp] theorem afterHead_tmp (s : State) (i : Instr) (x : HeadAnswers) (h : x.reset.rflag = true) :
    (afterHead i x s).tmp = { s.tmp with ok := true } := by
  simp [afterHead, wire, h]

@[simp] theorem afterHead_bus (s : State) (i : Instr) (x : HeadAnswers) (h : x.reset.rflag = true) :
    (afterHead i x s).bus = { req := false, op := 2, wbyte := encode i, waddr := pack64 s.latch.addr, flag :=
        false } := by
  simp [afterHead, wire, h]

@[simp] theorem afterHead_seq (s : State) (i : Instr) (x : HeadAnswers) (h : x.reset.rflag = true) :
    (afterHead i x s).seq = { s.seq with step := s.seq.step + 3 } := by
  simp [afterHead, wire, h]

@[simp] theorem afterHead_trace (s : State) (i : Instr) (x : HeadAnswers) (h : x.reset.rflag = true) :
    (afterHead i x s).trace = s.trace ++ headTrace s.latch.addr (encode i) := by
  simp [afterHead, wire, headTrace, h]

@[simp] theorem afterNineReads_cmd (s : State) (b : Vector Answer 9) : (afterNineReads b s).cmd = s.cmd := by
  simp [afterNineReads]

@[simp] theorem afterNineReads_status (s : State) (b : Vector Answer 9) : (afterNineReads b s).status = s.status := by
  simp [afterNineReads]

@[simp] theorem afterNineReads_pullupEn (s : State) (b : Vector Answer 9) :
    (afterNineReads b s).pullupEn = s.pullupEn := by
  simp [afterNineReads]

@[simp] theorem afterNineReads_latch (s : State) (b : Vector Answer 9) : (afterNineReads b s).latch = s.latch := by
  simp [afterNineReads]

@[simp] theorem afterNineReads_ctc (s : State) (b : Vector Answer 9) : (afterNineReads b s).ctc = s.ctc := by
  simp [afterNineReads]

@[simp] theorem afterNineReads_hostRd (s : State) (b : Vector Answer 9) : (afterNineReads b s).hostRd = s.hostRd := by
  simp [afterNineReads]

@[simp] theorem afterNineReads_failKind (s : State) (b : Vector Answer 9) :
    (afterNineReads b s).failKind = s.failKind := by
  simp [afterNineReads]

@[simp] theorem afterNineReads_env (s : State) (b : Vector Answer 9) : (afterNineReads b s).env = s.env := by
  simp [afterNineReads]

@[simp] theorem afterNineReads_params (s : State) (b : Vector Answer 9) : (afterNineReads b s).params = s.params := by
  simp [afterNineReads]

@[simp] theorem afterNineReads_args (s : State) (b : Vector Answer 9) : (afterNineReads b s).args = s.args := by
  simp [afterNineReads]

@[simp] theorem afterNineReads_count (s : State) (b : Vector Answer 9) : (afterNineReads b s).count = s.count := by
  simp [afterNineReads]

@[simp] theorem afterNineReads_reg (s : State) (b : Vector Answer 9) : (afterNineReads b s).reg = s.reg := by
  simp [afterNineReads]

@[simp] theorem afterNineReads_out (s : State) (b : Vector Answer 9) :
    (afterNineReads b s).out = { s.out with sp := #v[b[0].rbyte, b[1].rbyte, b[2].rbyte, b[3].rbyte, b[4].rbyte,
        b[5].rbyte, b[6].rbyte, b[7].rbyte, b[8].rbyte] } := by
  simp [afterNineReads, ← set_nine s.out.sp]

@[simp] theorem afterNineReads_tmp (s : State) (b : Vector Answer 9) :
    (afterNineReads b s).tmp = s.tmp := by
  simp [afterNineReads]

@[simp] theorem afterNineReads_bus (s : State) (b : Vector Answer 9) :
    (afterNineReads b s).bus = { s.bus with req := false, op := 3 } := by
  simp [afterNineReads]

@[simp] theorem afterNineReads_seq (s : State) (b : Vector Answer 9) :
    (afterNineReads b s).seq = { s.seq with step := s.seq.step + 9 } := by
  simp [afterNineReads]

@[simp] theorem afterNineReads_trace (s : State) (b : Vector Answer 9) :
    (afterNineReads b s).trace = s.trace ++ [.read b[0].rbyte, .read b[1].rbyte, .read b[2].rbyte, .read b[3].rbyte,
        .read b[4].rbyte,
      .read b[5].rbyte, .read b[6].rbyte, .read b[7].rbyte, .read b[8].rbyte] := by
  simp [afterNineReads]

@[simp] theorem afterRead_cmd (s : State) (x : ReadAnswers) : (afterRead x s).cmd = s.cmd := by
  simp [afterRead]

@[simp] theorem afterRead_status (s : State) (x : ReadAnswers) : (afterRead x s).status = s.status := by
  simp [afterRead]

@[simp] theorem afterRead_pullupEn (s : State) (x : ReadAnswers) : (afterRead x s).pullupEn = s.pullupEn := by
  simp [afterRead]

@[simp] theorem afterRead_latch (s : State) (x : ReadAnswers) : (afterRead x s).latch = s.latch := by
  simp [afterRead]

@[simp] theorem afterRead_ctc (s : State) (x : ReadAnswers) : (afterRead x s).ctc = s.ctc := by
  simp [afterRead]

@[simp] theorem afterRead_hostRd (s : State) (x : ReadAnswers) : (afterRead x s).hostRd = s.hostRd := by
  simp [afterRead]

@[simp] theorem afterRead_failKind (s : State) (x : ReadAnswers) : (afterRead x s).failKind = s.failKind := by
  simp [afterRead]

@[simp] theorem afterRead_env (s : State) (x : ReadAnswers) : (afterRead x s).env = s.env := by
  simp [afterRead]

@[simp] theorem afterRead_params (s : State) (x : ReadAnswers) : (afterRead x s).params = s.params := by
  simp [afterRead]

@[simp] theorem afterRead_args (s : State) (x : ReadAnswers) : (afterRead x s).args = s.args := by
  simp [afterRead]

@[simp] theorem afterRead_count (s : State) (x : ReadAnswers) : (afterRead x s).count = s.count := by
  simp [afterRead]

@[simp] theorem afterRead_reg (s : State) (x : ReadAnswers) : (afterRead x s).reg = s.reg := by
  simp [afterRead]

@[simp] theorem afterRead_out (s : State) (x : ReadAnswers) (h : x.reset.rflag = true) :
    (afterRead x s).out = { s.out with sp := x.sp } := by
  simp [afterRead, ReadAnswers.sp]

@[simp] theorem afterRead_tmp (s : State) (x : ReadAnswers) (h : x.reset.rflag = true) :
    (afterRead x s).tmp = { s.tmp with ok := true } := by
  simp [afterRead, h]

@[simp] theorem afterRead_bus (s : State) (x : ReadAnswers) (h : x.reset.rflag = true) :
    (afterRead x s).bus = { req := false, op := 3, wbyte := 0xBE, waddr := pack64 s.latch.addr, flag := false } := by
  simp [afterRead, h, encode]

@[simp] theorem afterRead_seq (s : State) (x : ReadAnswers) (h : x.reset.rflag = true) :
    (afterRead x s).seq = { s.seq with step := s.seq.step + 12 } := by
  simp [afterRead, h]

@[simp] theorem afterRead_trace (s : State) (x : ReadAnswers) (h : x.reset.rflag = true) :
    (afterRead x s).trace = s.trace ++ x.trace s.latch.addr := by
  simp [afterRead, h, ReadAnswers.trace, encode]

@[simp] theorem afterWrite_cmd (s : State) (x : WriteAnswers) : (afterWrite x s).cmd = s.cmd := by
  simp [afterWrite]

@[simp] theorem afterWrite_status (s : State) (x : WriteAnswers) : (afterWrite x s).status = s.status := by
  simp [afterWrite]

@[simp] theorem afterWrite_pullupEn (s : State) (x : WriteAnswers) : (afterWrite x s).pullupEn = s.pullupEn := by
  simp [afterWrite]

@[simp] theorem afterWrite_latch (s : State) (x : WriteAnswers) : (afterWrite x s).latch = s.latch := by
  simp [afterWrite]

@[simp] theorem afterWrite_ctc (s : State) (x : WriteAnswers) : (afterWrite x s).ctc = s.ctc := by
  simp [afterWrite]

@[simp] theorem afterWrite_hostRd (s : State) (x : WriteAnswers) : (afterWrite x s).hostRd = s.hostRd := by
  simp [afterWrite]

@[simp] theorem afterWrite_failKind (s : State) (x : WriteAnswers) : (afterWrite x s).failKind = s.failKind := by
  simp [afterWrite]

@[simp] theorem afterWrite_env (s : State) (x : WriteAnswers) : (afterWrite x s).env = s.env := by
  simp [afterWrite]

@[simp] theorem afterWrite_params (s : State) (x : WriteAnswers) : (afterWrite x s).params = s.params := by
  simp [afterWrite]

@[simp] theorem afterWrite_args (s : State) (x : WriteAnswers) : (afterWrite x s).args = s.args := by
  simp [afterWrite]

@[simp] theorem afterWrite_count (s : State) (x : WriteAnswers) : (afterWrite x s).count = s.count := by
  simp [afterWrite]

@[simp] theorem afterWrite_reg (s : State) (x : WriteAnswers) : (afterWrite x s).reg = s.reg := by
  simp [afterWrite]

@[simp] theorem afterWrite_out (s : State) (x : WriteAnswers) (h : x.reset.rflag = true) :
    (afterWrite x s).out = s.out := by
  simp [afterWrite]

@[simp] theorem afterWrite_tmp (s : State) (x : WriteAnswers) (h : x.reset.rflag = true) :
    (afterWrite x s).tmp = { s.tmp with ok := true } := by
  simp [afterWrite, h]

@[simp] theorem afterWrite_bus (s : State) (x : WriteAnswers) (h : x.reset.rflag = true) :
    (afterWrite x s).bus = { req := false, op := 2, wbyte := s.tmp.cfg, waddr := pack64 s.latch.addr, flag :=
        false } := by
  simp [afterWrite, h, writeByteOf, encode]

@[simp] theorem afterWrite_seq (s : State) (x : WriteAnswers) (h : x.reset.rflag = true) :
    (afterWrite x s).seq = { s.seq with step := s.seq.step + 6 } := by
  simp [afterWrite, h]

@[simp] theorem afterWrite_trace (s : State) (x : WriteAnswers) (h : x.reset.rflag = true) :
    (afterWrite x s).trace = s.trace ++ writeTrace s.latch.addr s.tmp.th s.tmp.tl s.tmp.cfg := by
  simp [afterWrite, h, writeTrace, writeByteOf, encode]

@[simp] theorem afterPower_cmd (s : State) (x : PowerAnswers) : (afterPower x s).cmd = s.cmd := by
  simp [afterPower]

@[simp] theorem afterPower_status (s : State) (x : PowerAnswers) : (afterPower x s).status = s.status := by
  simp [afterPower]

@[simp] theorem afterPower_pullupEn (s : State) (x : PowerAnswers) : (afterPower x s).pullupEn = s.pullupEn := by
  simp [afterPower]

@[simp] theorem afterPower_latch (s : State) (x : PowerAnswers) : (afterPower x s).latch = s.latch := by
  simp [afterPower]

@[simp] theorem afterPower_ctc (s : State) (x : PowerAnswers) : (afterPower x s).ctc = s.ctc := by
  simp [afterPower]

@[simp] theorem afterPower_hostRd (s : State) (x : PowerAnswers) : (afterPower x s).hostRd = s.hostRd := by
  simp [afterPower]

@[simp] theorem afterPower_failKind (s : State) (x : PowerAnswers) : (afterPower x s).failKind = s.failKind := by
  simp [afterPower]

@[simp] theorem afterPower_env (s : State) (x : PowerAnswers) : (afterPower x s).env = s.env := by
  simp [afterPower]

@[simp] theorem afterPower_params (s : State) (x : PowerAnswers) : (afterPower x s).params = s.params := by
  simp [afterPower]

@[simp] theorem afterPower_args (s : State) (x : PowerAnswers) : (afterPower x s).args = s.args := by
  simp [afterPower]

@[simp] theorem afterPower_count (s : State) (x : PowerAnswers) : (afterPower x s).count = s.count := by
  simp [afterPower]

@[simp] theorem afterPower_reg (s : State) (x : PowerAnswers) : (afterPower x s).reg = s.reg := by
  simp [afterPower]

@[simp] theorem afterPower_out (s : State) (x : PowerAnswers) (h : x.reset.rflag = true) :
    (afterPower x s).out = s.out := by
  simp [afterPower]

@[simp] theorem afterPower_tmp (s : State) (x : PowerAnswers) (h : x.reset.rflag = true) :
    (afterPower x s).tmp = { s.tmp with ok := true, ext := x.slot.rflag } := by
  simp [afterPower, h]

@[simp] theorem afterPower_bus (s : State) (x : PowerAnswers) (h : x.reset.rflag = true) :
    (afterPower x s).bus = { req := false, op := 4, wbyte := 0xB4, waddr := pack64 s.latch.addr, flag := false } := by
  simp [afterPower, h, encode]

@[simp] theorem afterPower_seq (s : State) (x : PowerAnswers) (h : x.reset.rflag = true) :
    (afterPower x s).seq = { s.seq with step := s.seq.step + 4 } := by
  simp [afterPower, h]

@[simp] theorem afterPower_trace (s : State) (x : PowerAnswers) (h : x.reset.rflag = true) :
    (afterPower x s).trace = s.trace ++ x.trace s.latch.addr := by
  simp [afterPower, h, PowerAnswers.trace, encode]

/-- The CRC test of a scratchpad read (R121). -/
theorem advance_checkCrc (t : List Micro) (s : State) : advance .running (.checkCrc :: t) s =
    if spValid s.params.crc s.out.sp then advance .running t s.succeed else advance .failing t (s.raise .crc) := rfl

/-- A scratchpad read that finds presence (R121): all nine bytes are read, then the CRC is tested once. -/
theorem feed_spRead_present (x : ReadAnswers) (h : x.reset.rflag = true) (t : List Micro) (es : List Event) (s :
    State) :
    feed (x.events ++ es) (s.goto (spRead ++ t)) =
      feed es (if spValid s.params.crc x.sp then advance .running t (afterRead x s)
        else advance .failing t ((afterRead x s).raise .crc)) := by
  have hs : (afterRead x s).succeed = afterRead x s := by
    have := afterRead_tmp s x h
    simp only [State.succeed, this]
    conv => rhs; rw [show afterRead x s = { afterRead x s with tmp := (afterRead x s).tmp } from rfl, this]
  have ho : (afterRead x s).out.sp = x.sp := by rw [afterRead_out s x h]
  have := feed_head_present .readScratchpad ⟨x.reset, x.select, x.command⟩ h (.checkCrc :: t)
    (.ack x.bytes[0] :: .ack x.bytes[1] :: .ack x.bytes[2] :: .ack x.bytes[3] :: .ack x.bytes[4] :: .ack x.bytes[5] ::
      .ack x.bytes[6] :: .ack x.bytes[7] :: .ack x.bytes[8] :: es) s
  rw [behind_readScratchpad, advance_bus (.read 0) rfl (by decide), feed_nineReads, ← afterRead, advance_checkCrc,
    afterRead_params, hs, ho] at this
  exact this

/-! ## The assisted wait -/

/-- The counter set to `c`. -/
def setCnt (s : State) (c : BitVec 10) : State :=
  { s with ctc := { s.ctc with cnt := c } }

theorem waitTicks_bounds (w : WaitFor) (t : Scratch) : 0 < waitTicks w t ∧ waitTicks w t < 1024 := by
  cases w
  · simp only [waitTicks, tConv]
    repeat' split
    all_goals omega
  · simp [waitTicks, Config.tEeprom]

theorem advance_waiting (n : Nat) (t : List Micro) (s : State) : advance .running (.waiting n :: t) s =
    if s.ctc.cnt = 0 then advance .running t (closeAssist s n) else s.goto (.waiting n :: t) := rfl

/-- One tick inside a wait (R43, R226). -/
theorem feed_tick (n : Nat) (es : List Event) (t : List Micro) (s : State) (h0 : s.ctc.cnt ≠ 0)
    (hr : s.ctc.run = true) : feed (.tick :: es) (s.goto (.waiting n :: t)) =
      feed es (advance .running (.waiting n :: t) (setCnt s (s.ctc.cnt - 1))) := by
  have hq : request (s.goto (.waiting n :: t)) = s.goto (.waiting n :: t) := rfl
  rw [feed, if_neg (by simp [Event.ofHost]), hq, accept, acceptTick, if_pos (by simpa [hr] using h0)]
  exact congrArg (feed es) (settle_goto (setCnt s (s.ctc.cnt - 1)) (.waiting n :: t))

/-- Fewer ticks than are left count down and leave SEQ in the wait. -/
theorem feed_ticks_inside (n k : Nat) (es : List Event) (t : List Micro) (s : State) (hk : k < s.ctc.cnt.toNat)
    (hr : s.ctc.run = true) : feed (ticks k ++ es) (s.goto (.waiting n :: t)) =
      feed es ((setCnt s (s.ctc.cnt - BitVec.ofNat 10 k)).goto (.waiting n :: t)) := by
  induction k generalizing s with
  | zero => simp [ticks, setCnt]
  | succ k ih =>
    have hlt := s.ctc.cnt.isLt
    have h0 : s.ctc.cnt ≠ 0 := by
      intro h; rw [h] at hk; simp at hk
    have h1 : (s.ctc.cnt - 1).toNat = s.ctc.cnt.toNat - 1 := by
      rw [BitVec.toNat_sub]; simp; omega
    have h2 : s.ctc.cnt - 1 ≠ 0 := by
      intro h; rw [h] at h1; simp at h1; omega
    have h3 : s.ctc.cnt - 1 - BitVec.ofNat 10 k = s.ctc.cnt - BitVec.ofNat 10 (k + 1) := by
      apply BitVec.eq_of_toNat_eq
      simp only [BitVec.toNat_sub, BitVec.toNat_ofNat] at h1 ⊢
      omega
    have hl : ticks (k + 1) ++ es = .tick :: (ticks k ++ es) := by simp [ticks, List.replicate_succ]
    rw [hl, feed_tick n _ t s h0 hr, advance_waiting, if_neg (by simpa [setCnt] using h2),
      ih (setCnt s (s.ctc.cnt - 1)) (by simp only [setCnt, h1]; omega) hr]
    simp only [setCnt, h3]

/-- As many ticks as are left end the wait (R226). -/
theorem feed_ticks_end (n : Nat) (es : List Event) (t : List Micro) (s : State) (h0 : s.ctc.cnt ≠ 0)
    (hr : s.ctc.run = true) : feed (ticks s.ctc.cnt.toNat ++ es) (s.goto (.waiting n :: t)) =
      feed es (advance .running t (closeAssist (setCnt s 0) n)) := by
  have hlt := s.ctc.cnt.isLt
  have hpos : s.ctc.cnt.toNat ≠ 0 := by
    intro h; apply h0; apply BitVec.eq_of_toNat_eq; simpa using h
  obtain ⟨k, hk⟩ : ∃ k, s.ctc.cnt.toNat = k + 1 := ⟨s.ctc.cnt.toNat - 1, by omega⟩
  have h1 : s.ctc.cnt - BitVec.ofNat 10 k - 1 = 0 := by
    apply BitVec.eq_of_toNat_eq
    simp only [BitVec.toNat_sub, BitVec.toNat_ofNat]
    simp
    omega
  have h2 : s.ctc.cnt - BitVec.ofNat 10 k ≠ 0 := by
    intro h; rw [h] at h1; simp at h1
  have hl : ticks (k + 1) ++ es = ticks k ++ (.tick :: es) := by
    simp only [ticks, List.replicate_succ', List.append_assoc, List.singleton_append]
  rw [hk, hl, feed_ticks_inside n k _ t s (by omega) hr,
    feed_tick n es t (setCnt s (s.ctc.cnt - BitVec.ofNat 10 k)) h2 hr, advance_waiting, if_pos (by exact h1)]
  simp only [setCnt, h1]

/-- What an assisted wait leaves once its ticks have come (R145, R226). -/
def afterAssist (n : Nat) (s : State) : State :=
  closeAssist (setCnt (openAssist s n) 0) n

theorem assistDrives_openAssist (s : State) (n : Nat) : assistDrives (openAssist s n) = assistDrives s := by
  simp only [openAssist]; split <;> rfl

/-- An assisted wait with exactly its ticks (R145, R226). -/
theorem feed_assist (w : WaitFor) (t : List Micro) (es : List Event) (s : State) :
    feed (ticks (waitTicks w s.tmp) ++ es) (advance .running (.assist w :: t) s) =
      feed es (advance .running t (afterAssist (waitTicks w s.tmp) s)) := by
  have hb := waitTicks_bounds w s.tmp
  generalize hn : waitTicks w s.tmp = n at hb
  have hc : (openAssist s n).ctc = { cnt := BitVec.ofNat 10 n, run := true } := by
    simp only [openAssist]
  have h1 : (openAssist s n).ctc.cnt.toNat = n := by
    rw [hc]; simp; omega
  have h2 : (openAssist s n).ctc.cnt ≠ 0 := by
    intro h; rw [h] at h1; simp at h1; omega
  have := feed_ticks_end n es t (openAssist s n) h2 (by rw [hc])
  rw [h1] at this
  rw [afterAssist, ← this, ← hn]
  rfl

@[simp] theorem afterAssist_cmd (s : State) (n : Nat) : (afterAssist n s).cmd = s.cmd := by
  simp only [afterAssist, closeAssist, setCnt, openAssist]
  repeat' split
  all_goals rfl

@[simp] theorem afterAssist_pullupEn (s : State) (n : Nat) : (afterAssist n s).pullupEn = s.pullupEn := by
  simp only [afterAssist, closeAssist, setCnt, openAssist]
  repeat' split
  all_goals rfl

@[simp] theorem afterAssist_args (s : State) (n : Nat) : (afterAssist n s).args = s.args := by
  simp only [afterAssist, closeAssist, setCnt, openAssist]
  repeat' split
  all_goals rfl

@[simp] theorem afterAssist_out (s : State) (n : Nat) : (afterAssist n s).out = s.out := by
  simp only [afterAssist, closeAssist, setCnt, openAssist]
  repeat' split
  all_goals rfl

@[simp] theorem afterAssist_count (s : State) (n : Nat) : (afterAssist n s).count = s.count := by
  simp only [afterAssist, closeAssist, setCnt, openAssist]
  repeat' split
  all_goals rfl

@[simp] theorem afterAssist_reg (s : State) (n : Nat) : (afterAssist n s).reg = s.reg := by
  simp only [afterAssist, closeAssist, setCnt, openAssist]
  repeat' split
  all_goals rfl

@[simp] theorem afterAssist_latch (s : State) (n : Nat) : (afterAssist n s).latch = s.latch := by
  simp only [afterAssist, closeAssist, setCnt, openAssist]
  repeat' split
  all_goals rfl

@[simp] theorem afterAssist_tmp (s : State) (n : Nat) : (afterAssist n s).tmp = s.tmp := by
  simp only [afterAssist, closeAssist, setCnt, openAssist]
  repeat' split
  all_goals rfl

@[simp] theorem afterAssist_bus (s : State) (n : Nat) : (afterAssist n s).bus = s.bus := by
  simp only [afterAssist, closeAssist, setCnt, openAssist]
  repeat' split
  all_goals rfl

@[simp] theorem afterAssist_hostRd (s : State) (n : Nat) : (afterAssist n s).hostRd = s.hostRd := by
  simp only [afterAssist, closeAssist, setCnt, openAssist]
  repeat' split
  all_goals rfl

@[simp] theorem afterAssist_failKind (s : State) (n : Nat) : (afterAssist n s).failKind = s.failKind := by
  simp only [afterAssist, closeAssist, setCnt, openAssist]
  repeat' split
  all_goals rfl

@[simp] theorem afterAssist_env (s : State) (n : Nat) : (afterAssist n s).env = s.env := by
  simp only [afterAssist, closeAssist, setCnt, openAssist]
  repeat' split
  all_goals rfl

@[simp] theorem afterAssist_params (s : State) (n : Nat) : (afterAssist n s).params = s.params := by
  simp only [afterAssist, closeAssist, setCnt, openAssist]
  repeat' split
  all_goals rfl

@[simp] theorem afterAssist_ctc (s : State) (n : Nat) : (afterAssist n s).ctc = { cnt := 0, run := false } := by
  simp only [afterAssist, closeAssist, setCnt, openAssist]
  repeat' split
  all_goals rfl

/-- The pin is 0 after an assisted wait that found it 0 (R145). -/
@[simp] theorem afterAssist_status (s : State) (n : Nat) (h : s.status.pullup = false) :
    (afterAssist n s).status = s.status := by
  have he : { s.status with pullup := false } = s.status := by rw [← h]
  by_cases hd : assistDrives s
  · have : assistDrives (setCnt (openAssist s n) 0) = true := by
      rw [← hd, ← assistDrives_openAssist s n]; rfl
    rw [← he]
    simp only [afterAssist, closeAssist]
    rw [if_pos (by exact this)]
    simp only [openAssist, hd, if_true]
    rfl
  · have : assistDrives (setCnt (openAssist s n) 0) = false := by
      rw [← Bool.not_eq_true, ← assistDrives_openAssist s n] at *; exact hd
    simp only [afterAssist, closeAssist]
    rw [if_neg (by rw [← Bool.not_eq_true] at this; exact this)]
    simp only [openAssist, hd]
    rfl

/-- The events of an assisted wait (R145). -/
@[simp] theorem afterAssist_trace (s : State) (n : Nat) :
    (afterAssist n s).trace = s.trace ++ assistTrace (assistDrives s) n := by
  by_cases hd : assistDrives s
  · have : assistDrives (setCnt (openAssist s n) 0) = true := by
      rw [← hd, ← assistDrives_openAssist s n]; rfl
    simp only [afterAssist, closeAssist]
    rw [if_pos (by exact this)]
    simp [openAssist, hd, setCnt, assistTrace]
  · have : assistDrives (setCnt (openAssist s n) 0) = false := by
      rw [← Bool.not_eq_true, ← assistDrives_openAssist s n] at *; exact hd
    simp only [afterAssist, closeAssist]
    rw [if_neg (by rw [← Bool.not_eq_true] at this; exact this)]
    simp [openAssist, hd, setCnt, assistTrace]

/-- `SEQ.STEP` after an assisted wait counts its events. -/
@[simp] theorem afterAssist_seq (s : State) (n : Nat) :
    (afterAssist n s).seq = { s.seq with step := s.seq.step + (if assistDrives s then 3 else 1) } := by
  by_cases hd : assistDrives s
  · have : assistDrives (setCnt (openAssist s n) 0) = true := by
      rw [← hd, ← assistDrives_openAssist s n]; rfl
    simp only [afterAssist, closeAssist]
    rw [if_pos (by exact this)]
    simp [openAssist, hd, setCnt]
  · have : assistDrives (setCnt (openAssist s n) 0) = false := by
      rw [← Bool.not_eq_true, ← assistDrives_openAssist s n] at *; exact hd
    simp only [afterAssist, closeAssist]
    rw [if_neg (by rw [← Bool.not_eq_true] at this; exact this)]
    simp [openAssist, hd, setCnt]

end Sys2Proof.Machine
end

