-- ==== Sys2Proof/Laws/Engine.lean ====
section
/-! SUPPORT. What holds of every run of SEQ, whatever the ports answer: how a step reaches the engine; `Kept`,
    a property of
states that every move of a procedure keeps; `Sim`, a relation between two runs that every move keeps. -/

namespace Sys2Proof.Machine

/-! ## From a step to the engine -/

/-- SEQ's turn: an operation is in progress and no host event is next. -/
theorem nextTurn_seq (s : State) (hb : s.status.busy = true) (h : ∀ e, s.env.head? = some e → e.ofHost = false) :
    nextTurn s = .seq := by
  unfold nextTurn
  split
  · simp [hb]
  · next e es he => simp [h e (by simp [he]), hb]

/-- Standing where one stands changes nothing. -/
theorem goto_self (s : State) (p : List Micro) (h : s.seq.todo = p) : s.goto p = s := by
  subst h; rfl

/-- A step at a primitive that is no wire command: the events run from there. -/
theorem step_inside_bus (s : State) (m : Micro) (p : List Micro) (hb : s.status.busy = true) (ht :
    s.seq.todo = m :: p) (hm : m.isBus = true)
    (hd : m ≠ .discover) (hw : ∀ b, m ≠ .cmd b) (hh : ∀ e, s.env.head? = some e → e.ofHost = false) :
        step s = .next (feed s.env (s.goto (m :: p))) := by
  have h1 : nextTurn s = .seq := by
    unfold nextTurn
    cases h : s.env with
    | nil => simp [hb]
    | cons e es => have := hh e (by simp [h]); simp [hb, this]
  have h2 : fetch s = none := by
    unfold fetch position
    rw [ht]
    cases m <;> first | rfl | exact absurd rfl (hw _) | cases hm
  unfold step
  rw [h1, h2]
  simp only [seqTurn, ht, List.isEmpty_cons, Bool.false_eq_true, if_false]
  unfold resume settle
  rw [ht, advance_bus m hm hd]
  rfl

/-- A failure with no fallback of R141 on its way reaches the end of the operation (R214). -/
theorem skip_to_finish (r : ResultKind) : ∀ (q : List Micro) (c : Course) (s : State), c ≠ .running → .resolve ∉ q →
    (∀ k, .finish k ∉ q) →
    advance c (q ++ [.finish r]) s = s.finish r := by
  intro q
  induction q with
  | nil => intro c s hc _ _; cases c <;> first | rfl | exact absurd rfl hc
  | cons m t ih =>
    intro c s hc h1 h2
    simp only [List.mem_cons, not_or] at h1 h2
    have h3 : ∀ k, .finish k ∉ t := fun k => (h2 k).2
    cases c with
    | running => exact absurd rfl hc
    | failing =>
      cases m <;> first
        | exact ih .failing s (by decide) h1.2 h3
        | exact ih .passing s (by decide) h1.2 h3
        | exact absurd rfl h1.1
        | exact absurd rfl (h2 _).1
    | passing =>
      cases m <;> first | exact ih .passing s (by decide) h1.2 h3 | exact absurd rfl h1.1 | exact absurd rfl (h2 _).1

/-- An operation ends with no procedure left. -/
theorem todo_of_finish (s : State) (r : ResultKind) : (s.finish r).seq.todo = [] := by
  cases r <;> simp only [State.finish] <;> split <;> rfl

/-- A request does not move SEQ. -/
theorem requestOf_todo (m : Micro) (s : State) : (requestOf m s).seq.todo = s.seq.todo := by rw [requestOf_seq]

/-- A request made twice is made once. -/
theorem request_request (s : State) : request (request s) = request s := by
  unfold request
  cases ht : s.seq.todo with
  | nil => dsimp only; rw [ht]
  | cons m t => dsimp only; rw [requestOf_seq, ht]; cases m <;> rfl

/-- A request already made does not change the run. -/
theorem feed_request (es : List Event) (s : State) (h : ∀ e', es.head? = some e' → e'.ofHost = false) (ht :
    s.seq.todo ≠ []) : feed es (request s) = feed es s := by
  cases es with
  | nil => simp only [feed, request_request]
  | cons e es =>
    have hh := h e rfl
    have e1 : (request s).seq.todo = s.seq.todo := by unfold request; split <;> first | rfl | (rw [requestOf_seq])
    simp only [feed, request_request, e1]
    have : (s.seq.todo.isEmpty || e.ofHost) = false := by cases hs : s.seq.todo <;> simp_all
    rw [if_neg (by rw [this]; decide), if_neg (by rw [this]; decide)]

/-- The byte of a wire command. -/
theorem wire_decode (b : Byte) (i : Instr) (h : decodeWire b = .instr i) : wire i = .cmd b ∧
    (decodeWire b).toOption.isSome = true := by
  refine ⟨?_, by rw [h]; rfl⟩
  have : ∀ (b : Byte), (match (decodeWire b).toOption with | some i => encode i == b | none => true) = true := by decide
  have hb := this b
  rw [h] at hb
  have hb : encode i = b := by simpa [Decoded.toOption] using hb
  show Micro.cmd (encode i) = _
  rw [hb]

/-- A decoded wire command runs by `runWire`. -/
theorem exec_wire (c : Byte) (i : Instr) (h : decodeWire c = .instr i) (s : State) : exec i s = .next (runWire i s) :=
    by
  have : ∀ (b : Byte),
      (match (decodeWire b).toOption with | some i => i.format == .wire8 | none => true) = true := by decide
  have hb := this c
  rw [h] at hb
  cases i <;> first | rfl | cases hb

/-- What the host decoder gives is a host operation. -/
theorem host_format (c : Byte) (i : Instr) (h : decodeHost c = .instr i) : i.format = .host8 := by
  have : ∀ (b : Byte),
      (match (decodeHost b).toOption with | some i => i.format == .host8 | none => true) = true := by decide
  have hb := this c
  rw [h] at hb; simpa [Decoded.toOption] using hb

/-- The run of a wire command, by its byte. -/
theorem runWire_feed (c : Byte) (i : Instr) (h : decodeWire c = .instr i) (s : State) : runWire i s = 
    (let t := feed s.env (s.goto [.cmd c])
     if t.seq.todo.isEmpty then advance .running s.seq.todo.tail t
     else t.goto (t.seq.todo ++ s.seq.todo.tail)) := by
  unfold runWire; rw [(wire_decode c i h).1, runProc_bus (.cmd c) rfl (by intro hh; cases hh)]

/-- The same, from the state it ends in. -/
theorem runWire_done (i : Instr) (s u : State) (h : runProc [wire i] s = u) (hu : u.seq.todo = []) :
    runWire i s = advance .running s.seq.todo.tail u := by
  unfold runWire
  rw [h]
  simp [hu]

/-- A wire command whose data phase ends within the events. -/
theorem runWire_of_feed (i : Instr) (s X : State) (es : List Event) (h :
    feed s.env (s.goto [wire i]) = feed es (advance .running [] X)) :
    runWire i s = advance .running s.seq.todo.tail { X.goto [] with env := es } := by
  apply runWire_done
  · rw [runProc_bus (wire i) rfl (by simp [wire]), h]
    exact feed_ended _ _ rfl
  · rfl

/-- What a data phase is made of (R93). -/
theorem dataPhase_cases (b : Byte) (m : Micro) (h : m ∈ dataPhase b) : (b = 0xBE ∧ ∃ i, m = .read i) ∨ (∃ w,
    m = .write w) ∨ m = .assist .eeprom ∧ b = 0x48 ∨ m = .readBit := by
  revert m
  have : ∀ b : Byte, b = 0xBE ∨ (∀ m ∈ dataPhase b, m = .write .th ∨ m = .write .tl ∨ m = .write .cfg ∨
      m = .assist .eeprom ∧ b = 0x48 ∨ m = .readBit) := by decide
  intro m hm
  rcases this b with h | h
  · left; refine ⟨h, ?_⟩; subst h
    have : dataPhase 0xBE = nineReads := rfl
    rw [this] at hm
    simp [nineReads] at hm
    rcases hm with h | h | h | h | h | h | h | h | h <;> exact ⟨_, h⟩
  · rcases h m hm with h | h | h | h | h
    · exact Or.inr (Or.inl ⟨_, h⟩)
    · exact Or.inr (Or.inl ⟨_, h⟩)
    · exact Or.inr (Or.inl ⟨_, h⟩)
    · exact Or.inr (Or.inr (Or.inl h))
    · exact Or.inr (Or.inr (Or.inr h))

/-! ## A property every move keeps -/

/-- `P` survives every move of a procedure whose moves satisfy `Q`, and `Q` the moves the engine adds. -/
structure Kept (Q : Micro → Prop) (P : State → Prop) : Prop where
  tmp : ∀ s x, P s → P { s with tmp := x }
  failKind : ∀ s x, P s → P { s with failKind := x }
  goto : ∀ s p, P s → P (s.goto p)
  env : ∀ s e, P s → P { s with env := e }
  openAssist : ∀ s w, Q (.assist w) → P s → P (openAssist s (waitTicks w s.tmp))
  closeAssist : ∀ s n, Q (.waiting n) → P s → P (closeAssist s n)
  finish : ∀ s r, Q (.finish r) → P s → P (s.finish r)
  request : ∀ m s, Q m → P s → P (requestOf m s)
  effect : ∀ m a s, Q m → m.isBus = true → P s → P (effect m a (lower s))
  tick : ∀ s, s.ctc.run = true → P s → P { s with ctc := { s.ctc with cnt := s.ctc.cnt - 1 } }
  qWaiting : ∀ w n, Q (.assist w) → Q (.waiting n)
  qFail : ∀ k, Q (.fail k)
  qData : ∀ b m, Q (.cmd b) → m ∈ dataPhase b → Q m

theorem Kept.succeed {Q P} (h : Kept Q P) (s : State) (hs : P s) : P s.succeed := h.tmp s _ hs
theorem Kept.raise {Q P} (h : Kept Q P) (s : State) (k : FailKind) (hs : P s) : P (s.raise k) :=
    h.failKind _ (some k) (h.tmp s { s.tmp with ok := false } hs)

theorem goto_all {Q : Micro → Prop} (s : State) (p : List Micro) (h : ∀ m ∈ p, Q m) : ∀ m ∈ (s.goto p).seq.todo,
    Q m := h

theorem Kept.advance {Q P} (h : Kept Q P) : ∀ (p : List Micro) (c : Course) (s : State), (∀ m ∈ p, Q m) → P s →
    P (advance c p s) ∧ ∀ m ∈ (advance c p s).seq.todo, Q m := by
  intro p
  induction p with
  | nil => intro c s _ hs; exact ⟨h.goto s [] hs, by intro m hm; simp [Sys2Proof.Machine.advance] at hm⟩
  | cons m t ih =>
    intro c s hq hs
    have hm := hq m (by simp)
    have ht : ∀ x ∈ t, Q x := fun x hx => hq x (by simp [hx])
    simp only [Sys2Proof.Machine.advance]
    cases c.skips m with
    | some c => exact ih _ _ ht hs
    | none =>
    cases m with
    | fail k => exact ih _ _ ht (h.raise s k hs)
    | checkCrc => dsimp only; split <;> exact ih _ _ ht (by first | exact h.succeed s hs | exact h.raise s _ hs)
    | checkEcho => dsimp only; split <;> exact ih _ _ ht (by first | exact h.succeed s hs | exact h.raise s _ hs)
    | loadArgs => exact ih _ _ ht (h.tmp s _ hs)
    | loadRes => exact ih _ _ ht (h.tmp s _ hs)
    | loadAlarms => exact ih _ _ ht (h.tmp s _ hs)
    | getRes => exact ih _ _ ht hs
    | resolve => dsimp only; split <;> exact ih _ _ ht (h.tmp s _ hs)
    | assist w =>
      refine ⟨h.goto _ _ (h.openAssist s w hm hs), ?_⟩
      intro x hx
      rcases List.mem_cons.1 hx with rfl | hx
      · exact h.qWaiting w _ hm
      · exact ht x hx
    | waiting n =>
      dsimp only; split
      · exact ih _ _ ht (h.closeAssist s n hm hs)
      · exact ⟨h.goto _ _ hs, hq⟩
    | discover =>
      dsimp only; split
      · exact ⟨h.goto _ _ hs, hq⟩
      · exact ih _ _ ht hs
    | finish r =>
      refine ⟨h.finish s r hm hs, ?_⟩
      intro x hx
      simp only [todo_of_finish] at hx
      simp at hx
    | _ => exact ⟨h.goto _ _ hs, hq⟩

theorem Kept.behind {Q P} (h : Kept Q P) (f : CrcFunction) (m : Micro) (a : Answer) (t : List Micro) (hm : Q m) (ht : ∀ x ∈ t, Q x) :
    ∀ x ∈ behind f m a t, Q x := by
  intro x hx
  cases m with
  | cmd b =>
    simp only [Sys2Proof.Machine.behind] at hx
    rcases List.mem_append.1 hx with hx | hx
    · exact h.qData b x hm hx
    · exact ht x hx
  | reset =>
    simp only [Sys2Proof.Machine.behind] at hx
    split at hx
    · exact ht x hx
    · rcases List.mem_cons.1 hx with rfl | hx
      · exact h.qFail _
      · exact ht x hx
  | discover =>
    simp only [Sys2Proof.Machine.behind] at hx
    split at hx
    · rcases List.mem_cons.1 hx with rfl | hx
      · exact hm
      · exact ht x hx
    · exact ht x hx
  | alarmSearch =>
    simp only [Sys2Proof.Machine.behind] at hx
    split at hx
    · split at hx
      · exact ht x hx
      · rcases List.mem_cons.1 hx with rfl | hx
        · exact h.qFail _
        · exact ht x hx
    · rcases List.mem_cons.1 hx with rfl | hx
      · exact h.qFail _
      · exact ht x hx
  | _ => exact ht x hx


theorem Kept.requestKept {Q P} (h : Kept Q P) (s : State) (hq : ∀ m ∈ s.seq.todo, Q m) (hs : P s) :
    P (Sys2Proof.Machine.request s) ∧ (Sys2Proof.Machine.request s).seq.todo = s.seq.todo := by
  unfold Sys2Proof.Machine.request
  cases ht : s.seq.todo with
  | nil => exact ⟨hs, ht⟩
  | cons m t => exact ⟨h.request m s (hq m (by simp [ht])) hs, by rw [requestOf_todo, ht]⟩

theorem Kept.accept {Q P} (h : Kept Q P) (s : State) (e : Event) (hq : ∀ m ∈ s.seq.todo, Q m) (hs : P s) :
    P (accept s e) ∧ ∀ m ∈ (accept s e).seq.todo, Q m := by
  cases e with
  | ack a =>
    simp only [Sys2Proof.Machine.accept, acceptAck]
    cases ht : s.seq.todo with
    | nil => exact ⟨hs, by simp [ht]⟩
    | cons m t =>
      dsimp only
      split
      · rename_i hb
        have hm := hq m (by simp [ht])
        exact h.advance _ _ _ (h.behind _ m a t hm (fun x hx => hq x (by simp [ht,
            hx]))) (h.goto _ _ (h.effect m a s hm hb hs))
      · exact ⟨hs, hq⟩
  | tick =>
    simp only [Sys2Proof.Machine.accept, acceptTick]
    split
    · rename_i hr
      simp only [Bool.and_eq_true] at hr
      exact h.advance _ _ _ hq (h.tick s hr.1 hs)
    · exact ⟨hs, hq⟩
  | _ => exact ⟨hs, hq⟩

theorem Kept.feed {Q P} (h : Kept Q P) : ∀ (es : List Event) (s : State), (∀ m ∈ s.seq.todo, Q m) → P s →
    P (feed es s) ∧ ∀ m ∈ (feed es s).seq.todo, Q m := by
  intro es
  induction es with
  | nil =>
    intro s hq hs
    have := h.requestKept s hq hs
    exact ⟨h.env _ [] this.1, fun m hm => hq m (this.2 ▸ hm)⟩
  | cons e es ih =>
    intro s hq hs
    rw [Sys2Proof.Machine.feed]
    split
    · exact ⟨h.env _ _ hs, hq⟩
    · have h1 := h.requestKept s hq hs
      have h2 := h.accept _ e (fun m hm => hq m (h1.2 ▸ hm)) h1.1
      exact ih _ h2.2 h2.1

theorem Kept.resume {Q P} (h : Kept Q P) (s : State) (hq : ∀ m ∈ s.seq.todo, Q m) (hs : P s) : P (resume s) ∧
    ∀ m ∈ (resume s).seq.todo, Q m := by
  have h1 := h.advance s.seq.todo .running s hq hs
  exact h.feed _ _ h1.2 h1.1

theorem Kept.runProc {Q P} (h : Kept Q P) (p : List Micro) (s : State) (hq : ∀ m ∈ p, Q m) (hs : P s) :
    P (runProc p s) ∧ ∀ m ∈ (runProc p s).seq.todo, Q m :=
  h.resume _ hq (h.goto s p hs)

theorem Kept.runWire {Q P} (h : Kept Q P) (i : Instr) (s : State) (hi : Q (wire i)) (hq : ∀ m ∈ s.seq.todo, Q m) (hs :
    P s) : P (runWire i s) := by
  have h1 := h.runProc [wire i] s (by simpa using hi) hs
  have ht : ∀ m ∈ s.seq.todo.tail, Q m := fun m hm => hq m (List.mem_of_mem_tail hm)
  unfold Sys2Proof.Machine.runWire
  dsimp only
  split
  · exact (h.advance _ _ _ ht h1.1).1
  · exact h.goto _ _ h1.1

/-! ## A relation every move keeps -/

/-- `R` relates states that agree on what SEQ reads, and survives every move on both sides; the events to come need not
agree. -/
structure Sim (R : State → State → Prop) : Prop where
  todo : ∀ s t, R s t → s.seq.todo = t.seq.todo
  sp : ∀ s t, R s t → s.out.sp = t.out.sp
  tmpEq : ∀ s t, R s t → s.tmp = t.tmp
  latch : ∀ s t, R s t → s.latch = t.latch
  params : ∀ s t, R s t → s.params = t.params
  ctc : ∀ s t, R s t → s.ctc = t.ctc
  count : ∀ s t, R s t → s.count = t.count
  tmp : ∀ s t x, R s t → R { s with tmp := x } { t with tmp := x }
  raise : ∀ s t k, R s t → R (s.raise k) (t.raise k)
  goto : ∀ s t p, R s t → R (s.goto p) (t.goto p)
  env : ∀ s t e, R s t → R { s with env := e } { t with env := e }
  openAssist : ∀ s t n, R s t → R (openAssist s n) (openAssist t n)
  closeAssist : ∀ s t n, R s t → R (closeAssist s n) (closeAssist t n)
  finish : ∀ s t r, R s t → R (s.finish r) (t.finish r)
  request : ∀ m s t, R s t → R (requestOf m s) (requestOf m t)
  effect : ∀ m a s t, R s t → R (effect m a (lower s)) (effect m a (lower t))
  tick : ∀ s t c, R s t → R { s with ctc := c } { t with ctc := c }

theorem Sim.advance {R} (h : Sim R) : ∀ (p : List Micro) (c : Course) (s t : State), R s t →
    R (advance c p s) (advance c p t) := by
  intro p
  induction p with
  | nil => intro c s t hs; exact h.goto _ _ [] hs
  | cons m q ih =>
    intro c s t hs
    have e1 := h.sp _ _ hs
    have e2 := h.tmpEq _ _ hs
    have e3 := h.latch _ _ hs
    have e4 := h.params _ _ hs
    have e5 := h.ctc _ _ hs
    have e6 := h.count _ _ hs
    have hsucc : R s.succeed t.succeed := by unfold State.succeed; rw [← e2]; exact h.tmp _ _ _ hs
    have tmp' : ∀ x y, x = y → R { s with tmp := x } { t with tmp := y } :=
        fun x y e => by subst e; exact h.tmp _ _ _ hs
    simp only [Sys2Proof.Machine.advance]
    cases c.skips m with
    | some c => exact ih _ _ _ hs
    | none =>
    cases m with
    | fail k => exact ih _ _ _ (h.raise _ _ k hs)
    | checkCrc => dsimp only; rw [← e1, ← e4]; split <;> exact ih _ _ _ (by first | exact hsucc | exact h.raise _ _ _ hs)
    | checkEcho =>
      dsimp only
      rw [← e1, ← e2]
      split <;> exact ih _ _ _ (by first | exact hsucc | exact h.raise _ _ _ hs)
    | loadArgs => exact ih _ _ _ (tmp' _ _ (by rw [e2, e3]))
    | loadRes => exact ih _ _ _ (tmp' _ _ (by simp only [e2, e3, e1, e4]))
    | loadAlarms => exact ih _ _ _ (tmp' _ _ (by simp only [e2, e3, e1]))
    | getRes => exact ih _ _ _ hs
    | resolve => 
      have hc : (!t.tmp.ok && t.params.abortOnResFail) = (!s.tmp.ok && s.params.abortOnResFail) := by rw [e2, e4]
      dsimp only; rw [hc]; split
      · exact ih _ _ _ (tmp' _ _ (by rw [e2]))
      · exact ih _ _ _ (tmp' _ _ (by simp only [e2, e1, e4]))
    | assist w => dsimp only; rw [← e2]; exact h.goto _ _ _ (h.openAssist _ _ _ hs)
    | waiting n =>
      dsimp only; rw [← e5]; split
      · exact ih _ _ _ (h.closeAssist _ _ n hs)
      · exact h.goto _ _ _ hs
    | discover =>
      dsimp only; rw [← e6, ← e4]; split
      · exact h.goto _ _ _ hs
      · exact ih _ _ _ hs
    | finish r => exact h.finish _ _ r hs
    | _ => exact h.goto _ _ _ hs

theorem Sim.requestKept {R} (h : Sim R) (s t : State) (hs : R s t) :
    R (Sys2Proof.Machine.request s) (Sys2Proof.Machine.request t) := by
  unfold Sys2Proof.Machine.request
  rw [← h.todo _ _ hs]
  split
  · exact hs
  · exact h.request _ _ _ hs

theorem Sim.settle {R} (h : Sim R) (s t : State) (hs : R s t) : R (settle s) (settle t) := by
  unfold Sys2Proof.Machine.settle
  rw [← h.todo _ _ hs]
  exact h.advance _ _ _ _ hs

theorem Sim.accept {R} (h : Sim R) (s t : State) (e : Event) (hs : R s t) : R (accept s e) (accept t e) := by
  cases e with
  | ack a =>
    simp only [Sys2Proof.Machine.accept, acceptAck]
    rw [← h.todo _ _ hs, ← h.params _ _ hs]
    split
    · exact hs
    · split
      · exact h.settle _ _ (h.goto _ _ _ (h.effect _ _ _ _ hs))
      · exact hs
  | tick =>
    simp only [Sys2Proof.Machine.accept, acceptTick]
    rw [← h.ctc _ _ hs]
    split
    · exact h.settle _ _ (h.tick _ _ _ hs)
    · exact hs
  | _ => exact hs

theorem Sim.feed {R} (h : Sim R) : ∀ (es : List Event) (s t : State), R s t → R (feed es s) (feed es t) := by
  intro es
  induction es with
  | nil => intro s t hs; exact h.env _ _ [] (h.requestKept _ _ hs)
  | cons e es ih =>
    intro s t hs
    rw [Sys2Proof.Machine.feed, Sys2Proof.Machine.feed, ← h.todo _ _ hs]
    split
    · exact h.env _ _ _ hs
    · exact ih _ _ (h.accept _ _ e (h.requestKept _ _ hs))

theorem Sim.resume {R} (h : Sim R) (he : ∀ s t, R s t → s.env = t.env) (s t : State) (hs : R s t) : R (resume s) (resume t) := by
  unfold Sys2Proof.Machine.resume
  have := h.settle _ _ hs
  dsimp only
  rw [← he _ _ this]
  exact h.feed _ _ _ this

theorem Sim.runProc {R} (h : Sim R) (he : ∀ s t, R s t → s.env = t.env) (p : List Micro) (s t : State)
    (hs : R s t) : R (runProc p s) (runProc p t) :=
  h.resume he _ _ (h.goto _ _ p hs)

theorem Sim.runWire {R} (h : Sim R) (he : ∀ s t, R s t → s.env = t.env) (i : Instr) (s t : State)
    (hs : R s t) : R (runWire i s) (runWire i t) := by
  have h1 := h.runProc he [wire i] s t hs
  unfold Sys2Proof.Machine.runWire
  dsimp only
  rw [← h.todo _ _ h1, ← h.todo _ _ hs]
  split
  · exact h.advance _ _ _ _ h1
  · exact h.goto _ _ _ h1

/-- Every instruction on both sides, given its direct updates. -/
theorem sim_exec {R} (h : Sim R) (he : ∀ s t, R s t → s.env = t.env) (i : Instr) (s t : State) (hs : R s t)
    (hclr : R { s with out := { s.out with crcAcc := 0 } } { t with out := { t.out with crcAcc := 0 } })
    (hpush : R { s with out := { s.out with crcAcc := crcUpd s.params.crc s.out.crcAcc s.latch.byte } }
      { t with out := { t.out with crcAcc := crcUpd t.params.crc t.out.crcAcc t.latch.byte } })
    (hp : R { s with out := { s.out with a64 := pack64 s.latch.addr } }
      { t with out := { t.out with a64 := pack64 t.latch.addr } })
    (hget : R { s with args := { s.args with addr := readEntry s.reg s.latch.idx.toNat } }
      { t with args := { t.args with addr := readEntry t.reg t.latch.idx.toNat } })
    (hcount : ∀ c, R { s with count := c } { t with count := c })
    (hend : ∀ s t b, R s t → R (s.endOp b) (t.endOp b)) :
    (∃ s' t', exec i s = .next s' ∧ exec i t = .next t' ∧ R s' t') ∨
      ∃ f, exec i s = .fault f ∧ exec i t = .fault f := by
  cases i
  case crcClr => exact Or.inl ⟨_, _, rfl, rfl, hend _ _ _ hclr⟩
  case crcPush => exact Or.inl ⟨_, _, rfl, rfl, hend _ _ _ hpush⟩
  case pack64 => exact Or.inl ⟨_, _, rfl, rfl, hend _ _ _ hp⟩
  case getAddr =>
    have e3 := h.latch _ _ hs
    have e4 := h.params _ _ hs
    have e6 := h.count _ _ hs
    simp only [exec, execGetAddr]
    by_cases c1 : s.latch.idx.toNat < s.count.toNat
    · have c1' := c1
      rw [e3, e6] at c1'
      rw [if_pos c1, if_pos c1']
      by_cases c2 : s.latch.idx.toNat < s.params.maxDev
      · have c2' := c2
        rw [e3, e4] at c2'
        rw [if_pos c2, if_pos c2']
        exact Or.inl ⟨_, _, rfl, rfl, hend _ _ _ hget⟩
      · have c2' := c2
        rw [e3, e4] at c2'
        rw [if_neg c2, if_neg c2', e3]
        exact Or.inr ⟨_, rfl, rfl⟩
    · have c1' := c1
      rw [e3, e6] at c1'
      rw [if_neg c1, if_neg c1']
      exact Or.inl ⟨_, _, rfl, rfl, hend _ _ _ (h.raise _ _ _ hs)⟩
  case discover => exact Or.inl ⟨_, _, rfl, rfl, h.runProc he _ _ _ (hcount 0)⟩
  case setRes =>
    refine Or.inl ⟨_, _, rfl, rfl, ?_⟩
    rw [← h.latch _ _ hs]
    exact h.runProc he _ _ _ hs
  all_goals exact Or.inl ⟨_, _, rfl, rfl, by first | exact h.runProc he _ _ _ hs | exact h.runWire he _ _ _ hs⟩

end Sys2Proof.Machine
end

