-- ==== Sys2Proof/Laws/Host.lean ====
section
/-! SUPPORT. What a host write does, case by case; the bytes of a packed address; the leading bit of a magnitude. -/

namespace Sys2Proof.Machine

/-- A host write of a register other than `CMD` (R21, R23, R26), case by case. -/
theorem writeReg_cases (s : State) (r v : Byte) :
    (r.toNat = 2 ∧ writeReg s r v = { s with pullupEn := v.getLsbD 0 }) ∨
    (r.toNat = 4 ∧ writeReg s r v = { s with args := { s.args with th := v } }) ∨
    (r.toNat = 5 ∧ writeReg s r v = { s with args := { s.args with tl := v } }) ∨
    (r.toNat = 6 ∧ writeReg s r v = { s with args := { s.args with cfg := v } }) ∨
    (r.toNat = 7 ∧ writeReg s r v = { s with args := { s.args with res := v } }) ∨
    (r.toNat = 8 ∧ writeReg s r v = { s with args := { s.args with flags := v } }) ∨
    (r.toNat = 9 ∧ writeReg s r v = { s with args := { s.args with idx := v } }) ∨
    (r.toNat = 10 ∧ writeReg s r v = { s with args := { s.args with byte := v } }) ∨
    (∃ h : 0x10 ≤ r.toNat ∧ r.toNat < 0x18, writeReg s r v =
        { s with args := { s.args with addr := s.args.addr.set (r.toNat - 0x10) v } }) ∨
    ((r.toNat ≠ 2 ∧ (r.toNat < 4 ∨ 10 < r.toNat) ∧ (r.toNat < 16 ∨ 24 ≤ r.toNat)) ∧ writeReg s r v = s) := by
  by_cases h1 : r.toNat = 2; · left; exact ⟨h1, by simp only [writeReg, h1]; rfl⟩
  right
  by_cases h2 : r.toNat = 4; · left; exact ⟨h2, by simp only [writeReg, h2]; rfl⟩
  right
  by_cases h3 : r.toNat = 5; · left; exact ⟨h3, by simp only [writeReg, h3]; rfl⟩
  right
  by_cases h4 : r.toNat = 6; · left; exact ⟨h4, by simp only [writeReg, h4]; rfl⟩
  right
  by_cases h5 : r.toNat = 7; · left; exact ⟨h5, by simp only [writeReg, h5]; rfl⟩
  right
  by_cases h6 : r.toNat = 8; · left; exact ⟨h6, by simp only [writeReg, h6]; rfl⟩
  right
  by_cases h7 : r.toNat = 9; · left; exact ⟨h7, by simp only [writeReg, h7]; rfl⟩
  right
  by_cases h8 : r.toNat = 10; · left; exact ⟨h8, by simp only [writeReg, h8]; rfl⟩
  right
  by_cases h9 : 0x10 ≤ r.toNat ∧ r.toNat < 0x18
  · left; exact ⟨h9, by simp only [writeReg]; rw [if_neg h1, if_neg h2, if_neg h3, if_neg h4, if_neg h5, if_neg h6,
      if_neg h7, if_neg h8, dif_pos h9]⟩
  right
  exact ⟨by omega, by simp only [writeReg]; rw [if_neg h1, if_neg h2, if_neg h3, if_neg h4, if_neg h5, if_neg h6,
      if_neg h7, if_neg h8, dif_neg h9]⟩

/-- A host write reaches operand registers and `CTRL` only. -/
theorem writeReg_form (s : State) (r v : Byte) : ∃ a e, writeReg s r v = { s with args := a, pullupEn := e } := by
  refine ⟨(writeReg s r v).args, (writeReg s r v).pullupEn, ?_⟩
  simp only [writeReg]; repeat' split
  all_goals rfl

/-- The number an address is packed to (R105). -/
theorem pack64_toNat (a : RomAddr) :
    (pack64 a).toNat = a[0].toNat + a[1].toNat * 2 ^ 8 + a[2].toNat * 2 ^ 16 + a[3].toNat * 2 ^ 24 +
      a[4].toNat * 2 ^ 32 + a[5].toNat * 2 ^ 40 + a[6].toNat * 2 ^ 48 + a[7].toNat * 2 ^ 56 := by
      simp only [pack64, BitVec.toNat_append]
      have h0 := a[0].isLt; have h1 := a[1].isLt; have h2 := a[2].isLt; have h3 := a[3].isLt
      have h4 := a[4].isLt; have h5 := a[5].isLt; have h6 := a[6].isLt; have h7 := a[7].isLt
      rw [← Nat.shiftLeft_add_eq_or_of_lt (by omega), ← Nat.shiftLeft_add_eq_or_of_lt (by omega),
          ← Nat.shiftLeft_add_eq_or_of_lt (by omega), ← Nat.shiftLeft_add_eq_or_of_lt (by omega),
          ← Nat.shiftLeft_add_eq_or_of_lt (by omega), ← Nat.shiftLeft_add_eq_or_of_lt (by omega),
          ← Nat.shiftLeft_add_eq_or_of_lt (by omega)]
      simp only [Nat.shiftLeft_eq]
      omega

/-- Byte `i` of a packed address (R105). -/
theorem pack64_byte (a : RomAddr) (i : Nat) (hi : i < 8) : (pack64 a).extractLsb' (8 * i) 8 = a[i] := by
  apply BitVec.eq_of_toNat_eq
  rw [BitVec.extractLsb'_toNat, pack64_toNat, Nat.shiftRight_eq_div_pow]
  have h0 := a[0].isLt; have h1 := a[1].isLt; have h2 := a[2].isLt; have h3 := a[3].isLt
  have h4 := a[4].isLt; have h5 := a[5].isLt; have h6 := a[6].isLt; have h7 := a[7].isLt
  interval_cases i <;> norm_num only <;> omega

/-- `topBit` finds the highest set bit. -/
theorem topBit_spec (m k : Nat) (h0 : 0 < m) (hk : m < 2 ^ (k + 1)) : 2 ^ topBit m k ≤ m ∧ m < 2 ^ (topBit m k + 1) ∧
    topBit m k ≤ k := by
  induction k with
  | zero => simp [topBit]; constructor; omega; simpa using hk
  | succ k ih =>
    unfold topBit
    split
    · exact ⟨by assumption, hk, le_refl _⟩
    · have := ih (by omega); exact ⟨this.1, this.2.1, by omega⟩

end Sys2Proof.Machine
end

