-- ==== Sys2Proof/Laws/Memory.lean ====
section
/-! SUPPORT. The registry memory: a read after a write, and the canonical form every operation keeps. -/

namespace Sys2Proof.Machine

theorem Memory.read_write_same (m : Memory) (a : Nat) (v : Byte) (h : Memory.wf m = true) :
    Memory.read (Memory.write m a v) a = v := by
  induction m with
  | nil =>
    unfold Memory.write
    split <;> simp_all [Memory.read]
  | cons c m ih =>
    obtain ⟨k, b⟩ := c
    have hblank : ∀ m : Memory, (∀ c ∈ m, a < c.1) → Memory.read m a = Config.regBlank := by
      intro m hm
      induction m with
      | nil => rfl
      | cons c m ih2 =>
        have h1 := hm c (by simp)
        have h2 := ih2 (fun d hd => hm d (by simp [hd]))
        obtain ⟨k, b⟩ := c
        simp only [Memory.read]
        rw [if_neg (by simp at h1; omega), h2]
    simp only [Memory.wf, Bool.and_eq_true, List.all_eq_true, decide_eq_true_eq] at h
    obtain ⟨⟨_, hlt⟩, hm⟩ := h
    unfold Memory.write
    split
    · split
      · next hk hv =>
        rw [hv]
        refine hblank _ ?_
        intro c hc
        rcases List.mem_cons.1 hc with rfl | hc
        · exact hk
        · exact lt_trans hk (hlt c hc)
      · simp [Memory.read]
    · split
      · next hk =>
        subst hk
        split
        · next hv => rw [hv]; exact hblank _ hlt
        · simp [Memory.read]
      · next h1 h2 =>
        simp only [Memory.read]
        rw [if_neg (by omega), ih hm]

theorem Memory.read_write_other (m : Memory) (a a' : Nat) (v : Byte) (hne : a' ≠ a) :
    Memory.read (Memory.write m a v) a' = Memory.read m a' := by
  induction m with
  | nil =>
    unfold Memory.write
    split
    · rfl
    · simp [Memory.read, Ne.symm hne]
  | cons c m ih =>
    obtain ⟨k, b⟩ := c
    unfold Memory.write
    split
    · split
      · rfl
      · simp [Memory.read, Ne.symm hne]
    · split
      · next hk =>
        subst hk
        split
        · simp [Memory.read, Ne.symm hne]
        · simp [Memory.read, Ne.symm hne]
      · simp only [Memory.read, ih]

/-- The addresses of a written memory: the old ones and the one written. -/
theorem Memory.mem_write (m : Memory) (a : Nat) (v : Byte) (c : Host.Cell) (h : c ∈ Memory.write m a v) :
    c ∈ m ∨ c = (a, v) := by
  induction m with
  | nil => unfold Memory.write at h; split at h <;> simp_all
  | cons d m ih =>
    obtain ⟨k, b⟩ := d
    unfold Memory.write at h
    split at h
    · split at h <;> simp_all
      tauto
    · split at h
      · split at h <;> simp_all
        tauto
      · simp only [List.mem_cons] at h ⊢
        rcases h with h | h
        · exact .inl (.inl h)
        · rcases ih h with h | h
          · exact .inl (.inr h)
          · exact .inr h

theorem Memory.write_wf (m : Memory) (a : Nat) (v : Byte) (h : Memory.wf m = true) :
    Memory.wf (Memory.write m a v) = true := by
  induction m with
  | nil =>
    unfold Memory.write
    split <;> simp_all [Memory.wf]
  | cons c m ih =>
    obtain ⟨k, b⟩ := c
    have h0 := h
    simp only [Memory.wf, Bool.and_eq_true, List.all_eq_true, decide_eq_true_eq] at h
    obtain ⟨⟨hb, hlt⟩, hm⟩ := h
    unfold Memory.write
    split
    · next hk =>
      split
      · exact h0
      · next hv =>
        have : (∀ c ∈ ((k, b) :: m : Memory), a < c.1) := by
          intro c hc
          rcases List.mem_cons.1 hc with rfl | hc
          · exact hk
          · exact lt_trans hk (hlt c hc)
        rw [Memory.wf]
        simp only [Bool.and_eq_true, List.all_eq_true, decide_eq_true_eq]
        exact ⟨⟨by simpa using hv, this⟩, h0⟩
    · split
      · next hk =>
        subst hk
        split
        · exact hm
        · next hv =>
          simp only [Memory.wf, Bool.and_eq_true, List.all_eq_true, decide_eq_true_eq]
          exact ⟨⟨by simpa using hv, hlt⟩, hm⟩
      · next h1 h2 =>
        simp only [Memory.wf, Bool.and_eq_true, List.all_eq_true, decide_eq_true_eq]
        refine ⟨⟨hb, ?_⟩, ih hm⟩
        intro c hc
        rcases Memory.mem_write m a v c hc with hc | rfl
        · exact hlt c hc
        · show k < a
          omega

theorem writeBytes_wf (m : Memory) (a : Nat) (bs : List Byte) (h : Memory.wf m = true) :
    Memory.wf (writeBytes m a bs) = true := by
  induction bs generalizing m a with
  | nil => exact h
  | cons b bs ih => exact ih _ _ (Memory.write_wf m a b h)

theorem writeEntry_wf (m : Memory) (k : Nat) (a : RomAddr) (h : Memory.wf m = true) :
    Memory.wf (writeEntry m k a) = true :=
  writeBytes_wf _ _ _ h

theorem mem_writeBytes (m : Memory) (a : Nat) (bs : List Byte) (c : Host.Cell) (h : c ∈ writeBytes m a bs) :
    c ∈ m ∨ (a ≤ c.1 ∧ c.1 < a + bs.length) := by
  induction bs generalizing m a with
  | nil => exact .inl h
  | cons b bs ih =>
    rcases ih _ _ h with h | h
    · rcases Memory.mem_write m a b c h with h | rfl
      · exact .inl h
      · right; simp
    · right; simp only [List.length_cons]; omega

/-- Every listed byte of a memory with an entry written is an old one or lies in the entry. -/
theorem mem_writeEntry (m : Memory) (k : Nat) (a : RomAddr) (c : Host.Cell) (h : c ∈ writeEntry m k a) :
    c ∈ m ∨ (8 * k ≤ c.1 ∧ c.1 < 8 * k + 8) := by
  simpa using mem_writeBytes m (8 * k) _ c h

theorem read_writeBytes_other (m : Memory) (a : Nat) (bs : List Byte) (x : Nat) (h : x < a ∨ a + bs.length ≤ x) :
    Memory.read (writeBytes m a bs) x = Memory.read m x := by
  induction bs generalizing m a with
  | nil => rfl
  | cons b bs ih =>
    simp only [List.length_cons] at h
    rw [writeBytes, ih _ _ (by omega), Memory.read_write_other _ _ _ _ (by omega)]

theorem read_writeBytes_inside (m : Memory) (a : Nat) (bs : List Byte) (i : Nat) (hi : i < bs.length)
    (h : Memory.wf m = true) : Memory.read (writeBytes m a bs) (a + i) = bs[i] := by
  induction bs generalizing m a i with
  | nil => simp at hi
  | cons b bs ih =>
    cases i with
    | zero =>
      rw [writeBytes, read_writeBytes_other _ _ _ _ (by omega)]
      simpa using Memory.read_write_same m a b h
    | succ i =>
      have := ih (Memory.write m a b) (a + 1) i (by simpa using hi) (Memory.write_wf m a b h)
      rw [writeBytes, show a + (i + 1) = a + 1 + i by omega, this]
      rfl

/-- A byte outside the entry written reads as before. -/
theorem read_writeEntry_other (m : Memory) (k : Nat) (a : RomAddr) (x : Nat) (h : x < 8 * k ∨ 8 * k + 8 ≤ x) :
    Memory.read (writeEntry m k a) x = Memory.read m x :=
  read_writeBytes_other _ _ _ _ (by simpa using h)

/-- An address is its eight bytes. -/
theorem romAddr_eta (a : RomAddr) : #v[a[0], a[1], a[2], a[3], a[4], a[5], a[6], a[7]] = a := by
  ext i hi
  interval_cases i <;> simp

theorem read_writeEntry_inside (m : Memory) (k : Nat) (a : RomAddr) (h : Memory.wf m = true) (i : Nat) (hi : i < 8) :
    Memory.read (writeEntry m k a) (8 * k + i) = a[i] := by
  rw [writeEntry, read_writeBytes_inside _ _ _ _ (by simpa using hi) h]
  interval_cases i <;> rfl

/-- The entry written reads as written. -/
theorem readEntry_writeEntry_same (m : Memory) (k : Nat) (a : RomAddr) (h : Memory.wf m = true) :
    readEntry (writeEntry m k a) k = a := by
  have hr := read_writeEntry_inside m k a h
  have h0 : Memory.read (writeEntry m k a) (8 * k) = a[0] := hr 0 (by omega)
  rw [readEntry, h0, hr 1 (by omega), hr 2 (by omega), hr 3 (by omega), hr 4 (by omega), hr 5 (by omega),
    hr 6 (by omega), hr 7 (by omega), romAddr_eta]

/-- Another entry reads as before. -/
theorem readEntry_writeEntry_other (m : Memory) (k j : Nat) (a : RomAddr) (h : j ≠ k) :
    readEntry (writeEntry m k a) j = readEntry m j := by
  have hr := fun x hx => read_writeEntry_other m k a x hx
  rw [readEntry, hr _ (by omega), hr _ (by omega), hr _ (by omega), hr _ (by omega), hr _ (by omega), hr _ (by omega),
    hr _ (by omega), hr _ (by omega), ← readEntry]

theorem reset_reg_wf : Memory.wf State.reset.reg = true := rfl

end Sys2Proof.Machine
end

