-- ==== Sys2Proof/Laws/Invariant.lean ====
section
/-! SUPPORT. The invariant inside a run of SEQ: `Ready` holds between two moves of a procedure,
    `Good` where SEQ stands still,
`Short` while a wire command runs by itself. -/

namespace Sys2Proof.Machine

/-- The consistency of the state (Safety.lean), and when `b` is asked for, the agreement of the trace with the pin. -/
def Good (b : Prop) (s : State) : Prop := Consistent s ∧ (b → TraceMatchesPin s)

/-- A state of the invariant, the trace apart. -/
theorem Inv.good {s : State} (h : Inv s) : Good False s := ⟨h.toConsistent, fun h => h.elim⟩

/-- Between two moves of a procedure: the pin is 0, no wait runs, nothing is requested. -/
structure Ready (b : Prop) (s : State) : Prop where
  regCanonical : Memory.wf s.reg = true
  regInside : ∀ c ∈ s.reg, c.1 < 8 * s.params.maxDev
  countBound : s.count.toNat ≤ s.params.maxDev
  busy : s.status.busy = true
  flags : s.status.ok = false ∧ s.status.bool = false ∧ s.status.ill = false
  run : s.ctc.run = false
  pin : s.status.pullup = false
  req : s.bus.req = false
  port : s.bus.op ≠ 7 ∧ (s.bus.op = 2 → s.bus.flag = false)
  steps : s.seq.step = s.trace.length
  trace : b → windowOf .closed s.trace = some .closed

/-- The counter of `s` at `c`. -/
def counted (s : State) (c : BitVec 10) : State := { s with ctc := { s.ctc with cnt := c } }

/-- A procedure that SEQ may be inside of. -/
def Proc (p : List Micro) : Prop := p.all Micro.inProcedure = true ∧ endsWithFinish p = true

/-- A trace in two parts. -/
theorem windowOf_append (xs ys : List TraceEvent) (w : Window) :
    windowOf w (xs ++ ys) = (windowOf w xs).bind (windowOf · ys) := by
  induction xs generalizing w with
  | nil => rfl
  | cons x xs ih =>
    simp only [List.cons_append, windowOf]
    cases w.next x with
    | none => rfl
    | some w' => exact ih w'

/-- `Ready` looks at these fields only. -/
theorem Ready.same {b : Prop} {s t : State} (h : Ready b s) (h1 : t.reg = s.reg) (h2 : t.params = s.params) (h3 :
    t.count = s.count) (h4 : t.status = s.status)
    (h5 : t.ctc.run = s.ctc.run) (h6 : t.bus = s.bus) (h7 : t.seq.step = s.seq.step) (h8 : t.trace = s.trace) :
        Ready b t := by
  obtain ⟨a1, a2, a3, a4, a5, a6, a7, a8, a9, a10, a11⟩ := h
  constructor
  · rw [h1]; exact a1
  · rw [h1, h2]; exact a2
  · rw [h3, h2]; exact a3
  · rw [h4]; exact a4
  · rw [h4]; exact a5
  · rw [h5]; exact a6
  · rw [h4]; exact a7
  · rw [h6]; exact a8
  · rw [h6]; exact a9
  · rw [h7, h8]; exact a10
  · rw [h8]; exact a11

/-- What follows a move. -/
theorem Proc.tail {m : Micro} {p : List Micro} (h : Proc (m :: p)) (hm : ∀ r, m ≠ .finish r) : Proc p := by
  obtain ⟨h1, h2⟩ := h
  simp only [List.all_cons, Bool.and_eq_true] at h1
  refine ⟨h1.2, ?_⟩
  cases p with
  | nil => cases m <;> simp_all [endsWithFinish]
  | cons x xs => 
    cases m <;> first | exact h2 | exact absurd rfl (hm _)

/-- SEQ stands still at a primitive. -/
theorem Ready.stop {b : Prop} {s : State} (h : Ready b s) (m : Micro) (p : List Micro) (hp : Proc (m :: p)) (hb :
    m.isBus = true)
    (hd : m = .discover → s.count.toNat < s.params.maxDev) : Good b (s.goto (m :: p)) := by
  have ht := hp.tail (by intro r hr; rw [hr] at hb; cases hb)
  have hm : m.inProcedure = true := by have := hp.1; simp only [List.all_cons, Bool.and_eq_true] at this; exact this.1
  refine ⟨?_, ?_⟩
  · constructor
    case regCanonical => exact h.regCanonical
    case regInside => exact h.regInside
    case countBound => exact h.countBound
    case idleStep =>
      intro hh
      have := h.busy
      rw [show (s.goto (m :: p)).status.busy = s.status.busy from rfl, this] at hh
      cases hh
    case position =>
      intro _
      show legalPosition s.seq.op (m :: p) = true
      have h1 := ht.1
      have h2 := ht.2
      have h3 : legalHead s.seq.op m = true := by cases m <;> first | rfl | exact hm | cases hb
      have h4 : (m != .dispatch) = true := by cases m <;> first | rfl | cases hb
      have : legalPosition s.seq.op (m :: p) =
          (m != .dispatch && legalHead s.seq.op m && p.all Micro.inProcedure && endsWithFinish p) := by
        cases m <;> first | rfl | cases hb
      rw [this, h1, h2, h3, h4]; rfl
    case busyFlags => intro _; exact h.flags
    case counter =>
      refine ⟨?_, ?_⟩
      · rw [show (s.goto (m :: p)).ctc = s.ctc from rfl, h.run]; cases m <;> first | rfl | cases hb
      · rw [show (s.goto (m :: p)).ctc = s.ctc from rfl, h.run]; intro h; cases h
    case pin =>
      rw [show (s.goto (m :: p)).status = s.status from rfl, show (s.goto (m :: p)).ctc = s.ctc from rfl, h.run,
          h.pin]
      rfl
    case room => intro t ht2; have : m = .discover := by have := List.cons.inj ht2; exact this.1
                 exact hd this
    case requested => intro hh; rw [show (s.goto (m :: p)).bus = s.bus from rfl, h.req] at hh; cases hh
    case portCodes => exact h.port
    case stepCounts => intro _; exact h.steps
  · intro hbb
    show windowOf .closed s.trace = some (if s.status.pullup then .opened else .closed)
    rw [h.pin]; exact h.trace hbb

/-- The end of an operation. -/
theorem Ready.endOp {b : Prop} {s : State} (h : Ready b s) (o : Bool) : Good b (s.endOp o) := by
  refine ⟨?_, ?_⟩
  · constructor
    case regCanonical => exact h.regCanonical
    case regInside => exact h.regInside
    case countBound => exact h.countBound
    case idleStep => intro _; exact ⟨rfl, rfl⟩
    case position => intro hh; cases hh
    case busyFlags => intro hh; cases hh
    case counter =>
      refine ⟨?_, ?_⟩
      · exact h.run
      · intro hh; rw [show (s.endOp o).ctc = s.ctc from rfl, h.run] at hh; cases hh
    case pin =>
      rw [show (s.endOp o).status.pullup = s.status.pullup from rfl, show (s.endOp o).ctc = s.ctc from rfl, h.run,
          h.pin]
      rfl
    case room => intro t hh; cases hh
    case requested => intro hh; rw [show (s.endOp o).bus = s.bus from rfl, h.req] at hh; cases hh
    case portCodes => exact h.port
    case stepCounts => intro hh; cases hh
  · intro hbb
    show windowOf .closed s.trace = some (if s.status.pullup then .opened else .closed)
    rw [h.pin]; exact h.trace hbb

/-- `BOOL` may be written where the operation has ended. -/
theorem endOp_bool {b : Prop} {s t : State} (h : Good b s) (hb : s.status.busy = false) (e : t =
        { s with status := { s.status with bool := t.status.bool } }) : Good b t := by
  rw [e]
  obtain ⟨⟨a1, a2, a3, a4, a5, a6, a7, a8, a9, a10, a11, a12⟩, h2⟩ := h
  refine ⟨⟨a1, a2, a3, a4, a5, ?_, a7, a8, a9, a10, a11, a12⟩, h2⟩
  intro hh; rw [show ({ s with status := { s.status with bool := t.status.bool } } :
      State).status.busy = s.status.busy from rfl, hb] at hh; cases hh

/-- The end of an operation with its result registers. -/
theorem good_finish {b : Prop} {s : State} (h : Ready b s) (r : ResultKind) : Good b (s.finish r) := by
  cases r <;> simp only [State.finish] <;> split
  case ext.isTrue => exact endOp_bool (h.endOp true) rfl rfl
  case ext.isFalse => exact endOp_bool (h.endOp false) rfl rfl
  case parasite.isTrue => exact endOp_bool (h.endOp true) rfl rfl
  case parasite.isFalse => exact endOp_bool (h.endOp false) rfl rfl
  all_goals (refine Ready.endOp ?_ _; exact h.same rfl rfl rfl rfl rfl rfl rfl rfl)

/-- The four delays (R104). -/
theorem tConv_cases (r : Byte) : tConv r = 94 ∨ tConv r = 188 ∨ tConv r = 375 ∨ tConv r = 750 := by
  unfold tConv; repeat' split
  all_goals simp

/-- Every assisted wait has a length of R225. -/
theorem waitTicks_len (w : WaitFor) (t : Scratch) : isWaitLength (waitTicks w t) = true := by
  cases w with
  | eeprom => rfl
  | conversion => simp only [waitTicks]; rcases tConv_cases t.res with h | h | h | h <;> rw [h] <;> rfl

/-- Those lengths fit the counter. -/
theorem isWaitLength_bound (n : Nat) (h : isWaitLength n = true) : 0 < (BitVec.ofNat 10 n).toNat ∧
    (BitVec.ofNat 10 n).toNat ≤ 750 := by
  unfold isWaitLength at h
  simp at h
  rcases h with (((h | h) | h) | h) | h <;> subst h <;> decide

/-- One more event. -/
theorem window_log {s : State} (e : TraceEvent) (w w' : Window) (h : windowOf .closed s.trace = some w) (hn :
    w.next e = some w') : windowOf .closed (s.trace ++ [e]) = some w' := by
  rw [windowOf_append, h]
  simp [windowOf, hn]

/-- The start of an assisted wait. -/
theorem good_open {b : Prop} {s : State} (h : Ready b s) (w : WaitFor) (t : List Micro) (hp : Proc t) :
    Good b ((openAssist s (waitTicks w s.tmp)).goto (.waiting (waitTicks w s.tmp) :: t)) := by
  have hl := waitTicks_len w s.tmp
  generalize waitTicks w s.tmp = n at hl
  have hbd := isWaitLength_bound n hl
  have hpos : ∀ op, legalPosition op (.waiting n :: t) = true := by
    intro op
    show (true && isWaitLength n && t.all Micro.inProcedure && endsWithFinish t) = true
    rw [hl, hp.1, hp.2]; rfl
  by_cases hd : assistDrives s = true
  · have e : openAssist s n =
      { { s with status := { s.status with pullup := true } }.log (.pullup true) with
        ctc := { cnt := BitVec.ofNat 10 n, run := true } } := by
      unfold openAssist; rw [if_pos hd]
    rw [e]
    refine ⟨?_, ?_⟩
    · constructor
      case regCanonical => exact h.regCanonical
      case regInside => exact h.regInside
      case countBound => exact h.countBound
      case idleStep => intro hh; exact absurd h.busy (by rw [show s.status.busy = false from hh]; decide)
      case position => intro _; exact hpos _
      case busyFlags => intro _; exact h.flags
      case counter => exact ⟨rfl, fun _ => hbd⟩
      case pin => show true = (true && assistDrives s); rw [hd]; rfl
      case room => intro t hh; cases hh
      case requested => intro hh; exact absurd (show s.bus.req = true from hh) (by rw [h.req]; decide)
      case portCodes => exact h.port
      case stepCounts => intro _; show s.seq.step + 1 = (s.trace ++ [_]).length; rw [h.steps]; simp
    · intro hb
      show windowOf .closed (s.trace ++ [_]) = some .opened
      exact window_log _ .closed .opened (h.trace hb) rfl
  · have e : openAssist s n = { s with ctc := { cnt := BitVec.ofNat 10 n, run := true } } := by
      unfold openAssist; rw [if_neg hd]
    rw [e]
    refine ⟨?_, ?_⟩
    · constructor
      case regCanonical => exact h.regCanonical
      case regInside => exact h.regInside
      case countBound => exact h.countBound
      case idleStep => intro hh; exact absurd h.busy (by rw [show s.status.busy = false from hh]; decide)
      case position => intro _; exact hpos _
      case busyFlags => intro _; exact h.flags
      case counter => exact ⟨rfl, fun _ => hbd⟩
      case pin => show s.status.pullup = (true && assistDrives s); rw [h.pin]; simpa using hd
      case room => intro t hh; cases hh
      case requested => intro hh; exact absurd (show s.bus.req = true from hh) (by rw [h.req]; decide)
      case portCodes => exact h.port
      case stepCounts => intro _; exact h.steps
    · intro hb
      show windowOf .closed s.trace = some (if s.status.pullup then .opened else .closed)
      rw [h.pin]; exact h.trace hb

/-- SEQ goes on until it stands still (R31). -/
theorem ready_advance (b : Prop) : ∀ (p : List Micro) (c : Course) (s : State), Proc p → Ready b s →
    Good b (advance c p s) := by
  intro p
  induction p with
  | nil => intro c s hp _; have := hp.2; cases this
  | cons m t ih =>
    intro c s hp h
    have hm : m.inProcedure = true := by have := hp.1; simp only [List.all_cons, Bool.and_eq_true] at this; exact this.1
    by_cases hf : ∃ r, m = .finish r
    · obtain ⟨r, rfl⟩ := hf
      have : advance c (.finish r :: t) s = s.finish r := by cases c <;> rfl
      rw [this]; exact good_finish h r
    · have ht : Proc t := hp.tail (fun r hr => hf ⟨r, hr⟩)
      simp only [advance]
      cases c.skips m with
      | some c => exact ih _ _ ht h
      | none =>
      cases m with
      | fail k => exact ih _ _ ht (h.same rfl rfl rfl rfl rfl rfl rfl rfl)
      | checkCrc => dsimp only; split <;> exact ih _ _ ht (h.same rfl rfl rfl rfl rfl rfl rfl rfl)
      | checkEcho => dsimp only; split <;> exact ih _ _ ht (h.same rfl rfl rfl rfl rfl rfl rfl rfl)
      | loadArgs => exact ih _ _ ht (h.same rfl rfl rfl rfl rfl rfl rfl rfl)
      | loadRes => exact ih _ _ ht (h.same rfl rfl rfl rfl rfl rfl rfl rfl)
      | loadAlarms => exact ih _ _ ht (h.same rfl rfl rfl rfl rfl rfl rfl rfl)
      | getRes => exact ih _ _ ht h
      | resolve => dsimp only; split <;> exact ih _ _ ht (h.same rfl rfl rfl rfl rfl rfl rfl rfl)
      | assist w => exact good_open h w t ht
      | waiting n => cases hm
      | dispatch => cases hm
      | discover =>
        dsimp only; split
        · rename_i hlt
          exact h.stop _ _ hp rfl (fun _ => hlt)
        · exact ih _ _ ht h
      | finish r => exact absurd ⟨r, rfl⟩ hf
      | _ => exact h.stop _ _ hp rfl (fun hh => by cases hh)

/-- A request. -/
theorem good_request {b : Prop} {s : State} (h : Good b s) : Good b (request s) ∧ (request s).seq = s.seq ∧
    (request s).status = s.status ∧ (request s).ctc = s.ctc ∧ (request s).env = s.env := by
  unfold request
  cases ht : s.seq.todo with
  | nil => exact ⟨h, rfl, rfl, rfl, rfl⟩
  | cons m t =>
    obtain ⟨⟨a1, a2, a3, a4, a5, a6, a7, a8, a9, a10, a11, a12⟩, h2⟩ := h
    have hat : m.isBus = true → atPrimitive s = true := by intro hh; simp [atPrimitive, ht, hh]
    cases m <;> refine ⟨?_, rfl, rfl, rfl, rfl⟩ <;>
      first
      | exact ⟨⟨a1, a2, a3, a4, a5, a6, a7, a8, a9, a10, a11, a12⟩, h2⟩
      | exact ⟨⟨a1, a2, a3, a4, a5, a6, a7, a8, a9, (fun _ => hat rfl), ⟨(by simp [requestOf]),
          (by simp [requestOf])⟩, a12⟩, h2⟩

/-- A completed primitive. -/
theorem ready_effect {b : Prop} {s : State} (h : Good b s) (m : Micro) (t : List Micro) (ht :
    s.seq.todo = m :: t) (hb : m.isBus = true) (hbusy : s.status.busy = true) (a : Answer) :
    Ready b (effect m a (lower s)) := by
  obtain ⟨⟨a1, a2, a3, a4, a5, a6, a7, a8, a9, a10, a11, a12⟩, h2⟩ := h
  have hrun : s.ctc.run = false := by rw [a7.1]; unfold inWait; rw [ht]; cases m <;> first | rfl | cases hb
  have hpin : s.status.pullup = false := by rw [a8, hrun]; rfl
  have htr : b → windowOf .closed s.trace = some .closed := by
    intro hbb; have := h2 hbb; unfold TraceMatchesPin at this; rw [hpin] at this; exact this
  have base : Ready b (lower s) := ⟨a1, a2, a3, hbusy, a6 hbusy, hrun, hpin, rfl, a11, a12 hbusy, htr⟩
  have logged : ∀ (t : State) (e : TraceEvent), Ready b t → (∀ v, e ≠ .pullup v) → Ready b (t.log e) := by
    intro t e h he
    obtain ⟨b1, b2, b3, b4, b5, b6, b7, b8, b9, b10, b11⟩ := h
    refine ⟨b1, b2, b3, b4, b5, b6, b7, b8, b9, ?_, ?_⟩
    · show t.seq.step + 1 = (t.trace ++ [e]).length; rw [b10]; simp
    · intro hbb
      exact window_log e .closed .closed (b11 hbb) (by cases e <;> first | rfl | exact absurd rfl (he _))
  have stmp : ∀ (t : State) (x : Scratch), Ready b t → Ready b { t with tmp := x } :=
      fun t x h => h.same rfl rfl rfl rfl rfl rfl rfl rfl
  cases m <;> try (cases hb; done)
  case reset => simp only [effect]; split
                · exact stmp _ _ (logged _ _ base (by intro v hv; cases hv))
                · exact logged _ _ base (by intro v hv; cases hv)
  case select => exact logged _ _ base (by intro v hv; cases hv)
  case cmd => exact logged _ _ base (by intro v hv; cases hv)
  case write => exact logged _ _ base (by intro v hv; cases hv)
  case read => exact logged _ _ (base.same rfl rfl rfl rfl rfl rfl rfl rfl) (by intro v hv; cases hv)
  case readBit => exact stmp _ _ (logged _ _ (base.same rfl rfl rfl rfl rfl rfl rfl rfl) (by intro v hv; cases hv))
  case searchReset => exact logged _ _ base (by intro v hv; cases hv)
  case discover =>
    have hroom := a9 t ht
    simp only [effect]; split
    · split
      · have hc : Ready b (candidate (lower s) false (unpack64 a.raddr)) :=
          logged _ _ (stmp _ _ base) (by intro v hv; cases hv)
        obtain ⟨b1, b2, b3, b4, b5, b6, b7, b8, b9, b10, b11⟩ := hc
        have hmax : s.params.maxDev ≤ 255 := by unfold Params.maxDev; omega
        refine ⟨writeEntry_wf _ _ _ b1, ?_, ?_, b4, b5, b6, b7, b8, b9, b10, b11⟩
        · intro c hc
          rcases mem_writeEntry _ _ _ c hc with h | h
          · exact b2 c h
          · show c.1 < 8 * s.params.maxDev
            have h : 8 * s.count.toNat ≤ c.1 ∧ c.1 < 8 * s.count.toNat + 8 := h
            omega
        · show (s.count + 1).toNat ≤ s.params.maxDev
          have : (s.count + 1).toNat = s.count.toNat + 1 := by simp; omega
          omega
      · exact logged _ _ (stmp _ _ base) (by intro v hv; cases hv)
    · exact logged _ _ base (by intro v hv; cases hv)
  case alarmSearch =>
    simp only [effect]; split
    · split
      · exact stmp _ _ ((logged _ _ (stmp _ _ base) (by intro v hv; cases hv)).same rfl rfl rfl rfl rfl rfl rfl rfl)
      · exact logged _ _ (stmp _ _ base) (by intro v hv; cases hv)
    · exact logged _ _ base (by intro v hv; cases hv)

/-- What stands before a procedure. -/
theorem endsWithFinish_append (p t : List Micro) (h : endsWithFinish t = true) : endsWithFinish (p ++ t) = true := by
  induction p with
  | nil => exact h
  | cons m p ih =>
    cases hpt : p ++ t with
    | nil => simp at hpt; rw [hpt.2] at h; cases h
    | cons x xs =>
      rw [List.cons_append, hpt]
      rw [hpt] at ih
      cases m <;> exact ih

/-- The same for `Proc`. -/
theorem Proc.append {p t : List Micro} (hp : p.all Micro.inProcedure = true) (ht : Proc t) : Proc (p ++ t) :=
  ⟨by rw [List.all_append, hp, ht.1]; rfl, endsWithFinish_append p t ht.2⟩

/-- Data phases stay inside a procedure. -/
theorem dataPhase_ok (b : Byte) : (dataPhase b).all Micro.inProcedure = true := by revert b; decide

/-- What follows a primitive stays a procedure. -/
theorem proc_behind (f : CrcFunction) (m : Micro) (a : Answer) (t : List Micro) (ht : Proc t) : Proc (behind f m a t) := by
  cases m <;> simp only [behind] <;> repeat' split
  all_goals first
    | exact ht
    | exact Proc.append (dataPhase_ok _) ht
    | exact Proc.append (p := [_]) rfl ht

/-- The position of an operation in progress. -/
theorem good_head {b : Prop} {s : State} (h : Good b s) (hb : s.status.busy = true) (m : Micro) (t : List Micro) (ht :
    s.seq.todo = m :: t) (hm : m ≠ .dispatch) :
    Proc t ∧ legalHead s.seq.op m = true := by
  have := h.1.position hb
  rw [ht] at this
  have e : legalPosition s.seq.op (m :: t) =
      (m != .dispatch && legalHead s.seq.op m && t.all Micro.inProcedure && endsWithFinish t) := by
    cases m <;> first | rfl | exact absurd rfl hm
  rw [e] at this
  simp only [Bool.and_eq_true] at this
  exact ⟨⟨this.1.2, this.2⟩, this.1.1.2⟩

/-- The end of an assisted wait. -/
theorem ready_close {b : Prop} {s : State} (h : Good b s) (hb : s.status.busy = true) (n : Nat) (t : List Micro) (ht :
    s.seq.todo = .waiting n :: t) (c : BitVec 10) :
    Ready b (closeAssist (counted s c) n) := by
  have hn : isWaitLength n = true := (good_head h hb _ _ ht (by intro h; cases h)).2
  obtain ⟨⟨a1, a2, a3, a4, a5, a6, a7, a8, a9, a10, a11, a12⟩, h2⟩ := h
  have hrun : s.ctc.run = true := by rw [a7.1]; unfold inWait; rw [ht]
  have hreq : s.bus.req = false := by
    cases hq : s.bus.req with
    | false => rfl
    | true => have := a10 hq; unfold atPrimitive at this; rw [ht] at this; cases this
  rw [hrun, Bool.true_and] at a8
  have hst := a12 hb
  by_cases hd : assistDrives s = true
  · have e : closeAssist (counted s c) n =
      ({ ({ s with ctc := { cnt := c, run := false } } : State).log (.wait n) with
          status := { s.status with pullup := false } } : State).log (.pullup false) := by
      have hd' : assistDrives (counted s c) = true := hd
      simp only [closeAssist, hd', if_true]; rfl
    rw [e]
    refine ⟨a1, a2, a3, hb, a6 hb, rfl, rfl, hreq, a11, ?_, ?_⟩
    · show s.seq.step + 1 + 1 = ((s.trace ++ [_]) ++ [_]).length
      rw [hst]; simp
    · intro hbb
      have := h2 hbb
      unfold TraceMatchesPin at this
      rw [a8, hd] at this
      show windowOf .closed ((s.trace ++ [_]) ++ [_]) = _
      rw [windowOf_append, windowOf_append, this]
      simp [windowOf, Window.next, hn]
  · have hd : assistDrives s = false := by simpa using hd
    have e : closeAssist (counted s c) n =
      ({ s with ctc := { cnt := c, run := false } } : State).log (.wait n) := by
      have hd' : assistDrives (counted s c) = false := hd
      simp only [closeAssist, hd']; rfl
    rw [e]
    refine ⟨a1, a2, a3, hb, a6 hb, rfl, ?_, hreq, a11, ?_, ?_⟩
    · show s.status.pullup = false; rw [a8, hd]
    · show s.seq.step + 1 = (s.trace ++ [_]).length
      rw [hst]; simp
    · intro hbb
      have := h2 hbb
      unfold TraceMatchesPin at this
      rw [a8, hd] at this
      exact window_log (.wait n) .closed .closed this rfl

/-- A counter with ticks left. -/
theorem good_count {b : Prop} {s : State} (h : Good b s) (hb : s.status.busy = true) (c : BitVec 10) (h1 :
    0 < c.toNat) (h2 : c.toNat ≤ 750) : Good b (counted s c) := by
  obtain ⟨⟨a1, a2, a3, a4, a5, a6, a7, a8, a9, a10, a11, a12⟩, h3⟩ := h
  exact ⟨⟨a1, a2, a3, a4, a5, a6, ⟨a7.1, fun _ => ⟨h1, h2⟩⟩, a8, a9, a10, a11, a12⟩, h3⟩

/-- The events to come play no part. -/
theorem good_env {b : Prop} {s : State} (h : Good b s) (e : List Event) : Good b { s with env := e } := by
  obtain ⟨⟨a1, a2, a3, a4, a5, a6, a7, a8, a9, a10, a11, a12⟩, h3⟩ := h
  exact ⟨⟨a1, a2, a3, a4, a5, a6, a7, a8, a9, a10, a11, a12⟩, h3⟩

/-- A running counter means a wait. -/
theorem run_waiting {s : State} (h : Consistent s) (hr : s.ctc.run = true) : ∃ n t, s.seq.todo = .waiting n :: t := by
  have := h.counter.1
  rw [hr] at this
  unfold inWait at this
  split at this
  · rename_i n t ht; exact ⟨n, t, ht⟩
  · cases this

/-- A position means an operation in progress. -/
theorem busy_of_todo {s : State} (h : Consistent s) (ht : s.seq.todo ≠ []) : s.status.busy = true := by
  cases hb : s.status.busy with
  | true => rfl
  | false => exact absurd (h.idleStep hb).1 ht

/-- Any event of SEQ's side. -/
theorem good_accept {b : Prop} {s : State} (e : Event) (h : Good b s) : Good b (accept s e) := by
  cases e with
  | ack a =>
    simp only [accept, acceptAck]
    cases ht : s.seq.todo with
    | nil => exact h
    | cons m t =>
      dsimp only
      split
      · rename_i hb
        have hbusy := busy_of_todo h.1 (by rw [ht]; simp)
        have hd : m ≠ .dispatch := by intro hh; rw [hh] at hb; cases hb
        rw [settle_goto]
        exact ready_advance b _ _ _ (proc_behind _ m a t (good_head h hbusy m t ht hd).1)
          (ready_effect h m t ht hb hbusy a)
      · exact h
  | tick =>
    simp only [accept, acceptTick]
    split
    · rename_i hr
      simp only [Bool.and_eq_true, bne_iff_ne, ne_eq] at hr
      obtain ⟨n, t, ht⟩ := run_waiting h.1 hr.1
      have hbusy := busy_of_todo h.1 (by rw [ht]; simp)
      unfold settle
      show Good b (advance .running s.seq.todo _)
      rw [ht]
      have hbd := h.1.counter.2 hr.1
      show Good b
        (if s.ctc.cnt - 1 = 0 then advance .running t (closeAssist (counted s (s.ctc.cnt - 1)) n)
         else (counted s (s.ctc.cnt - 1)).goto (.waiting n :: t))
      split
      · exact ready_advance b _ _ _ (good_head h hbusy _ _ ht (by intro hh; cases hh)).1 (ready_close h hbusy n t ht _)
      · rename_i hz
        have hc : (s.ctc.cnt - 1).toNat = s.ctc.cnt.toNat - 1 := by
          rw [BitVec.toNat_sub]; have := s.ctc.cnt.isLt; simp; omega
        have hne : (s.ctc.cnt - 1).toNat ≠ 0 := fun hh => hz (BitVec.eq_of_toNat_eq hh)
        rw [goto_self _ _ (by exact ht)]
        exact good_count h hbusy _ (by omega) (by omega)
    · exact h
  | _ => exact h

/-- Any events. -/
theorem good_feed (b : Prop) : ∀ (es : List Event) (s : State), Good b s → Good b (feed es s) := by
  intro es
  induction es with
  | nil => intro s h; exact good_env (good_request h).1 []
  | cons e es ih =>
    intro s h
    rw [feed]
    split
    · exact good_env h _
    · exact ih _ (good_accept e (good_request h).1)

/-! ## From a state of the invariant at an instruction -/
/-- At the start of an operation. -/
theorem ready_of_good {b : Prop} {s : State} (h : Good b s) (hb : s.status.busy = true) (m : Micro) (t :
    List Micro) (ht : s.seq.todo = m :: t) (hw : ∀ n, m ≠ .waiting n)
   (hm : m.isBus = false) : Ready b s := by
  obtain ⟨⟨a1, a2, a3, a4, a5, a6, a7, a8, a9, a10, a11, a12⟩, h2⟩ := h
  have hrun : s.ctc.run = false := by
    rw [a7.1]
    unfold inWait
    rw [ht]
    cases m <;> first | rfl | exact absurd rfl (hw _)
  have hpin : s.status.pullup = false := by rw [a8, hrun]; rfl
  have htr : b → windowOf .closed s.trace = some .closed := by
    intro hbb; have := h2 hbb; unfold TraceMatchesPin at this; rw [hpin] at this; exact this
  have hreq : s.bus.req = false := by
    cases hq : s.bus.req with
    | false => rfl
    | true =>
      have := a10 hq
      unfold atPrimitive at this
      rw [ht] at this
      exact absurd (show m.isBus = true from this) (by rw [hm]; decide)
  exact ⟨a1, a2, a3, hb, a6 hb, hrun, hpin, hreq, a11, a12 hb, htr⟩

/-- A whole procedure. -/
theorem good_runProc {b : Prop} {s : State} (h : Ready b s) (p : List Micro) (hp : Proc p) : Good b (runProc p s) := by
  unfold runProc resume
  rw [settle_goto]
  exact good_feed b _ _ (ready_advance b p .running s hp h)

/-- Every host operation, from its start. -/
theorem exec_host_good {b : Prop} {s : State} (h : Ready b s) (i : Instr) (hi : i.format = .host8) : ∃ t,
    exec i s = .next t ∧ Good b t := by
  cases i <;> try (cases hi; done)
  case crcClr => exact ⟨_, rfl, by refine Ready.endOp ?_ _; exact h.same rfl rfl rfl rfl rfl rfl rfl rfl⟩
  case crcPush => exact ⟨_, rfl, by refine Ready.endOp ?_ _; exact h.same rfl rfl rfl rfl rfl rfl rfl rfl⟩
  case pack64 => exact ⟨_, rfl, by refine Ready.endOp ?_ _; exact h.same rfl rfl rfl rfl rfl rfl rfl rfl⟩
  case getAddr =>
    have hc := h.countBound
    simp only [exec, execGetAddr]
    by_cases h1 : s.latch.idx.toNat < s.count.toNat
    · rw [if_pos h1, if_pos (by omega)]
      exact ⟨_, rfl, by refine Ready.endOp ?_ _; exact h.same rfl rfl rfl rfl rfl rfl rfl rfl⟩
    · rw [if_neg h1]
      exact ⟨_, rfl, by refine Ready.endOp ?_ _; exact h.same rfl rfl rfl rfl rfl rfl rfl rfl⟩
  case discover =>
    refine ⟨_, rfl, good_runProc ?_ _ ⟨by decide, by decide⟩⟩
    obtain ⟨b1, b2, b3, b4, b5, b6, b7, b8, b9, b10, b11⟩ := h
    exact ⟨b1, b2, Nat.zero_le _, b4, b5, b6, b7, b8, b9, b10, b11⟩
  case setRes =>
    refine ⟨_, rfl, good_runProc h _ ?_⟩
    unfold setResProc
    split
    · split <;> exact ⟨by decide, by decide⟩
    · exact ⟨by decide, by decide⟩
  all_goals exact ⟨_, rfl, good_runProc h _ ⟨by decide, by decide⟩⟩

/-! ## A wire command by itself -/
/-- A move of a wire command and its data phase. -/
def dataMove : Micro → Bool
  | .cmd b => (decodeWire b).toOption.isSome
  | .write _ | .read _ | .readBit | .assist _ => true
  | _ => false

/-- The same, or the wait SEQ is inside of. -/
def runMove : Micro → Bool
  | .waiting _ => true
  | m => dataMove m

/-- While a wire command runs by itself and `tl` follows it. -/
def Short (b : Prop) (tl : List Micro) (s : State) : Prop :=
  (∃ p, (s.seq.todo = [] ∧ Ready b s) ∨ (∃ m, s.seq.todo = m :: p ∧ runMove m = true ∧ (m.isBus = true ∨ ∃ n,
      m = .waiting n) ∧ p.all dataMove = true ∧ Good b (s.goto (m :: p ++ tl))))

/-- The moves of a data phase. -/
theorem short_advance {b : Prop} {tl : List Micro} (htl : Proc tl) (p : List Micro) (s : State) (hp :
    p.all dataMove = true) (hpp : Proc (p ++ tl)) (h : Ready b s) : Short b tl (advance .running p s) := by
  cases p with
  | nil => exact ⟨[], Or.inl ⟨rfl, h.same rfl rfl rfl rfl rfl rfl rfl rfl⟩⟩
  | cons m p =>
    have hm : dataMove m = true := by simp at hp; exact hp.1
    have hp' : p.all dataMove = true := by simp at hp; simpa using hp.2
    have hg := ready_advance b _ .running s hpp h
    have hr : runMove m = true := by cases m <;> first | exact hm | cases hm
    by_cases ha : ∃ w, m = .assist w
    · obtain ⟨w, rfl⟩ := ha
      exact ⟨p, Or.inr ⟨_, rfl, rfl, Or.inr ⟨_, rfl⟩, hp', hg⟩⟩
    · have hbus : m.isBus = true := by cases m <;> first | rfl | exact absurd ⟨_, rfl⟩ ha | cases hm
      have hd : m ≠ .discover := by intro hh; rw [hh] at hm; cases hm
      rw [advance_bus m hbus hd]
      rw [List.cons_append, advance_bus m hbus hd] at hg
      exact ⟨p, Or.inr ⟨m, rfl, hr, Or.inl hbus, hp', hg⟩⟩

/-- Data phases are made of data moves. -/
theorem dataPhase_data (b : Byte) : (dataPhase b).all dataMove = true := by revert b; decide

/-- What follows a data move. -/
theorem behind_data (f : CrcFunction) (m : Micro) (hm : runMove m = true) (a : Answer) (p : List Micro) (hp : p.all dataMove = true) :
    (behind f m a p).all dataMove = true ∧ ∀ tl, behind f m a (p ++ tl) = behind f m a p ++ tl := by
  cases m <;> try (cases hm; done)
  case cmd b =>
    simp only [behind]
    exact ⟨by rw [List.all_append, hp, dataPhase_data]; rfl, fun tl => by rw [List.append_assoc]⟩
  all_goals exact ⟨hp, fun _ => rfl⟩

/-- A request and a position. -/
theorem requestOf_goto (m : Micro) (s : State) (p : List Micro) :
    requestOf m (s.goto p) = (requestOf m s).goto p := by cases m <;> rfl
/-- An answer and a position. -/
theorem effect_goto (m : Micro) (a : Answer) (s : State) (p : List Micro) : ∃ q,
    effect m a (lower (s.goto p)) = (effect m a (lower s)).goto q := by
  cases m
  case discover | alarmSearch =>
    simp only [effect, lower_params, State.goto_params]
    by_cases ha : a.rflag = true <;> by_cases hv : romValid s.params.crc (unpack64 a.raddr) = true <;>
      simp only [ha, hv, if_true, if_false, Bool.false_eq_true] <;> exact ⟨_, rfl⟩
  all_goals simp only [effect] <;> repeat (first | exact ⟨_, rfl⟩ | split)

/-- The position plays no part. -/
theorem ready_goto {b : Prop} {s : State} {p : List Micro} (h : Ready b (s.goto p)) : Ready b s :=
    h.same rfl rfl rfl rfl rfl rfl rfl rfl

/-- A request. -/
theorem short_request {b : Prop} {tl : List Micro} {s : State} (h : Short b tl s) : Short b tl (request s) := by
  obtain ⟨p, ⟨h1, h2⟩ | ⟨m, h1, h2, h3, h4, h5⟩⟩ := h
  · unfold request; rw [h1]; exact ⟨[], Or.inl ⟨h1, h2⟩⟩
  · refine ⟨p, Or.inr ⟨m, ?_, h2, h3, h4, ?_⟩⟩
    · unfold request; rw [h1]; dsimp only; rw [requestOf_seq]; exact h1
    · have := (good_request h5).1
      have e : request (s.goto (m :: p ++ tl)) = (request s).goto (m :: p ++ tl) := by
        unfold request; rw [h1]; exact requestOf_goto m s _
      rw [e] at this; exact this

/-- Any event. -/
theorem short_accept {b : Prop} {tl : List Micro} (htl : Proc tl) {s : State} (e : Event) (h : Short b tl s) :
    Short b tl (accept s e) := by
  obtain ⟨p, ⟨h1, h2⟩ | ⟨m, h1, h2, h3, h4, h5⟩⟩ := h
  · have : accept s e = s := by
      cases e with
      | ack a => simp [accept, acceptAck, h1]
      | tick => simp [accept, acceptTick, h2.run]
      | _ => rfl
    rw [this]; exact ⟨[], Or.inl ⟨h1, h2⟩⟩
  · have hbusy : s.status.busy = true := busy_of_todo (s := s.goto (m :: p ++ tl)) h5.1 (by simp)
    have hd : m ≠ .dispatch := by intro hh; rw [hh] at h2; cases h2
    have hproc : Proc (p ++ tl) := (good_head h5 hbusy m (p ++ tl) rfl hd).1
    cases e with
    | ack a =>
      simp only [accept, acceptAck, h1]
      split
      · rename_i hb
        rw [settle_goto]
        obtain ⟨q, hq⟩ := effect_goto m a s (m :: p ++ tl)
        have hr := ready_effect h5 m (p ++ tl) rfl hb hbusy a
        rw [hq] at hr
        have hbd := behind_data s.params.crc m h2 a p h4
        exact short_advance htl _ _ hbd.1 (by rw [← hbd.2]; exact proc_behind _ m a _ hproc) (ready_goto hr)
      · exact ⟨p, Or.inr ⟨m, h1, h2, h3, h4, h5⟩⟩
    | tick =>
      simp only [accept, acceptTick]
      split
      · rename_i hr
        simp only [Bool.and_eq_true, bne_iff_ne, ne_eq] at hr
        obtain ⟨n, t, ht⟩ := run_waiting h5.1 hr.1
        have ht' := List.cons.inj ht
        have hm : m = .waiting n := ht'.1
        subst hm
        have hbd := h5.1.counter.2 hr.1
        unfold settle
        show Short b tl (advance .running s.seq.todo _)
        rw [h1]
        show Short b tl
          (if s.ctc.cnt - 1 = 0 then advance .running p (closeAssist (counted s (s.ctc.cnt - 1)) n)
           else (counted s (s.ctc.cnt - 1)).goto (.waiting n :: p))
        have hrc := ready_close h5 hbusy n (p ++ tl) rfl (s.ctc.cnt - 1)
        split
        · have e2 : closeAssist (counted (s.goto (.waiting n :: p ++ tl)) (s.ctc.cnt - 1)) n =
              (closeAssist (counted s (s.ctc.cnt - 1)) n).goto (.waiting n :: p ++ tl) :=
            closeAssist_goto (counted s (s.ctc.cnt - 1)) _ n
          have hrc : Ready b (closeAssist (counted (s.goto (.waiting n :: p ++ tl)) (s.ctc.cnt - 1)) n) := hrc
          rw [e2] at hrc
          exact short_advance htl p _ h4 hproc (ready_goto hrc)
        · rename_i hz
          have hc : (s.ctc.cnt - 1).toNat = s.ctc.cnt.toNat - 1 := by
            have : 0 < s.ctc.cnt.toNat := hbd.1
            rw [BitVec.toNat_sub]; have := s.ctc.cnt.isLt; simp; omega
          have hne : (s.ctc.cnt - 1).toNat ≠ 0 := fun hh => hz (BitVec.eq_of_toNat_eq hh)
          have h6 : s.ctc.cnt.toNat ≤ 750 := hbd.2
          exact ⟨p, Or.inr ⟨_, rfl, rfl, Or.inr ⟨n, rfl⟩, h4, good_count h5 hbusy _ (by omega) (by omega)⟩⟩
      · exact ⟨p, Or.inr ⟨m, h1, h2, h3, h4, h5⟩⟩
    | _ => exact ⟨p, Or.inr ⟨m, h1, h2, h3, h4, h5⟩⟩

/-- The events to come. -/
theorem short_env {b : Prop} {tl : List Micro} {s : State} (e : List Event) (h : Short b tl s) :
    Short b tl { s with env := e } := by
  obtain ⟨p, ⟨h1, h2⟩ | ⟨m, h1, h2, h3, h4, h5⟩⟩ := h
  · exact ⟨[], Or.inl ⟨h1, h2.same rfl rfl rfl rfl rfl rfl rfl rfl⟩⟩
  · exact ⟨p, Or.inr ⟨m, h1, h2, h3, h4, good_env h5 e⟩⟩

/-- Any events. -/
theorem short_feed {b : Prop} {tl : List Micro} (htl : Proc tl) : ∀ (es : List Event) (s : State), Short b tl s →
    Short b tl (feed es s) := by
  intro es
  induction es with
  | nil => intro s h; exact short_env [] (short_request h)
  | cons e es ih =>
    intro s h
    rw [feed]
    split
    · exact short_env _ h
    · exact ih _ (short_accept htl e (short_request h))

/-- Every wire command. -/
theorem good_runWire {b : Prop} {s : State} (h : Good b s) (hb : s.status.busy = true) (c : Byte) (t :
    List Micro) (ht : s.seq.todo = .cmd c :: t) (i : Instr) (hi : decodeWire c = .instr i) :
    Good b (runWire i s) := by
  obtain ⟨hw, hc⟩ := wire_decode c i hi
  have htl : Proc t := (good_head h hb _ _ ht (by intro hh; cases hh)).1
  have hshort : Short b t (runProc [wire i] s) := by
    rw [hw]
    rw [runProc_bus (.cmd c) rfl (by intro hh; cases hh)]
    refine short_feed htl _ _ ⟨[], Or.inr ⟨_, rfl, hc, Or.inl rfl, rfl, ?_⟩⟩
    show Good b (s.goto (.cmd c :: t))
    rw [goto_self s _ ht]; exact h
  unfold runWire
  dsimp only
  rw [ht]
  obtain ⟨p, ⟨h1, h2⟩ | ⟨m, h1, h2, h3, h4, h5⟩⟩ := hshort
  · rw [if_pos (by rw [h1]; rfl)]
    exact ready_advance b _ _ _ htl h2
  · rw [if_neg (by rw [h1]; simp), h1]
    exact h5

/-! ## The host's turn -/
/-- Operand registers play no part. -/
theorem good_args {b : Prop} {s : State} (h : Good b s) (a : Operands) (e : Bool) : Good b
        { s with args := a, pullupEn := e } := by
  obtain ⟨⟨a1, a2, a3, a4, a5, a6, a7, a8, a9, a10, a11, a12⟩, h3⟩ := h
  exact ⟨⟨a1, a2, a3, a4, a5, a6, a7, a8, a9, a10, a11, a12⟩, h3⟩

/-- With no operation in progress nothing is driven. -/
theorem idle_facts {s : State} (h : Consistent s) (hb : s.status.busy = false) : s.ctc.run = false ∧
    s.status.pullup = false ∧ s.bus.req = false := by
  have ht := (h.idleStep hb).1
  have hrun : s.ctc.run = false := by rw [h.counter.1]; unfold inWait; rw [ht]
  refine ⟨hrun, by rw [h.pin, hrun]; rfl, ?_⟩
  cases hq : s.bus.req with
  | false => rfl
  | true => have := h.requested hq; unfold atPrimitive at this; rw [ht] at this; cases this

/-- Any host write. -/
theorem good_hostWrite {b : Prop} {s : State} (h : Good b s) (r v : Byte) : Good b (hostWrite s r v) := by
  unfold hostWrite
  split
  · exact h
  · rename_i hb
    have hb : s.status.busy = false := by simpa using hb
    split
    · unfold State.writeCmd
      obtain ⟨hrun, hpin, hreq⟩ := idle_facts h.1 hb
      split
      · rename_i i hi
        obtain ⟨⟨a1, a2, a3, a4, a5, a6, a7, a8, a9, a10, a11, a12⟩, h3⟩ := h
        refine ⟨⟨a1, a2, a3, ?_, ?_, fun _ => ⟨rfl, rfl, rfl⟩, ⟨hrun, fun hh => ?_⟩, ?_, ?_, ?_, a11, fun _ => rfl⟩, ?_⟩
        · intro hh; cases hh
        · intro _; show legalHead v .dispatch = true; show (decodeHost v).toOption.isSome = true; rw [hi]; rfl
        · exact absurd (show s.ctc.run = true from hh) (by rw [hrun]; decide)
        · show s.status.pullup = (s.ctc.run && _); rw [hrun, hpin]; rfl
        · intro t hh; cases hh
        · intro hh; exact absurd (show s.bus.req = true from hh) (by rw [hreq]; decide)
        · intro _; show windowOf .closed [] = some (if s.status.pullup then .opened else .closed); rw [hpin]; rfl
      · obtain ⟨⟨a1, a2, a3, a4, a5, a6, a7, a8, a9, a10, a11, a12⟩, h3⟩ := h
        refine ⟨⟨a1, a2, a3, a4, a5, fun hh => ?_, a7, a8, a9, a10, a11, a12⟩, h3⟩
        exact absurd (show s.status.busy = true from hh) (by rw [hb]; decide)
    · obtain ⟨a, e, he⟩ := writeReg_form s r v
      rw [he]; exact good_args h a e

/-- A reset. -/
theorem reset_good (b : Prop) (s : State) : Good b (resetBlock s) := by
  refine ⟨?_, fun _ => rfl⟩
  refine ⟨rfl, ?_, Nat.zero_le _, fun _ => ⟨rfl, rfl⟩, fun hh => ?_, fun hh => ?_, ⟨rfl, fun hh => ?_⟩, rfl,
      fun t hh => ?_, fun hh => ?_, ⟨?_, fun hh => ?_⟩, fun hh => ?_⟩
  · intro c hc; cases hc
  · exact absurd (show false = true from hh) (by decide)
  · exact absurd (show false = true from hh) (by decide)
  · exact absurd (show false = true from hh) (by decide)
  · cases hh
  · exact absurd (show false = true from hh) (by decide)
  · show (0 : BitVec 3) ≠ 7; decide
  · exact absurd (show (0 : BitVec 3) = 2 from hh) (by decide)
  · exact absurd (show false = true from hh) (by decide)

/-- Inside a procedure SEQ stands still until a port answers. -/
theorem settle_stop {b : Prop} {s : State} (h : Good b s) (hb : s.status.busy = true) (m : Micro) (t : List Micro)
    (ht : s.seq.todo = m :: t) (hd : m ≠ .dispatch) : settle s = s := by
  unfold settle
  rw [ht]
  have hl := (good_head h hb m t ht hd).2
  by_cases hw : ∃ n, m = .waiting n
  · obtain ⟨n, rfl⟩ := hw
    have hrun : s.ctc.run = true := by rw [h.1.counter.1]; unfold inWait; rw [ht]
    have := h.1.counter.2 hrun
    show (if s.ctc.cnt = 0 then advance .running t (closeAssist s n) else s.goto (.waiting n :: t)) = s
    rw [if_neg (fun hh => by rw [hh] at this; exact absurd this.1 (by decide)), goto_self s _ ht]
  · by_cases hdd : m = .discover
    · subst hdd
      have := h.1.room t ht
      show (if s.count.toNat < s.params.maxDev then s.goto (.discover :: t) else advance .running t s) = s
      rw [if_pos this, goto_self s _ ht]
    · have hbus : m.isBus = true := by
        cases m <;> first | rfl | exact absurd rfl hd | exact absurd ⟨_, rfl⟩ hw | cases hl
      rw [advance_bus m hbus hdd, goto_self s _ ht]

/-- SEQ going on inside a procedure is a run from where it stands. -/
theorem seqTurn_inside {b : Prop} {s : State} (h : Good b s) (hb : s.status.busy = true) (m : Micro) (t : List Micro)
    (ht : s.seq.todo = m :: t) (hd : m ≠ .dispatch) : seqTurn s = feed s.env s := by
  unfold seqTurn
  rw [ht]
  simp only [List.isEmpty_cons, Bool.false_eq_true, if_false]
  unfold resume
  rw [settle_stop h hb m t ht hd]

/-- SEQ going on inside a procedure. -/
theorem good_seqTurn {b : Prop} {s : State} (h : Good b s) (hb : s.status.busy = true) (m : Micro) (t :
    List Micro) (ht : s.seq.todo = m :: t) (hd : m ≠ .dispatch) :
    Good b (seqTurn s) := by
  rw [seqTurn_inside h hb m t ht hd]
  exact good_feed b _ _ h

end Sys2Proof.Machine
end

