-- ==== Sys2Proof/Laws/Procedure.lean ====
section
/-! SUPPORT. SEQ never leaves the procedure of its operation (R31): whatever the ports answer, the moves that remain after a
run are a rest of those that remained before it. -/

namespace Sys2Proof.Machine

/-! ## Procedures written out -/

theorem unfolded_cons (m : Micro) (p : List Micro) : unfolded (m :: p) = m.unfold ++ unfolded p := rfl

theorem unfolded_append (p q : List Micro) : unfolded (p ++ q) = unfolded p ++ unfolded q := List.flatMap_append

/-- What follows a move is a rest. -/
theorem unfolded_tail (m : Micro) (p : List Micro) : unfolded p <:+ unfolded (m :: p) := List.suffix_append _ _

/-- A data phase holds no wire command and no running wait. -/
theorem unfolded_dataPhase (b : Byte) : unfolded (dataPhase b) = dataPhase b := by
  have : ∀ b : Byte, unfolded (dataPhase b) = dataPhase b := by decide
  exact this b

/-- A wait that has begun is written out as the assisted wait it belongs to. -/
theorem unfold_waitTicks (w : WaitFor) (t : Scratch) : (Micro.waiting (waitTicks w t)).unfold = [.assist w] := by
  cases w with
  | eeprom => rfl
  | conversion =>
    simp only [waitTicks, Micro.unfold, Config.tEeprom]
    unfold tConv
    repeat' split
    all_goals first | rfl | omega

/-! ## Runs -/

/-- Going on drops moves from the front only. -/
theorem rest_advance : ∀ (p : List Micro) (c : Course) (s : State), RestOf p (advance c p s).seq.todo := by
  intro p
  induction p with
  | nil => intro c s; exact List.suffix_refl _
  | cons m t ih =>
    intro c s
    have drop : ∀ c s, RestOf (m :: t) (advance c t s).seq.todo := fun c s => (ih c s).trans (unfolded_tail m t)
    simp only [advance]
    cases c.skips m with
    | some c => exact drop _ _
    | none =>
      cases m with
      | fail k => exact drop _ _
      | checkCrc => dsimp only; split <;> exact drop _ _
      | checkEcho => dsimp only; split <;> exact drop _ _
      | loadArgs => exact drop _ _
      | loadRes => exact drop _ _
      | loadAlarms => exact drop _ _
      | getRes => exact drop _ _
      | resolve => dsimp only; split <;> exact drop _ _
      | assist w =>
        show unfolded (.waiting (waitTicks w s.tmp) :: t) <:+ unfolded (.assist w :: t)
        rw [unfolded_cons, unfolded_cons, unfold_waitTicks]
        exact List.suffix_refl _
      | waiting n =>
        dsimp only; split
        · exact drop _ _
        · exact List.suffix_refl _
      | discover =>
        dsimp only; split
        · exact List.suffix_refl _
        · exact drop _ _
      | finish r =>
        show unfolded (s.finish r).seq.todo <:+ _
        rw [todo_of_finish]; exact List.nil_suffix
      | _ => exact List.suffix_refl _

/-- Going on behind an answered primitive. -/
theorem rest_behind (f : CrcFunction) (m : Micro) (a : Answer) (t : List Micro) (s : State) :
    RestOf (m :: t) (advance .running (behind f m a t) s).seq.todo := by
  have whole : RestOf (m :: t) (advance .running (m :: t) s).seq.todo := rest_advance _ _ _
  have drop : ∀ c s, RestOf (m :: t) (advance c t s).seq.todo :=
    fun c s => (rest_advance t c s).trans (unfolded_tail m t)
  cases m with
  | cmd b =>
    refine (rest_advance _ _ _).trans ?_
    show unfolded (dataPhase b ++ t) <:+ (.cmd b :: dataPhase b) ++ unfolded t
    rw [unfolded_append, unfolded_dataPhase]
    exact List.suffix_cons _ _
  | reset => simp only [behind]; split <;> exact drop _ _
  | discover => simp only [behind]; split <;> first | exact whole | exact drop _ _
  | alarmSearch => simp only [behind]; repeat' split
                   all_goals exact drop _ _
  | _ => exact drop _ _

/-- Any event. -/
theorem rest_accept (s : State) (e : Event) : RestOf s.seq.todo (accept s e).seq.todo := by
  cases e with
  | ack a =>
    simp only [accept, acceptAck]
    cases ht : s.seq.todo with
    | nil => dsimp only; rw [ht]; exact List.suffix_refl _
    | cons m t =>
      dsimp only; split
      · rw [settle_goto]; exact rest_behind _ m a t _
      · rw [ht]; exact List.suffix_refl _
  | tick =>
    simp only [accept, acceptTick]; split
    · exact rest_advance _ _ _
    · exact List.suffix_refl _
  | _ => exact List.suffix_refl _

/-- A request moves nothing. -/
theorem request_todo (s : State) : (request s).seq.todo = s.seq.todo := by
  unfold request; split
  · rfl
  · rw [requestOf_todo]

/-- Any events. -/
theorem rest_feed : ∀ (es : List Event) (s : State), RestOf s.seq.todo (feed es s).seq.todo := by
  intro es
  induction es with
  | nil => intro s; show unfolded (request s).seq.todo <:+ _; rw [request_todo]
  | cons e es ih =>
    intro s
    rw [feed]; split
    · exact List.suffix_refl _
    · have := (ih (accept (request s) e)).trans (rest_accept (request s) e)
      rwa [request_todo] at this

/-- SEQ going on. -/
theorem rest_resume (s : State) : RestOf s.seq.todo (resume s).seq.todo :=
  (rest_feed _ _).trans (rest_advance _ _ _)

/-- A whole procedure. -/
theorem rest_runProc (p : List Micro) (s : State) : RestOf p (runProc p s).seq.todo := rest_resume (s.goto p)

/-- A wire command at its place in a procedure. -/
theorem rest_runWire (i : Instr) (s : State) (t : List Micro) (ht : s.seq.todo = wire i :: t) :
    RestOf s.seq.todo (runWire i s).seq.todo := by
  unfold runWire
  dsimp only
  rw [ht]
  split
  · exact (rest_advance _ _ _).trans (unfolded_tail _ _)
  · show unfolded (_ ++ t) <:+ unfolded ([wire i] ++ t)
    rw [unfolded_append, unfolded_append]
    obtain ⟨x, hx⟩ := rest_runProc [wire i] s
    exact ⟨x, by rw [← List.append_assoc, hx]⟩

/-- Every host operation, from its start: what remains is a rest of its procedure. -/
theorem rest_exec (i : Instr) (hi : i.format = .host8) (s t : State) (h : exec i s = .next t) :
    RestOf (procedureOf i s.latch) t.seq.todo := by
  cases i <;> try (cases hi; done)
  case getAddr =>
    simp only [exec, execGetAddr] at h
    split at h
    · split at h
      · cases h; exact List.nil_suffix
      · cases h
    · cases h; exact List.nil_suffix
  all_goals (cases h; first | exact List.nil_suffix | exact rest_runProc _ _)

/-! ## `SEQ.OP` and the latches -/

/-- No move writes `SEQ.OP`, a latch or the host port's read value. -/
theorem kept_operation (op : Byte) (l : Latches) (r : Byte) :
    Kept (fun _ => True) (fun s => s.seq.op = op ∧ s.latch = l ∧ s.hostRd = r) := by
  constructor
  case tmp => intro s x h; exact h
  case failKind => intro s x h; exact h
  case goto => intro s x h; exact h
  case env => intro s x h; exact h
  case openAssist => intro s w _ h; unfold openAssist; dsimp only; split <;> exact h
  case closeAssist => intro s w _ h; unfold closeAssist; dsimp only; split <;> exact h
  case tick => intro s _ h; exact h
  case request => intro m s _ h; cases m <;> exact h
  case finish => intro s r _ h; cases r <;> simp only [State.finish] <;> split <;> exact h
  case effect =>
    intro m a s _ _ h
    cases m <;> simp only [effect] <;> repeat' split
    all_goals exact h
  all_goals intros; trivial

/-- No move is left but those of the procedure, and SEQ is never at a start again. -/
theorem kept_inside : Kept (fun m => m ≠ .dispatch) (fun _ => True) := by
  constructor
  case qWaiting => intros; simp
  case qFail => intros; simp
  case qData =>
    intro b m _ hm
    rcases dataPhase_cases b m hm with ⟨_, _, rfl⟩ | ⟨_, rfl⟩ | ⟨rfl, _⟩ | rfl <;> simp
  all_goals intros; trivial

/-- An instruction keeps what every move keeps, given its direct updates. -/
theorem kept_exec {P : State → Prop} (k : Kept (fun _ => True) P) (i : Instr) (s t : State) (hs : P s)
    (hout : ∀ s o, P s → P { s with out := o }) (hargs : ∀ s a, P s → P { s with args := a })
    (hcount : ∀ s c, P s → P { s with count := c }) (hend : ∀ s b, P s → P (s.endOp b)) (h : exec i s = .next t) : P t := by
  cases i
  case getAddr =>
    simp only [exec, execGetAddr] at h
    split at h
    · split at h
      · cases h; exact hend _ _ (hargs _ _ hs)
      · cases h
    · cases h; exact hend _ _ (k.raise _ _ hs)
  case crcClr => cases h; exact hend _ _ (hout _ _ hs)
  case crcPush => cases h; exact hend _ _ (hout _ _ hs)
  case pack64 => cases h; exact hend _ _ (hout _ _ hs)
  case discover => cases h; exact (k.runProc _ _ (by simp) (hcount _ _ hs)).1
  all_goals
    cases h
    first
      | exact (k.runProc _ _ (by intros; trivial) hs).1
      | exact k.runWire _ _ trivial (by intros; trivial) hs

/-- Every instruction leaves `SEQ.OP`, the latches and the host port's read value. -/
theorem exec_operation (i : Instr) (s t : State) (h : exec i s = .next t) :
    t.seq.op = s.seq.op ∧ t.latch = s.latch ∧ t.hostRd = s.hostRd :=
  kept_exec (kept_operation s.seq.op s.latch s.hostRd) i s t ⟨rfl, rfl, rfl⟩ (fun _ _ h => h) (fun _ _ h => h)
    (fun _ _ h => h) (fun _ _ h => h) h

/-! ## What a step can do -/

/-- SEQ's turn at a position (R31, R33, R93): the opcode in `SEQ.OP`, a wire command, or neither. -/
def SeqStep (s t : State) : Prop :=
  (∃ i q, s.seq.todo = .dispatch :: q ∧ decodeHost s.seq.op = .instr i ∧ exec i s = .next t) ∨
  (∃ c i q, s.seq.todo = .cmd c :: q ∧ decodeWire c = .instr i ∧ t = runWire i s) ∨
  ((∀ q, s.seq.todo ≠ .dispatch :: q) ∧ (∀ c q, s.seq.todo ≠ .cmd c :: q) ∧ t = seqTurn s)

/-- SEQ's turn, from what it fetches. -/
theorem seqStep (s t : State)
    (h : (match fetch s with
      | some (.instr i) => exec i s
      | some (.rejected (.illegalHostOpcode b)) => .fault (.undecodable b)
      | some (.rejected (.notAWireCommand b)) => .fault (.undecodable b)
      | none => .next (seqTurn s)) = Host.Outcome.next t) : SeqStep s t := by
  have other : (∀ q, s.seq.todo ≠ .dispatch :: q) → (∀ c q, s.seq.todo ≠ .cmd c :: q) → fetch s = none → SeqStep s t := by
    intro h1 h2 hf
    rw [hf] at h; cases h
    exact Or.inr (Or.inr ⟨h1, h2, rfl⟩)
  cases ht : s.seq.todo with
  | nil => exact other (by simp [ht]) (by simp [ht]) (by unfold fetch position; rw [ht])
  | cons m q =>
    by_cases hd : m = .dispatch
    · subst hd
      have hf : fetch s = some (decodeHost s.seq.op) := by unfold fetch position; rw [ht]
      rw [hf] at h
      cases hdec : decodeHost s.seq.op with
      | instr i => rw [hdec] at h; exact Or.inl ⟨i, q, ht, hdec, h⟩
      | rejected w => rw [hdec] at h; cases w <;> cases h
    · by_cases hc : ∃ c, m = .cmd c
      · obtain ⟨c, rfl⟩ := hc
        have hf : fetch s = some (decodeWire c) := by unfold fetch position; rw [ht]
        rw [hf] at h
        cases hdec : decodeWire c with
        | instr i =>
          rw [hdec] at h
          have h : exec i s = .next t := h
          rw [exec_wire c i hdec] at h; cases h
          exact Or.inr (Or.inl ⟨c, i, q, ht, hdec, rfl⟩)
        | rejected w => rw [hdec] at h; cases w <;> cases h
      · refine other ?_ ?_ ?_
        · intro q' hh; rw [ht] at hh; exact hd (List.cons.inj hh).1
        · intro c q' hh; rw [ht] at hh; exact hc ⟨c, (List.cons.inj hh).1⟩
        · unfold fetch position; rw [ht]
          cases m <;> first | rfl | exact absurd rfl hd | exact absurd ⟨_, rfl⟩ hc

/-- Everything a step can do: the host's turn, nobody's, or SEQ's. -/
theorem step_cases (s t : State) (h : step s = .next t) :
    (∃ e es, s.env = e :: es ∧ e.ofHost = true ∧ t = hostTurn { s with env := es } e) ∨
    (s.status.busy = false ∧ t = idleTurn s) ∨
    (s.status.busy = true ∧ (∀ e, s.env.head? = some e → e.ofHost = false) ∧ SeqStep s t) := by
  unfold step nextTurn at h
  cases he : s.env with
  | nil =>
    rw [he] at h
    cases hb : s.status.busy with
    | false => rw [hb] at h; cases h; exact Or.inr (Or.inl ⟨rfl, rfl⟩)
    | true =>
      rw [hb] at h
      refine Or.inr (Or.inr ⟨rfl, (by intro e hh; cases hh), seqStep s t h⟩)
  | cons e es =>
    rw [he] at h
    cases ho : e.ofHost with
    | true => simp only [ho, if_true] at h; cases h; exact Or.inl ⟨e, es, rfl, ho, rfl⟩
    | false =>
      simp only [ho, Bool.false_eq_true, if_false] at h
      cases hb : s.status.busy with
      | false => rw [hb] at h; cases h; exact Or.inr (Or.inl ⟨rfl, rfl⟩)
      | true =>
        rw [hb] at h
        exact Or.inr (Or.inr ⟨rfl, (by intro e' hh; cases hh; exact ho), seqStep s t h⟩)

/-- With an operation in progress and no host event next, the step is SEQ's. -/
theorem seqStep_of_step (s t : State) (hb : s.status.busy = true) (hh : ∀ e, s.env.head? = some e → e.ofHost = false)
    (h : step s = .next t) : SeqStep s t := by
  rcases step_cases s t h with ⟨e, es, h1, h2, _⟩ | ⟨h1, _⟩ | ⟨_, _, h1⟩
  · rw [hh e (by rw [h1]; rfl)] at h2; cases h2
  · rw [hb] at h1; cases h1
  · exact h1

/-- What holds of every move of a procedure holds of every move of a rest of it. -/
theorem rest_moves (Q : Micro → Prop) (hu : ∀ m, (∀ x ∈ m.unfold, Q x) → Q m) (p todo : List Micro) (h : RestOf p todo)
    (hp : ∀ x ∈ unfolded p, Q x) : ∀ m ∈ todo, Q m :=
  fun m hm => hu m (fun x hx => hp x (h.subset (List.mem_flatMap.2 ⟨m, hm, hx⟩)))

/-- Only the procedure of SET_RES depends on the latched operands. -/
theorem procedureOf_latch (i : Instr) (hi : i ≠ .setRes) (l l' : Latches) : procedureOf i l = procedureOf i l' := by
  cases i <;> first | rfl | exact absurd rfl hi

/-- A step of SEQ stays in the procedure of the operation. -/
theorem step_in_procedure (s t : State) (hp : InProcedure s) (hb : s.status.busy = true) (i : Instr)
    (hi : decodeHost s.seq.op = .instr i) (h : SeqStep s t) : RestOf (procedureOf i s.latch) t.seq.todo := by
  obtain ⟨i', hi', hp⟩ := hp hb
  rw [hi] at hi'; cases hi'
  rcases h with ⟨j, q, hq, hj, h⟩ | ⟨c, j, q, hq, hj, rfl⟩ | ⟨h1, h2, rfl⟩
  · rw [hi] at hj; cases hj
    exact rest_exec i (host_format _ i hi) s t h
  · rcases hp with hp | hp
    · rw [hp] at hq; cases hq
    · refine List.IsSuffix.trans (rest_runWire j s q ?_) hp
      rw [hq, (wire_decode c j hj).1]
  · rcases hp with hp | hp
    · exact absurd hp (h1 _)
    · unfold seqTurn; split
      · exact List.nil_suffix
      · exact (rest_resume s).trans hp

/-- A step of SEQ leaves `SEQ.OP`, the latches and the host port's read value. -/
theorem step_operation (s t : State) (h : SeqStep s t) :
    t.seq.op = s.seq.op ∧ t.latch = s.latch ∧ t.hostRd = s.hostRd := by
  rcases h with ⟨i, _, _, _, h⟩ | ⟨_, i, _, _, hj, rfl⟩ | ⟨_, _, rfl⟩
  · exact exec_operation i s t h
  · exact exec_operation i s _ (exec_wire _ i hj s)
  · unfold seqTurn; split
    · exact ⟨rfl, rfl, rfl⟩
    · exact ((kept_operation s.seq.op s.latch s.hostRd).resume s (by intros; trivial) ⟨rfl, rfl, rfl⟩).1

/-- The host's turn starts an operation at its start, or leaves the one in progress. -/
theorem hostTurn_procedure (s : State) (e : Event) (hp : InProcedure s) : InProcedure (hostTurn s e) := by
  cases e with
  | hostWrite r v =>
    show InProcedure (hostWrite s r v)
    unfold hostWrite
    split
    · exact hp
    · rename_i hb
      have idle : ∀ t : State, t.status.busy = s.status.busy → InProcedure t := fun t ht hh => absurd (ht ▸ hh) hb
      split
      · unfold State.writeCmd; split
        · rename_i i hi; intro _; exact ⟨i, hi, Or.inl rfl⟩
        · exact idle _ rfl
      · obtain ⟨a, x, he⟩ := writeReg_form s r v
        rw [he]; exact idle _ rfl
  | hostRead r => exact hp
  | rst => intro hh; cases hh
  | _ => exact hp

/-- Every step keeps SEQ in the procedure of `SEQ.OP` (R31). -/
theorem step_procedure (s t : State) (hp : InProcedure s) (h : step s = .next t) : InProcedure t := by
  rcases step_cases s t h with ⟨e, es, _, _, rfl⟩ | ⟨hb, rfl⟩ | ⟨hb, _, h⟩
  · exact hostTurn_procedure _ e hp
  · intro hh; exact absurd (show s.status.busy = true from hh) (by rw [hb]; decide)
  · intro _
    obtain ⟨i, hi, _⟩ := hp hb
    obtain ⟨e1, e2, _⟩ := step_operation s t h
    exact ⟨i, by rw [e1]; exact hi, Or.inr (by rw [e2]; exact step_in_procedure s t hp hb i hi h)⟩

end Sys2Proof.Machine
end

