-- ==== Sys2Proof/Laws/Accesses.lean ====
section
/-! SUPPORT. Runs that accesses of the host cut into pieces (R12, R34): a run that stopped for an access and goes on
afterwards is the run without the access. -/

namespace Sys2Proof.Machine

/-! ## What a run does not look at -/

/-- `t` is `s` with the host port's read value `r` and other events to come. -/
def SeqSees (r : Byte) (s t : State) : Prop := ∃ e, t = { s with env := e, hostRd := r }

/-- No move looks at the events to come or at the host port's read value. -/
theorem sim_seqSees (r : Byte) : Sim (SeqSees r) := by
  constructor
  case env => rintro s _ e ⟨_, rfl⟩; exact ⟨e, rfl⟩
  case raise => rintro s _ k ⟨e, rfl⟩; exact ⟨e, rfl⟩
  case openAssist => rintro s _ n ⟨e, rfl⟩; unfold openAssist assistDrives; dsimp only; split <;> exact ⟨e, rfl⟩
  case closeAssist => rintro s _ n ⟨e, rfl⟩; unfold closeAssist assistDrives; dsimp only; split <;> exact ⟨e, rfl⟩
  case finish => rintro s _ k ⟨e, rfl⟩; cases k <;> simp only [State.finish] <;> split <;> exact ⟨e, rfl⟩
  case request => rintro m s _ ⟨e, rfl⟩; cases m <;> exact ⟨e, rfl⟩
  case effect =>
    rintro m a s _ ⟨e, rfl⟩
    cases m
    case reset =>
      show SeqSees r (if a.rflag then _ else _) (if a.rflag then _ else _)
      split <;> exact ⟨e, rfl⟩
    case discover | alarmSearch =>
      show SeqSees r (if a.rflag then (if romValid s.params.crc _ then _ else _) else _)
        (if a.rflag then (if romValid s.params.crc _ then _ else _) else _)
      repeat' split
      all_goals exact ⟨e, rfl⟩
    all_goals exact ⟨e, rfl⟩
  case tmp => rintro s _ x ⟨e, rfl⟩; exact ⟨e, rfl⟩
  case goto => rintro s _ x ⟨e, rfl⟩; exact ⟨e, rfl⟩
  case tick => rintro s _ x ⟨e, rfl⟩; exact ⟨e, rfl⟩
  all_goals rintro s _ ⟨_, rfl⟩; rfl

/-- A run on given events is the same whatever `env` and the host port's read value are. -/
theorem feed_seqSees (r : Byte) : ∀ (es : List Event) (s t : State), SeqSees r s t →
    feed es t = { feed es s with hostRd := r } := by
  intro es
  induction es with
  | nil =>
    intro s t h
    obtain ⟨e, he⟩ := (sim_seqSees r).requestKept _ _ h
    rw [feed_nil, feed_nil, he]
  | cons e es ih =>
    intro s t h
    rw [feed, feed, ← (sim_seqSees r).todo _ _ h]
    split
    · obtain ⟨e, rfl⟩ := h; rfl
    · exact ih _ _ ((sim_seqSees r).accept _ _ e ((sim_seqSees r).requestKept _ _ h))

/-- The events in `env` play no part in a run on given events. -/
theorem feed_env (es e : List Event) (s : State) : feed es { s with env := e } = feed es s :=
  (feed_seqSees s.hostRd es s _ ⟨e, rfl⟩).trans (feed_seqSees s.hostRd es s s ⟨s.env, rfl⟩).symm

/-- A run leaves a rest of its events. -/
theorem feed_rest : ∀ (es : List Event) (s : State), (feed es s).env <:+ es := by
  intro es
  induction es with
  | nil => intro s; exact List.nil_suffix
  | cons e es ih =>
    intro s
    rw [feed]; split
    · exact List.suffix_refl _
    · exact (ih _).trans (List.suffix_cons _ _)

/-- A run that can take its first event takes it. -/
theorem feed_takes (e : Event) (es : List Event) (s : State) (hs : s.seq.todo ≠ []) (he : e.ofHost = false) :
    (feed (e :: es) s).env <:+ es := by
  rw [feed, if_neg (by simp [he, hs])]; exact feed_rest _ _

/-! ## Accesses left out -/

theorem withoutAccesses_cons (e : Event) (es : List Event) :
    withoutAccesses (e :: es) = if e.isAccess then withoutAccesses es else e :: withoutAccesses es := by
  cases e <;> rfl

/-- Leaving accesses out twice is leaving them out once. -/
theorem withoutAccesses_idem (es : List Event) : withoutAccesses (withoutAccesses es) = withoutAccesses es := by
  simp [withoutAccesses]

/-- Events with no access among them stay as they are. -/
theorem withoutAccesses_rest {es l : List Event} (h : l <:+ withoutAccesses es) : withoutAccesses l = l :=
  List.filter_eq_self.2 (fun _ ha => (List.mem_filter.1 (h.subset ha)).2)

/-- A run that stopped, and goes on without the accesses still to come, is the run without accesses. -/
theorem feed_withoutAccesses : ∀ (es : List Event) (s : State), .rst ∉ es →
    feed (withoutAccesses es) s = feed (withoutAccesses (feed es s).env) (feed es s) := by
  intro es
  induction es with
  | nil =>
    intro s _
    exact (congrArg (fun x : State => ({ x with env := [] } : State)) (request_request s)).symm.trans
      (feed_env [] [] (request s)).symm
  | cons e es ih =>
    intro s hr
    cases ht : s.seq.todo with
    | nil => rw [feed_ended (e :: es) s ht]; exact (feed_env _ _ s).symm
    | cons m p =>
      cases he : e.ofHost with
      | true =>
        have : feed (e :: es) s = { s with env := e :: es } := by rw [feed, if_pos (by simp [he])]
        rw [this]; exact (feed_env _ _ s).symm
      | false =>
        have ha : e.isAccess = false := by cases e <;> first | rfl | cases he
        have hgo : ∀ l, feed (e :: l) s = feed l (accept (request s) e) := by
          intro l; rw [feed, if_neg (by simp [he, ht])]
        rw [withoutAccesses_cons, ha, if_neg (by decide), hgo, hgo]
        exact ih _ (fun h => hr (List.mem_cons_of_mem _ h))

/-! ## A wire command by itself, and the procedure around it -/

/-- A wire command, having come to `z` by itself, goes on to `tl` (`runWire`). -/
def resumed (tl : List Micro) (z : State) : State :=
  if z.seq.todo.isEmpty then advance .running tl z else z.goto (z.seq.todo ++ tl)

theorem runWire_resumed (i : Instr) (s : State) : runWire i s = resumed s.seq.todo.tail (runProc [wire i] s) := rfl

theorem resumed_ended (tl : List Micro) (z : State) (h : z.seq.todo = []) : resumed tl z = advance .running tl z := by
  unfold resumed; rw [h]; rfl

theorem resumed_inside (tl : List Micro) (z : State) (h : z.seq.todo ≠ []) : resumed tl z = z.goto (z.seq.todo ++ tl) := by
  unfold resumed; rw [if_neg (by simp [h])]

/-- The events in `env` play no part behind a wire command. -/
theorem feed_resumed_env (es e : List Event) (tl : List Micro) (z : State) :
    feed es (resumed tl { z with env := e }) = feed es (resumed tl z) := by
  have hs : SeqSees z.hostRd (resumed tl z) (resumed tl { z with env := e }) := by
    have hz : SeqSees z.hostRd z { z with env := e } := ⟨e, rfl⟩
    unfold resumed
    dsimp only
    split
    · exact (sim_seqSees _).advance _ _ _ _ hz
    · exact (sim_seqSees _).goto _ _ _ hz
  have hh : SeqSees z.hostRd (resumed tl z) (resumed tl z) := by
    have hz : SeqSees z.hostRd z z := ⟨z.env, rfl⟩
    unfold resumed
    split
    · exact (sim_seqSees _).advance _ _ _ _ hz
    · exact (sim_seqSees _).goto _ _ _ hz
  exact (feed_seqSees _ es _ _ hs).trans (feed_seqSees _ es _ _ hh).symm

/-- A wire command under way: at a primitive or a wait of it, with moves of its data phase behind. -/
def UnderWay (z : State) : Prop :=
  z.seq.todo = [] ∨ ∃ m p, z.seq.todo = m :: p ∧ runMove m = true ∧ p.all dataMove = true

/-- The moves of a data phase, by themselves and in a procedure. -/
theorem advance_resumed (tl p : List Micro) (s : State) (hp : p.all dataMove = true) :
    advance .running (p ++ tl) s = resumed tl (advance .running p s) ∧ UnderWay (advance .running p s) := by
  cases p with
  | nil => exact ⟨by rw [resumed_ended tl _ rfl]; exact (advance_goto _ _ _ _).symm, Or.inl rfl⟩
  | cons m p =>
    simp only [List.all_cons, Bool.and_eq_true] at hp
    cases m <;> try (cases hp.1; done)
    all_goals exact ⟨rfl, Or.inr ⟨_, p, rfl, hp.1, hp.2⟩⟩

/-- The same from the place SEQ stands at. -/
theorem settle_resumed (tl : List Micro) (z : State) (m : Micro) (p : List Micro) (hz : z.seq.todo = m :: p)
    (hm : runMove m = true) (hp : p.all dataMove = true) :
    advance .running (m :: p ++ tl) z = resumed tl (settle z) ∧ UnderWay (settle z) := by
  unfold settle
  rw [hz]
  by_cases hw : ∃ n, m = .waiting n
  · obtain ⟨n, rfl⟩ := hw
    show (if z.ctc.cnt = 0 then advance .running (p ++ tl) (closeAssist z n) else z.goto (.waiting n :: (p ++ tl))) =
        resumed tl (if z.ctc.cnt = 0 then advance .running p (closeAssist z n) else z.goto (.waiting n :: p)) ∧
      UnderWay (if z.ctc.cnt = 0 then advance .running p (closeAssist z n) else z.goto (.waiting n :: p))
    split
    · exact advance_resumed tl p _ hp
    · exact ⟨rfl, Or.inr ⟨_, p, rfl, rfl, hp⟩⟩
  · refine advance_resumed tl (m :: p) z ?_
    have : dataMove m = true := by cases m <;> first | exact hm | exact absurd ⟨_, rfl⟩ hw
    rw [List.all_cons, this, hp]; rfl

/-- One event, by itself and in a procedure. -/
theorem accept_resumed (tl : List Micro) (z : State) (m : Micro) (p : List Micro) (hz : z.seq.todo = m :: p)
    (hm : runMove m = true) (hp : p.all dataMove = true) (e : Event) :
    accept (resumed tl z) e = resumed tl (accept z e) ∧ UnderWay (accept z e) := by
  have hre : resumed tl z = z.goto (m :: p ++ tl) := by rw [resumed_inside tl z (by simp [hz]), hz]
  have stay : z.goto (m :: p ++ tl) = resumed tl z ∧ UnderWay z := ⟨hre.symm, Or.inr ⟨m, p, hz, hm, hp⟩⟩
  rw [hre]
  cases e with
  | ack a =>
    simp only [accept, acceptAck, hz, State.goto_seq, List.cons_append]
    split
    · obtain ⟨q, hq⟩ := effect_goto m a z (m :: (p ++ tl))
      have hd := behind_data z.params.crc m hm a p hp
      rw [settle_goto, settle_goto, hq, advance_goto]
      show advance .running (behind z.params.crc m a (p ++ tl)) _ = _ ∧ _
      rw [hd.2 tl]
      exact advance_resumed tl _ _ hd.1
    · exact stay
  | tick =>
    by_cases hr : (z.ctc.run && z.ctc.cnt != 0) = true
    · have e1 : accept z .tick = settle { z with ctc := { z.ctc with cnt := z.ctc.cnt - 1 } } := if_pos hr
      have e2 : accept (z.goto (m :: p ++ tl)) .tick =
          settle (({ z with ctc := { z.ctc with cnt := z.ctc.cnt - 1 } } : State).goto (m :: p ++ tl)) := if_pos hr
      have := settle_resumed tl { z with ctc := { z.ctc with cnt := z.ctc.cnt - 1 } } m p hz hm hp
      rw [e1, e2, settle_goto]
      exact this
    · have e1 : accept z .tick = z := if_neg hr
      have e2 : accept (z.goto (m :: p ++ tl)) .tick = z.goto (m :: p ++ tl) := if_neg hr
      rw [e1, e2]; exact stay
  | _ => exact stay

/-- Any events. -/
theorem underWay_feed : ∀ (es : List Event) (z : State), UnderWay z → UnderWay (feed es z) := by
  have req : ∀ z, UnderWay z → UnderWay (request z) := by
    intro z h; unfold UnderWay at *; rw [request_todo]; exact h
  intro es
  induction es with
  | nil => intro z h; exact req z h
  | cons e es ih =>
    intro z h
    rcases h with h | ⟨m, p, hz, hm, hp⟩
    · rw [feed_ended _ _ h]; exact Or.inl h
    · rw [feed]; split
      · exact Or.inr ⟨m, p, hz, hm, hp⟩
      · exact ih _ (accept_resumed [] (request z) m p (by rw [request_todo, hz]) hm hp e).2

/-- A run inside a procedure is the run of the wire command by itself, and on from there. -/
theorem feed_resumed (tl : List Micro) : ∀ (es : List Event) (z : State), UnderWay z →
    feed es (resumed tl z) = feed (feed es z).env (resumed tl (feed es z)) := by
  intro es
  induction es with
  | nil =>
    rintro z h
    refine Eq.trans ?_ (feed_resumed_env [] [] tl (request z)).symm
    rcases h with h | ⟨m, p, hz, hm, hp⟩
    · have : request z = z := by unfold request; rw [h]
      rw [this]
    · have e1 : resumed tl (request z) = request (resumed tl z) := by
        rw [resumed_inside tl z (by simp [hz]), resumed_inside tl _ (by rw [request_todo, hz]; simp), request_todo, hz]
        unfold request
        rw [hz]
        exact (requestOf_goto m z _).symm
      rw [e1, feed_request [] _ (by simp) (by rw [resumed_inside tl z (by simp [hz])]; simp [hz])]
  | cons e es ih =>
    rintro z h
    have stopped : feed (e :: es) z = { z with env := e :: es } →
        feed (e :: es) (resumed tl z) = feed (feed (e :: es) z).env (resumed tl (feed (e :: es) z)) := by
      intro hs; rw [hs]; exact (feed_resumed_env _ _ tl z).symm
    rcases h with h | ⟨m, p, hz, hm, hp⟩
    · exact stopped (feed_ended _ _ h)
    · cases he : e.ofHost with
      | true => exact stopped (by rw [feed, if_pos (by simp [he])])
      | false =>
        have hne : (resumed tl z).seq.todo = m :: p ++ tl := by rw [resumed_inside tl z (by simp [hz]), hz]; rfl
        have e1 : request (resumed tl z) = resumed tl (request z) := by
          rw [resumed_inside tl z (by simp [hz]), resumed_inside tl _ (by rw [request_todo, hz]; simp), request_todo, hz]
          unfold request
          rw [hz]
          exact requestOf_goto m z _
        have hq : (request z).seq.todo = m :: p := by rw [request_todo, hz]
        obtain ⟨e2, hu⟩ := accept_resumed tl (request z) m p hq hm hp e
        rw [feed, if_neg (by simp [he, hne]), e1, e2, ih _ hu]
        have : feed (e :: es) z = feed es (accept (request z) e) := by rw [feed, if_neg (by simp [he, hz])]
        rw [this]

/-! ## Where a run is going -/

/-- Where an operation in progress comes to rest when no further access comes. -/
def destination (s : State) : State := feed (withoutAccesses s.env) s

/-- The end of an operation is its own destination. -/
theorem destination_ended (s : State) (h : s.seq.todo = []) : destination s = { s with env := withoutAccesses s.env } :=
  feed_ended _ _ h

/-- An access of the host changes no destination but for the port's read value. -/
theorem destination_access (s : State) (e : Event) (es : List Event) (r : Byte) (he : s.env = e :: es)
    (ha : e.isAccess = true) : destination { s with env := es, hostRd := r } = { destination s with hostRd := r } := by
  unfold destination
  rw [he, withoutAccesses_cons, if_pos ha]
  exact feed_seqSees r _ s _ ⟨es, rfl⟩

/-- A run on the events to come keeps the destination. -/
theorem destination_feed (s : State) (h : .rst ∉ s.env) : destination (feed s.env s) = destination s :=
  (feed_withoutAccesses s.env s h).symm

/-- Going on does not touch the events to come. -/
theorem advance_env : ∀ (p : List Micro) (c : Course) (s : State), (advance c p s).env = s.env := by
  intro p
  induction p with
  | nil => intro c s; rfl
  | cons m t ih =>
    intro c s
    simp only [advance]
    cases c.skips m with
    | some c => exact ih _ _
    | none =>
      cases m with
      | checkCrc => dsimp only; split <;> exact ih _ _
      | checkEcho => dsimp only; split <;> exact ih _ _
      | resolve => dsimp only; split <;> exact ih _ _
      | fail | loadArgs | loadRes | loadAlarms | getRes => exact ih _ _
      | assist w => unfold openAssist; dsimp only; split <;> rfl
      | waiting n =>
        dsimp only; split
        · rw [ih]; unfold closeAssist; dsimp only; split <;> rfl
        · rfl
      | discover => dsimp only; split <;> first | rfl | exact ih _ _
      | finish r => cases r <;> simp only [State.finish] <;> split <;> rfl
      | _ => rfl

/-- The same behind a wire command. -/
theorem resumed_env (tl : List Micro) (z : State) : (resumed tl z).env = z.env := by
  unfold resumed
  split
  · exact advance_env _ _ _
  · rfl

/-- A wire command keeps the destination. -/
theorem destination_runWire (s : State) (c : Byte) (i : Instr) (tl : List Micro) (ht : s.seq.todo = .cmd c :: tl)
    (hc : decodeWire c = .instr i) (h : .rst ∉ s.env) : destination (runWire i s) = destination s := by
  have hw := (wire_decode c i hc).1
  have hdm : (decodeWire c).toOption.isSome = true := (wire_decode c i hc).2
  have hu : UnderWay (s.goto [.cmd c]) := Or.inr ⟨_, [], rfl, hdm, rfl⟩
  have hs : resumed tl (s.goto [.cmd c]) = s := by
    rw [resumed_inside tl _ (by simp)]
    exact goto_self s _ ht
  have hrun : runWire i s = resumed tl (feed s.env (s.goto [.cmd c])) := by
    rw [runWire_resumed, ht, hw, runProc_bus (.cmd c) rfl (by intro hh; cases hh)]
    rfl
  have hut : UnderWay (feed s.env (s.goto [.cmd c])) := underWay_feed _ _ hu
  generalize hy : feed s.env (s.goto [.cmd c]) = t at *
  have h1 : feed (withoutAccesses s.env) (s.goto [.cmd c]) = feed (withoutAccesses t.env) t := by
    rw [feed_withoutAccesses _ _ h, hy]
  unfold destination
  rw [hrun, resumed_env]
  calc feed (withoutAccesses t.env) (resumed tl t)
      = feed (feed (withoutAccesses t.env) t).env (resumed tl (feed (withoutAccesses t.env) t)) := feed_resumed tl _ _ hut
    _ = feed (withoutAccesses s.env) (resumed tl (s.goto [.cmd c])) := by rw [← h1, feed_resumed tl _ _ hu]
    _ = feed (withoutAccesses s.env) s := by rw [hs]

/-- A procedure run without the accesses comes to the destination of its run with them. -/
theorem destination_runProc (p : List Micro) (s : State) (h : .rst ∉ s.env) :
    runProc p { s with env := withoutAccesses s.env } = destination (runProc p s) := by
  have e1 : runProc p s = feed s.env (advance .running p s) := by
    unfold runProc resume; dsimp only; rw [settle_goto, advance_env]
  have e2 : runProc p { s with env := withoutAccesses s.env } =
      feed (withoutAccesses s.env) (advance .running p { s with env := withoutAccesses s.env }) := by
    unfold runProc resume; dsimp only; rw [settle_goto, advance_env]
  have hs : ∀ e, feed (withoutAccesses s.env) (advance .running p { s with env := e }) =
      { feed (withoutAccesses s.env) (advance .running p s) with hostRd := s.hostRd } := fun e =>
    feed_seqSees _ _ _ _ ((sim_seqSees s.hostRd).advance p .running s _ ⟨e, rfl⟩)
  rw [e1, e2, hs, ← hs s.env]
  exact feed_withoutAccesses _ _ h

/-- A host operation run without the accesses comes to the destination of its run with them. -/
theorem destination_exec (i : Instr) (hi : i.format = .host8) (s t : State) (hr : .rst ∉ s.env) (h : exec i s = .next t) :
    exec i { s with env := withoutAccesses s.env } = .next (destination t) := by
  cases i <;> try (cases hi; done)
  case getAddr =>
    simp only [exec, execGetAddr] at h ⊢
    split at h
    · split at h
      · rename_i h1 h2; cases h
        rw [if_pos h1, if_pos h2, destination_ended _ rfl]; rfl
      · cases h
    · rename_i h1; cases h
      rw [if_neg h1, destination_ended _ rfl]; rfl
  case crcClr => cases h; rw [destination_ended _ rfl]; rfl
  case crcPush => cases h; rw [destination_ended _ rfl]; rfl
  case pack64 => cases h; rw [destination_ended _ rfl]; rfl
  case discover => cases h; exact congrArg _ (destination_runProc _ { s with count := 0 } hr)
  all_goals (cases h; exact congrArg _ (destination_runProc _ s hr))

/-- A host operation leaves a rest of its events, and SEQ behind its start. -/
theorem exec_leaves (i : Instr) (hi : i.format = .host8) (s t : State) (h : exec i s = .next t) :
    t.env <:+ s.env ∧ ∀ m ∈ t.seq.todo, m ≠ .dispatch := by
  have hp : ∀ p (x : State), (∀ m ∈ p, m ≠ .dispatch) →
      (runProc p x).env <:+ x.env ∧ ∀ m ∈ (runProc p x).seq.todo, m ≠ .dispatch := by
    intro p x hp
    refine ⟨?_, (kept_inside.runProc p x hp trivial).2⟩
    unfold runProc resume; dsimp only; rw [settle_goto]
    have := feed_rest (advance .running p x).env (advance .running p x)
    rw [advance_env] at this; rw [advance_env]; exact this
  cases i <;> try (cases hi; done)
  case getAddr =>
    simp only [exec, execGetAddr] at h
    split at h
    · split at h
      · cases h; exact ⟨List.suffix_refl _, by intro m hm; cases hm⟩
      · cases h
    · cases h; exact ⟨List.suffix_refl _, by intro m hm; cases hm⟩
  case setRes =>
    cases h
    refine hp _ _ ?_
    unfold setResProc; split
    · split <;> decide
    · decide
  all_goals cases h; first | exact ⟨List.suffix_refl _, by intro m hm; cases hm⟩ | exact hp _ _ (by decide)

/-- No move looks at the host port's read value. -/
theorem sim_hostRd (r : Byte) : Sim (fun s t => t = { s with hostRd := r }) := by
  have k := sim_seqSees r
  constructor
  case env => rintro s _ e rfl; rfl
  case raise => rintro s _ k rfl; rfl
  case openAssist => rintro s _ n rfl; unfold openAssist assistDrives; dsimp only; split <;> rfl
  case closeAssist => rintro s _ n rfl; unfold closeAssist assistDrives; dsimp only; split <;> rfl
  case finish => rintro s _ k rfl; cases k <;> simp only [State.finish] <;> split <;> rfl
  case request => rintro m s _ rfl; cases m <;> rfl
  case effect =>
    rintro m a s _ rfl
    obtain ⟨e, he⟩ := k.effect m a s _ ⟨s.env, rfl⟩
    have h1 : ∀ x : State, (effect m a (lower x)).env = x.env := by
      intro x; cases m <;> simp only [effect] <;> repeat' split
      all_goals rfl
    have := congrArg State.env he
    rw [h1] at this
    refine he.trans ?_
    have h2 : e = (effect m a (lower s)).env := by rw [h1]; exact this.symm
    rw [h2]
  case tmp => rintro s _ x rfl; rfl
  case goto => rintro s _ x rfl; rfl
  case tick => rintro s _ x rfl; rfl
  all_goals rintro s _ rfl; rfl

/-- No instruction looks at the host port's read value. -/
theorem exec_hostRd (i : Instr) (s t : State) (r : Byte) (h : exec i { s with hostRd := r } = .next t) :
    ∃ t', exec i s = .next t' ∧ t = { t' with hostRd := r } := by
  rcases sim_exec (sim_hostRd r) (by rintro s _ rfl; rfl) i s _ rfl rfl rfl rfl rfl (fun _ => rfl)
    (by rintro s _ b rfl; rfl) with ⟨a, b, h1, h2, h3⟩ | ⟨f, _, h2⟩
  · rw [h] at h2; cases h2; exact ⟨a, h1, h3⟩
  · rw [h] at h2; cases h2

/-! ## Many steps -/

/-- At rest nothing changes. -/
theorem runSteps_rest {t : State} (h : AtRest t) : ∀ n, runSteps n t = .next t := by
  intro n
  induction n with
  | zero => rfl
  | succ n ih =>
    rw [runSteps]
    rcases h with h | h
    · rw [if_neg (by simp [h])]
    · split
      · rw [h]; exact ih
      · rfl

/-- Steps after steps. -/
theorem runSteps_add {t : State} (m : Nat) : ∀ n s, runSteps n s = .next t → runSteps (n + m) s = runSteps m t := by
  intro n
  induction n with
  | zero => intro s h; cases h; rw [Nat.zero_add]
  | succ n ih =>
    intro s h
    rw [Nat.add_right_comm, runSteps]
    rw [runSteps] at h
    split at h
    · rename_i hb
      rw [if_pos hb]
      cases hs : step s with
      | next y => rw [hs] at h; exact ih y h
      | fault f => rw [hs] at h; cases h
      | refused f => rw [hs] at h; cases h
    · rename_i hb
      rw [if_neg hb]; cases h
      exact (runSteps_rest (Or.inl (by simpa using hb)) m).symm

/-- A run comes to rest in one state only. -/
theorem rest_unique {s t u : State} {n m : Nat} (h1 : runSteps n s = .next t) (h2 : runSteps m s = .next u) (ht : AtRest t)
    (hu : AtRest u) : t = u := by
  have a := runSteps_add m n s h1
  have b := runSteps_add n m s h2
  rw [runSteps_rest ht] at a
  rw [runSteps_rest hu, Nat.add_comm, a] at b
  injection b

end Sys2Proof.Machine
end

