-- ==== Sys2Proof/Laws/Checksum.lean ====
section
/-! SUPPORT. The algebra of the Dallas/Maxim CRC-8 (40_crc.md R112): it is linear, and no shift loses anything. -/

namespace Sys2Proof.Machine

/-- One shift is linear. -/
theorem crcShift_xor (x y : Byte) : crcShift (x ^^^ y) = crcShift x ^^^ crcShift y := by
  have h : ∀ x : Byte, crcShift x = (x >>> 1) ^^^ (if x.getLsbD 0 then Config.crcPoly else 0) := by
    intro x; simp only [crcShift]; split <;> simp
  rw [h, h x, h y, BitVec.getLsbD_xor, BitVec.ushiftRight_xor_distrib]
  have hb : (if (x.getLsbD 0 ^^ y.getLsbD 0) = true then Config.crcPoly else 0) =
      (if x.getLsbD 0 = true then Config.crcPoly else 0) ^^^
      (if y.getLsbD 0 = true then Config.crcPoly else 0) := by
    cases x.getLsbD 0 <;> cases y.getLsbD 0 <;> decide
  rw [hb]
  generalize x >>> 1 = p; generalize y >>> 1 = q
  rw [BitVec.xor_assoc, BitVec.xor_assoc]; congr 1
  rw [← BitVec.xor_assoc, BitVec.xor_comm q, BitVec.xor_assoc]

/-- So are `n` of them. -/
theorem crcShifts_xor (n : Nat) (x y : Byte) : crcShifts n (x ^^^ y) = crcShifts n x ^^^ crcShifts n y := by
  induction n generalizing x y with
  | zero => rfl
  | succ n ih => simp only [crcShifts, crcShift_xor, ih]

/-- A shift loses nothing: only 0 becomes 0. -/
theorem crcShift_eq_zero (x : Byte) : crcShift x = 0 ↔ x = 0 := by revert x; decide

/-- Nor do `n` shifts. -/
theorem crcShifts_eq_zero (n : Nat) (x : Byte) : crcShifts n x = 0 ↔ x = 0 := by
  induction n generalizing x with
  | zero => rfl
  | succ n ih => simp only [crcShifts, ih, crcShift_eq_zero]

/-- `Upd` is linear in both arguments. -/
theorem crcUpd_xor (a b c d : Byte) : crcUpd .dallasMaxim (a ^^^ c) (b ^^^ d) = crcUpd .dallasMaxim a b ^^^ crcUpd .dallasMaxim c d := by
  simp only [crcUpd, ← crcShifts_xor]; congr 1
  rw [BitVec.xor_assoc, BitVec.xor_assoc]; congr 1
  rw [← BitVec.xor_assoc, BitVec.xor_comm c b, BitVec.xor_assoc]

/-- The running checksum is linear. -/
theorem crcFrom_xor (a c : Byte) (as bs : List Byte) (h : as.length = bs.length) :
    crcFrom .dallasMaxim (a ^^^ c) (List.zipWith (· ^^^ ·) as bs) = crcFrom .dallasMaxim a as ^^^ crcFrom .dallasMaxim c bs := by
  induction as generalizing a c bs with
  | nil => cases bs with
    | nil => rfl
    | cons => simp at h
  | cons x as ih => cases bs with
    | nil => simp at h
    | cons y bs => simp only [List.zipWith, crcFrom, crcUpd_xor]; exact ih _ _ _ (by simpa using h)

/-- `Upd` gives 0 exactly when the byte is the accumulator. -/
theorem crcUpd_eq_zero (a b : Byte) : crcUpd .dallasMaxim a b = 0 ↔ a = b := by
  rw [crcUpd, crcShifts_eq_zero]
  constructor
  · intro h; have : a ^^^ b ^^^ b = 0 ^^^ b := by rw [h]
    simpa [BitVec.xor_assoc] using this
  · rintro rfl; simp

/-- The running checksum of a sequence in two parts. -/
theorem crcFrom_append (f : CrcFunction) (a : Byte) (xs ys : List Byte) : crcFrom f a (xs ++ ys) = crcFrom f (crcFrom f a xs) ys := by
  induction xs generalizing a with
  | nil => rfl
  | cons x xs ih => exact ih _

/-- Zero bytes keep a nonzero accumulator nonzero. -/
theorem crcFrom_zeros (acc : Byte) (n : Nat) : crcFrom .dallasMaxim acc (List.replicate n 0) = 0 ↔ acc = 0 := by
  induction n generalizing acc with
  | zero => rfl
  | succ n ih => rw [List.replicate_succ, crcFrom, ih, crcUpd_eq_zero]

/-- Changing one byte changes the running checksum. -/
theorem crcFrom_flip (acc : Byte) (bs : List Byte) (k : Nat) (hk : k < bs.length) (d : Byte) (hd : d ≠ 0) :
    crcFrom .dallasMaxim acc (bs.set k (bs[k] ^^^ d)) ≠ crcFrom .dallasMaxim acc bs := by
  induction bs generalizing acc k with
  | nil => simp at hk
  | cons b bs ih =>
    cases k with
    | succ k => simpa [crcFrom] using ih (crcUpd .dallasMaxim acc b) k (by simpa using hk)
    | zero =>
      simp only [List.getElem_cons_zero, List.set_cons_zero, crcFrom]
      have h1 : ∀ acc' : Byte, crcFrom .dallasMaxim acc' bs = crcFrom .dallasMaxim 0 bs ^^^ crcFrom .dallasMaxim acc' (List.replicate bs.length 0) := by
        intro acc'
        rw [← crcFrom_xor _ _ _ _ (by simp)]
        congr 1
        · simp
        · apply List.ext_getElem <;> simp
      rw [h1 (crcUpd .dallasMaxim acc (b ^^^ d)), h1 (crcUpd .dallasMaxim acc b)]
      intro h
      have h2 : crcFrom .dallasMaxim (crcUpd .dallasMaxim acc (b ^^^ d)) (List.replicate bs.length 0) =
          crcFrom .dallasMaxim (crcUpd .dallasMaxim acc b) (List.replicate bs.length 0) := by
        have := congrArg (crcFrom .dallasMaxim 0 bs ^^^ ·) h
        simpa [← BitVec.xor_assoc] using this
      have h3 : crcFrom .dallasMaxim (crcUpd .dallasMaxim acc (b ^^^ d) ^^^ crcUpd .dallasMaxim acc b) (List.replicate bs.length 0) = 0 := by
        have := crcFrom_xor (crcUpd .dallasMaxim acc (b ^^^ d)) (crcUpd .dallasMaxim acc b) (List.replicate bs.length 0)
          (List.replicate bs.length 0) rfl
        rw [h2, BitVec.xor_self] at this
        simpa [List.zipWith_replicate] using this
      rw [crcFrom_zeros, ← crcUpd_xor, crcUpd_eq_zero] at h3
      apply hd
      have : b ^^^ d ^^^ b = 0 := by rw [← h3]; simp
      rw [BitVec.xor_comm, ← BitVec.xor_assoc] at this
      simpa using this

end Sys2Proof.Machine
end

