-- ==== Sys2Proof/Laws/PerInstr.lean ====
section
/-! SUPPORT. Statements about every instruction as syntax, one lemma per constructor. -/

namespace Sys2Proof.Laws.RoundTrip

/-- The byte of an instruction decodes to it in its own format and in no other (R90, R97, R98). -/
def Statement (i : Instr) : Prop :=
  ∀ f : Format, decodeAs f (encode i) = .instr i ↔ i.wellFormedAs f = true

theorem crcClr : Statement .crcClr := by intro f; cases f <;> decide
theorem crcPush : Statement .crcPush := by intro f; cases f <;> decide
theorem readSp : Statement .readSp := by intro f; cases f <;> decide
theorem writeSp : Statement .writeSp := by intro f; cases f <;> decide
theorem copySp : Statement .copySp := by intro f; cases f <;> decide
theorem recallE2 : Statement .recallE2 := by intro f; cases f <;> decide
theorem readTemp : Statement .readTemp := by intro f; cases f <;> decide
theorem readRaw : Statement .readRaw := by intro f; cases f <;> decide
theorem setRes : Statement .setRes := by intro f; cases f <;> decide
theorem getRes : Statement .getRes := by intro f; cases f <;> decide
theorem setAlarms : Statement .setAlarms := by intro f; cases f <;> decide
theorem getAlarms : Statement .getAlarms := by intro f; cases f <;> decide
theorem isExt : Statement .isExt := by intro f; cases f <;> decide
theorem isParasite : Statement .isParasite := by intro f; cases f <;> decide
theorem discover : Statement .discover := by intro f; cases f <;> decide
theorem getAddr : Statement .getAddr := by intro f; cases f <;> decide
theorem alarmSearch : Statement .alarmSearch := by intro f; cases f <;> decide
theorem pack64 : Statement .pack64 := by intro f; cases f <;> decide
theorem convertT : Statement .convertT := by intro f; cases f <;> decide
theorem readScratchpad : Statement .readScratchpad := by intro f; cases f <;> decide
theorem writeScratchpad : Statement .writeScratchpad := by intro f; cases f <;> decide
theorem copyScratchpad : Statement .copyScratchpad := by intro f; cases f <;> decide
theorem recallEeprom : Statement .recallEeprom := by intro f; cases f <;> decide
theorem readPowerSupply : Statement .readPowerSupply := by intro f; cases f <;> decide

end Sys2Proof.Laws.RoundTrip
end

