-- ==== Sys2Proof/Laws/Registry.lean ====
section
/-! SUPPORT. The searches of DISCOVER (45_registry.md R191 to R193), said once for any list of candidates. -/

namespace Sys2Proof.Machine

/-- The loop of DISCOVER and its end (R191). -/
abbrev discoverLoop : List Micro := [.discover, .finish .count]

/-- What a search leaves alone. -/
structure Rest (X Y : State) : Prop where
  status : Y.status = X.status
  out : Y.out = X.out
  args : Y.args = X.args
  cmd : Y.cmd = X.cmd
  pullupEn : Y.pullupEn = X.pullupEn
  latch : Y.latch = X.latch
  hostRd : Y.hostRd = X.hostRd
  params : Y.params = X.params
  ctc : Y.ctc = X.ctc
  op : Y.seq.op = X.seq.op
  failKind : Y.failKind = X.failKind

/-- In two parts. -/
theorem Rest.trans {X Y Z : State} (h : Rest X Y) (g : Rest Y Z) : Rest X Z :=
  ⟨g.1.trans h.1, g.2.trans h.2, g.3.trans h.3, g.4.trans h.4, g.5.trans h.5, g.6.trans h.6, g.7.trans h.7,
      g.8.trans h.8, g.9.trans h.9, g.10.trans h.10, g.11.trans h.11⟩

/-- What searches that accepted `v` leave (R191, R193). -/
structure Stored (v : List RomAddr) (X Y : State) : Prop extends Rest X Y where
  count : Y.count.toNat = X.count.toNat + v.length
  entries : ∀ (j : Nat) (h : j < v.length), readEntry Y.reg (X.count.toNat + j) = v[j]
  bytes : ∀ k, k < 8 * X.count.toNat ∨ 8 * (X.count.toNat + v.length) ≤ k → Memory.read Y.reg k = Memory.read X.reg k
  wf : Memory.wf Y.reg = true

/-- An entry depends on its eight bytes. -/
theorem readEntry_congr (m m' : Memory) (j : Nat) (h : ∀ k, 8 * j ≤ k → k < 8 * j + 8 →
    Memory.read m k = Memory.read m' k) : readEntry m j = readEntry m' j := by
  unfold readEntry
  rw [h (8*j) (by omega) (by omega), h (8*j+1) (by omega) (by omega), h (8*j+2) (by omega) (by omega),
      h (8*j+3) (by omega) (by omega),
    h (8*j+4) (by omega) (by omega), h (8*j+5) (by omega) (by omega), h (8*j+6) (by omega) (by omega),
        h (8*j+7) (by omega) (by omega)]

/-- One search that found a candidate. -/
theorem feed_search_one (a : Answer) (ha : a.rflag = true) (es : List Event) (X : State) (hw : Memory.wf X.reg = true)
    (hc : X.count.toNat + (validOnes X.params [a]).length ≤ 255) :
    ∃ Y, feed (.ack a :: es) (X.goto discoverLoop) = feed es (advance .running discoverLoop Y) ∧
        Stored (validOnes X.params [a]) X Y ∧ Y.trace = X.trace ++ [.search false (some (candidateOf a))] ∧
        Y.bus.req = false := by
  refine ⟨primitive .discover a X, ?_, ?_, ?_, ?_⟩
  · rw [feed_ack_goto .discover rfl]; simp [behind, ha]
  · cases hv : romValid X.params.crc (candidateOf a) with
    | true =>
      have hl : validOnes X.params [a] = [candidateOf a] := by simp [validOnes, hv]
      rw [hl] at hc ⊢
      have hv2 : romValid X.params.crc (unpack64 a.raddr) = true := hv
      have hr : (primitive .discover a X).reg = writeEntry X.reg X.count.toNat (candidateOf a) := by
        simp only [primitive, effect, lower_params, requestOf_params, ha, hv2, if_true]; rfl
      have hcc : (primitive .discover a X).count = X.count + 1 := by
        simp only [primitive, effect, lower_params, requestOf_params, ha, hv2, if_true]; rfl
      refine ⟨⟨?_, ?_, ?_, ?_, ?_, ?_, ?_, ?_, ?_, ?_, ?_⟩, ?_, ?_, ?_, ?_⟩
      · simp
      iterate 2 (simp only [primitive, effect, lower_params, requestOf_params, ha, hv2, if_true]; rfl)
      iterate 6 simp
      · simp only [primitive, effect, lower_params, requestOf_params, ha, hv2, if_true]; rfl
      · simp
      · rw [hcc]; simp at hc ⊢; omega
      · intro j hj
        simp at hj
        subst hj
        rw [hr]; exact readEntry_writeEntry_same _ _ _ hw
      · intro k hk
        rw [hr]
        simp at hk
        exact read_writeEntry_other _ _ _ _ (by omega)
      · rw [hr]; exact writeEntry_wf _ _ _ hw
    | false =>
      have hl : validOnes X.params [a] = [] := by simp [validOnes, hv]
      rw [hl]
      have hv2 : romValid X.params.crc (unpack64 a.raddr) = false := hv
      have hr : (primitive .discover a X).reg = X.reg := by
        simp only [primitive, effect, lower_params, requestOf_params, ha, hv2, if_true]; rfl
      have hcc : (primitive .discover a X).count = X.count := by simp only [primitive, effect, lower_params, requestOf_params, ha, hv2, if_true]; rfl
      refine ⟨⟨?_, ?_, ?_, ?_, ?_, ?_, ?_, ?_, ?_, ?_, ?_⟩, ?_, ?_, ?_, ?_⟩
      · simp
      iterate 2 (simp only [primitive, effect, lower_params, requestOf_params, ha, hv2, if_true]; rfl)
      iterate 6 simp
      · simp only [primitive, effect, lower_params, requestOf_params, ha, hv2, if_true]; rfl
      · simp
      · rw [hcc]; rfl
      · intro j hj; simp at hj
      · intro k _; rw [hr]
      · rw [hr]; exact hw
  · cases hv : romValid X.params.crc (unpack64 a.raddr) <;> simp only [primitive, effect, lower_params, requestOf_params, ha, hv, if_true] <;> rfl
  · cases hv : romValid X.params.crc (unpack64 a.raddr) <;> simp only [primitive, effect, lower_params, requestOf_params, ha, hv, if_true] <;> rfl

/-- While there is room DISCOVER stands at its search. -/
theorem advance_discoverLoop (Y : State) (h : Y.count.toNat < Y.params.maxDev) :
    advance .running discoverLoop Y = Y.goto discoverLoop := by
  simp only [advance, Course.skips, h, if_true]

/-- `MAXDEV` is at most 255 (R6). -/
theorem maxDev_le (p : Params) : p.maxDev ≤ 255 := by
  unfold Params.maxDev; omega

/-- The first candidate and the others. -/
theorem validOnes_cons (p : Params) (a : Answer) (l : List Answer) :
    validOnes p (a :: l) = validOnes p [a] ++ validOnes p l := by
  simp [validOnes, ← List.filter_append]

/-- Searches in two parts. -/
theorem Stored.append {v w : List RomAddr} {X Y Z : State} (h : Stored v X Y) (g : Stored w Y Z) :
    Stored (v ++ w) X Z := by
  refine ⟨h.toRest.trans g.toRest, ?_, ?_, ?_, g.wf⟩
  · rw [g.count, h.count, List.length_append]; omega
  · intro j hj
    by_cases hjv : j < v.length
    · rw [List.getElem_append_left hjv, ← h.entries j hjv]
      apply readEntry_congr
      intro k _ h2
      exact g.bytes k (Or.inl (by rw [h.count]; omega))
    · rw [List.getElem_append_right (by omega), ← g.entries (j - v.length) (by simp at hj; omega), h.count]
      congr 1
      omega
  · intro k hk
    rw [List.length_append] at hk
    rw [g.bytes k (by rw [h.count]; omega), h.bytes k (by omega)]

/-- Searches while there is room. -/
theorem feed_searches (es : List Event) : ∀ (found : List Answer) (X : State), (∀ a ∈ found, a.rflag = true) →
    Memory.wf X.reg = true →
    X.count.toNat + (validOnes X.params found).length < X.params.maxDev →
    ∃ Y, feed (acks found ++ es) (X.goto discoverLoop) = feed es (Y.goto discoverLoop) ∧
        Stored (validOnes X.params found) X Y ∧ Y.trace = X.trace ++ searchTrace found
     := by
  intro found
  induction found with
  | nil =>
    intro X _ hw hc
    refine ⟨X, rfl, ⟨⟨rfl, rfl, rfl, rfl, rfl, rfl, rfl, rfl, rfl, rfl, rfl⟩, by simp [validOnes], ?_, fun k _ => rfl,
        hw⟩, by simp [searchTrace]⟩
    intro j hj; simp [validOnes] at hj
  | cons a l ih =>
    intro X hr hw hc
    have hmax := maxDev_le X.params
    rw [validOnes_cons, List.length_append] at hc
    obtain ⟨Y, hY, hs, ht, hb⟩ := feed_search_one a (hr a (by simp)) (acks l ++ es) X hw (by omega)
    have hlt : Y.count.toNat + (validOnes Y.params l).length < Y.params.maxDev := by
      rw [hs.count, hs.params]; omega
    rw [advance_discoverLoop Y (by omega)] at hY
    obtain ⟨Z, hZ, hs2, ht2⟩ := ih Y (fun x hx => hr x (by simp [hx])) hs.wf hlt
    refine ⟨Z, ?_, ?_, ?_⟩
    · show feed (.ack a :: (acks l ++ es)) _ = _
      rw [hY, hZ]
    · rw [validOnes_cons]; rw [hs.params] at hs2; exact hs.append hs2
    · rw [ht2, ht]; simp [searchTrace]

/-- DISCOVER up to its first search. -/
theorem discover_start (s : State) (z : Answer) (es : List Event) (he : s.env = .ack z :: es) :
    exec .discover s = .next (feed es ((primitive .searchReset z { s with count := 0 }).goto discoverLoop)) := by
  have h1 : exec .discover s = .next (feed s.env (({ s with count := 0 } : State).goto discoverProc)) :=
      congrArg Host.Outcome.next (runProc_bus _ rfl (by decide) _ _)
  rw [h1, he, discoverProc, feed_ack_goto .searchReset rfl]
  show Host.Outcome.next (feed es (advance .running discoverLoop _)) = _
  rw [advance_discoverLoop]
  simp [Params.maxDev]

/-- The search reset leaves everything alone. -/
theorem stored_start (s : State) (z : Answer) : Rest s (primitive .searchReset z { s with count := 0 }) := by
  constructor <;> simp

/-- `COUNT` by its number. -/
theorem count_eq {Y : State} {n : Nat} (h : Y.count.toNat = n) : Y.count = BitVec.ofNat 8 n := by
  subst h; simp

/-- The end of DISCOVER (R191). -/
theorem finish_count (Y : State) :
    Y.finish .count = if Y.count = 0 then (Y.raise .noDevice).endOp false else Y.endOp true := rfl

/-- No search. -/
theorem Stored.refl (X : State) (h : Memory.wf X.reg = true) : Stored [] X X :=
  ⟨⟨rfl, rfl, rfl, rfl, rfl, rfl, rfl, rfl, rfl, rfl, rfl⟩, rfl, fun j hj => by simp at hj, fun _ _ => rfl, h⟩

end Sys2Proof.Machine
end

