-- ==== Sys2Proof/Laws/Runs.lean ====
section
/-! SUPPORT. What the engine does with a whole run of the transport (Safety.lean): one lemma per sub-procedure of R121 to
R129,
R144 and R180 that says everything it leaves, in every run. A proof about an operation chains these. -/

namespace Sys2Proof.Machine

/-! ## Failures on their way, and the end of an operation -/

/-- On which course SEQ goes on after a sub-procedure that ended so. -/
def Course.of (k : Option FailKind) : Course :=
  match k with
  | none => .running
  | some _ => .failing

@[simp] theorem Course.of_none : Course.of none = .running := rfl
@[simp] theorem Course.of_some (k : FailKind) : Course.of (some k) = .failing := rfl

theorem advance_skip {c c' : Course} {m : Micro} (h : c.skips m = some c') (t : List Micro) (s : State) :
    advance c (m :: t) s = advance c' t s := by
  simp only [advance, h]

/-- A failure skips the moves up to the place that handles it (R214). -/
theorem advance_failing (q t : List Micro) (s : State) (h : ∀ m ∈ q, Course.failing.skips m = some .failing) :
    advance .failing (q ++ t) s = advance .failing t s := by
  induction q with
  | nil => rfl
  | cons m q ih =>
    rw [List.cons_append, advance_skip (h m (by simp))]
    exact ih (fun x hx => h x (by simp [hx]))

/-- A failure from before a `GetRes` passes over its fallback. -/
theorem advance_passing (q t : List Micro) (s : State) (h : ∀ m ∈ q, Course.passing.skips m = some .passing) :
    advance .failing (.getRes :: (q ++ .resolve :: t)) s = advance .failing t s := by
  rw [advance_skip (c' := .passing) rfl]
  induction q with
  | nil => exact advance_skip rfl t s
  | cons m q ih =>
    rw [List.cons_append, advance_skip (h m (by simp))]
    exact ih (fun x hx => h x (by simp [hx]))

theorem advance_finish (f : Course) (r : ResultKind) (t : List Micro) (s : State) :
    advance f (.finish r :: t) s = s.finish r := by
  cases f <;> rfl

theorem advance_raise (k : FailKind) (t : List Micro) (s : State) :
    advance .running (.fail k :: t) s = advance .failing t (s.raise k) := rfl

theorem finish_todo (s : State) (r : ResultKind) : (s.finish r).seq = { s.seq with step := 0, todo := [] } := by
  cases r <;> simp only [State.finish] <;> split <;> rfl

/-- The operation has ended: the events to come stay as they are. -/
theorem feed_finish (es : List Event) (s : State) (r : ResultKind) :
    feed es (s.finish r) = { s.finish r with env := es } :=
  feed_ended es _ (by rw [finish_todo])

theorem finish_success (s : State) (r : ResultKind) (h : s.tmp.ok = true) (hr : r ≠ .count) :
    s.finish r = (s.writeResults r).endOp true := by
  cases r <;> simp_all [State.finish]

theorem finish_failure (s : State) (r : ResultKind) (h : s.tmp.ok = false) (hr : r ≠ .count) :
    s.finish r = (s.writeSentinels r).endOp false := by
  cases r <;> simp_all [State.finish]

/-! ## A scratchpad read (R121) -/

/-- What a scratchpad read leaves. -/
def ReadRun.after (r : ReadRun) (s : State) : State :=
  match r with
  | .absent p => (primitive .reset p s).raise .absent
  | .present x => if spValid s.params.crc x.sp then afterRead x s else (afterRead x s).raise .crc

/-- A scratchpad read in every run. -/
theorem feed_spRead (r : ReadRun) (h : r.legal = true) (t : List Micro) (es : List Event) (s : State) :
    feed (r.events ++ es) (s.goto (spRead ++ t)) = feed es (advance (Course.of (r.kind s.params)) t (r.after s)) := by
  cases r with
  | absent p =>
    have hp : p.rflag = false := by simpa [ReadRun.legal] using h
    exact (feed_reset_absent p hp _ es s).trans (congrArg (feed es) (advance_failing
      [.select, wire .readScratchpad, .checkCrc] t _ (by simp [Course.skips, wire])))
  | present x =>
    rw [ReadRun.events, feed_spRead_present x h]
    simp only [ReadRun.kind, crcKind, ReadRun.after]
    by_cases hv : spValid s.params.crc x.sp = true <;> simp [hv]

section

variable (r : ReadRun) (s : State)

@[simp] theorem ReadRun.after_cmd : (r.after s).cmd = s.cmd := by
  cases r <;> simp only [ReadRun.after] <;> (try split) <;> simp

@[simp] theorem ReadRun.after_status : (r.after s).status = s.status := by
  cases r <;> simp only [ReadRun.after] <;> (try split) <;> simp

@[simp] theorem ReadRun.after_pullupEn : (r.after s).pullupEn = s.pullupEn := by
  cases r <;> simp only [ReadRun.after] <;> (try split) <;> simp

@[simp] theorem ReadRun.after_args : (r.after s).args = s.args := by
  cases r <;> simp only [ReadRun.after] <;> (try split) <;> simp

@[simp] theorem ReadRun.after_count : (r.after s).count = s.count := by
  cases r <;> simp only [ReadRun.after] <;> (try split) <;> simp

@[simp] theorem ReadRun.after_reg : (r.after s).reg = s.reg := by
  cases r <;> simp only [ReadRun.after] <;> (try split) <;> simp

@[simp] theorem ReadRun.after_latch : (r.after s).latch = s.latch := by
  cases r <;> simp only [ReadRun.after] <;> (try split) <;> simp

@[simp] theorem ReadRun.after_ctc : (r.after s).ctc = s.ctc := by
  cases r <;> simp only [ReadRun.after] <;> (try split) <;> simp

@[simp] theorem ReadRun.after_hostRd : (r.after s).hostRd = s.hostRd := by
  cases r <;> simp only [ReadRun.after] <;> (try split) <;> simp

@[simp] theorem ReadRun.after_env : (r.after s).env = s.env := by
  cases r <;> simp only [ReadRun.after] <;> (try split) <;> simp

@[simp] theorem ReadRun.after_params : (r.after s).params = s.params := by
  cases r <;> simp only [ReadRun.after] <;> (try split) <;> simp

@[simp] theorem ReadRun.after_failKind : (r.after s).failKind = (r.kind s.params).or s.failKind := by
  cases r with
  | absent p => rfl
  | present x =>
    simp only [ReadRun.after, ReadRun.kind, crcKind]
    split <;> simp

@[simp] theorem ReadRun.after_out (h : r.legal = true) :
    (r.after s).out = { s.out with sp := r.spAfter s.out.sp } := by
  cases r with
  | absent p => simp [ReadRun.after, ReadRun.spAfter]
  | present x =>
    simp only [ReadRun.after, ReadRun.spAfter]
    split <;> simp [afterRead_out s x h]

@[simp] theorem ReadRun.after_tmp (h : r.legal = true) : (r.after s).tmp = { s.tmp with ok := (r.kind s.params).isNone } := by
  cases r with
  | absent p =>
    have hp : p.rflag = false := by simpa [ReadRun.legal] using h
    simp [ReadRun.after, ReadRun.kind, hp]
  | present x =>
    simp only [ReadRun.after, ReadRun.kind, crcKind]
    split <;> simp [afterRead_tmp s x h]

@[simp] theorem ReadRun.after_op (h : r.legal = true) : (r.after s).seq.op = s.seq.op := by
  cases r with
  | absent p =>
    have hp : p.rflag = false := by simpa [ReadRun.legal] using h
    simp [ReadRun.after, hp]
  | present x =>
    simp only [ReadRun.after]
    split <;> simp [afterRead_seq s x h]

@[simp] theorem ReadRun.after_trace (h : r.legal = true) : (r.after s).trace = s.trace ++ r.trace s.latch.addr := by
  cases r with
  | absent p =>
    have hp : p.rflag = false := by simpa [ReadRun.legal] using h
    simp [ReadRun.after, ReadRun.trace, hp]
  | present x =>
    simp only [ReadRun.after, ReadRun.trace]
    split <;> simp [afterRead_trace s x h]

@[simp] theorem ReadRun.after_req (h : r.legal = true) : (r.after s).bus.req = false := by
  cases r with
  | absent p =>
    have hp : p.rflag = false := by simpa [ReadRun.legal] using h
    simp [ReadRun.after, hp]
  | present x =>
    simp only [ReadRun.after]
    split <;> simp [afterRead_bus s x h]

end

/-! ## A power query (R180) -/

/-- What a power query leaves. -/
def PowerRun.after (r : PowerRun) (s : State) : State :=
  match r with
  | .absent p => (primitive .reset p s).raise .absent
  | .present x => afterPower x s

/-- A power query in every run. -/
theorem feed_powerQuery (r : PowerRun) (h : r.legal = true) (t : List Micro) (es : List Event) (s : State) :
    feed (r.events ++ es) (s.goto (powerQuery ++ t)) = feed es (advance (Course.of r.kind) t (r.after s)) := by
  cases r with
  | absent p =>
    have hp : p.rflag = false := by simpa [PowerRun.legal] using h
    exact (feed_reset_absent p hp _ es s).trans (congrArg (feed es) (advance_failing
      [.select, wire .readPowerSupply] t _ (by simp [Course.skips, wire])))
  | present x => exact feed_powerQuery_present x h t es s

/-! ## A verified write (R124) -/

/-- What a verified write leaves; the bytes are those in `t_th`, `t_tl`, `t_cfg`. -/
def WriteRun.after (r : WriteRun) (s : State) : State :=
  match r with
  | .absent p => (primitive .reset p s).raise .absent
  | .sent w b =>
    let u := b.after (afterWrite w s)
    if (b.kind s.params).isSome then u
    else if echoes u.out.sp u.tmp.th u.tmp.tl u.tmp.cfg then u.succeed else u.raise .verify

theorem advance_checkEcho (t : List Micro) (s : State) : advance .running (.checkEcho :: t) s =
    if echoes s.out.sp s.tmp.th s.tmp.tl s.tmp.cfg then advance .running t s.succeed
    else advance .failing t (s.raise .verify) := by
  have : advance .running (.checkEcho :: t) s =
    if s.out.sp[2] = s.tmp.th ∧ s.out.sp[3] = s.tmp.tl ∧ s.out.sp[4] = s.tmp.cfg then advance .running t s.succeed
    else advance .failing t (s.raise .verify) := rfl
  rw [this]
  simp only [echoes, Bool.and_eq_true, beq_iff_eq, and_assoc]

theorem spWrite_append (t : List Micro) : spWrite ++ t = spWriteRaw ++ (spRead ++ .checkEcho :: t) := by
  simp [spWrite]

theorem advance_spRead (t : List Micro) (s : State) : advance .running (spRead ++ t) s = s.goto (spRead ++ t) := rfl

theorem advance_spWriteRaw (t : List Micro) (s : State) :
    advance .running (spWriteRaw ++ t) s = s.goto (spWriteRaw ++ t) := rfl

theorem advance_powerQuery (t : List Micro) (s : State) :
    advance .running (powerQuery ++ t) s = s.goto (powerQuery ++ t) := rfl

/-- A verified write in every run. -/
theorem feed_spWrite (r : WriteRun) (h : r.legal = true) (t : List Micro) (es : List Event) (s : State) :
    feed (r.events ++ es) (s.goto (spWrite ++ t)) =
      feed es (advance (Course.of (r.kind s.params s.tmp.th s.tmp.tl s.tmp.cfg)) t (r.after s)) := by
  cases r with
  | absent p =>
    have hp : p.rflag = false := by simpa [WriteRun.legal] using h
    refine (feed_reset_absent p hp _ es s).trans (congrArg (feed es) (advance_failing
      ([.select, wire .writeScratchpad] ++ spRead ++ [.checkEcho]) t _ ?_))
    simp [Course.skips, wire, spRead, txnStart]
  | sent w b =>
    simp only [WriteRun.legal, Bool.and_eq_true] at h
    rw [spWrite_append, WriteRun.events, List.append_assoc, feed_spWriteRaw_present w h.1, advance_spRead,
      feed_spRead b h.2, afterWrite_params]
    have hto := ReadRun.after_out b (afterWrite w s) h.2
    have htm := ReadRun.after_tmp b (afterWrite w s) h.2
    rw [afterWrite_tmp s w h.1] at htm
    cases b with
    | absent p => rfl
    | present x =>
      simp only [WriteRun.kind, WriteRun.after, verifyKind]
      by_cases hv : spValid s.params.crc x.sp = true
      · have hk : (ReadRun.present x).kind s.params = none := by simp [ReadRun.kind, crcKind, hv]
        simp only [hk, Course.of_none, Option.isSome_none, Bool.false_eq_true, if_false, hv, if_true]
        have hu : echoes ((ReadRun.present x).after (afterWrite w s)).out.sp
            ((ReadRun.present x).after (afterWrite w s)).tmp.th ((ReadRun.present x).after (afterWrite w s)).tmp.tl
            ((ReadRun.present x).after (afterWrite w s)).tmp.cfg = echoes x.sp s.tmp.th s.tmp.tl s.tmp.cfg := by
          rw [hto, htm]; rfl
        rw [advance_checkEcho, hu]
        by_cases he : echoes x.sp s.tmp.th s.tmp.tl s.tmp.cfg = true
        · simp only [he, if_true]; rfl
        · simp only [he]; rfl
      · have hk : (ReadRun.present x).kind s.params = some .crc := by simp [ReadRun.kind, crcKind, hv]
        simp only [hk, Course.of_some, Option.isSome_some, if_true, hv]
        rfl

section

variable (r : PowerRun) (s : State)

@[simp] theorem PowerRun.after_cmd : (r.after s).cmd = s.cmd := by
  cases r <;> simp [PowerRun.after]

@[simp] theorem PowerRun.after_status : (r.after s).status = s.status := by
  cases r <;> simp [PowerRun.after]

@[simp] theorem PowerRun.after_pullupEn : (r.after s).pullupEn = s.pullupEn := by
  cases r <;> simp [PowerRun.after]

@[simp] theorem PowerRun.after_args : (r.after s).args = s.args := by
  cases r <;> simp [PowerRun.after]

@[simp] theorem PowerRun.after_count : (r.after s).count = s.count := by
  cases r <;> simp [PowerRun.after]

@[simp] theorem PowerRun.after_reg : (r.after s).reg = s.reg := by
  cases r <;> simp [PowerRun.after]

@[simp] theorem PowerRun.after_latch : (r.after s).latch = s.latch := by
  cases r <;> simp [PowerRun.after]

@[simp] theorem PowerRun.after_ctc : (r.after s).ctc = s.ctc := by
  cases r <;> simp [PowerRun.after]

@[simp] theorem PowerRun.after_hostRd : (r.after s).hostRd = s.hostRd := by
  cases r <;> simp [PowerRun.after]

@[simp] theorem PowerRun.after_env : (r.after s).env = s.env := by
  cases r <;> simp [PowerRun.after]

@[simp] theorem PowerRun.after_params : (r.after s).params = s.params := by
  cases r <;> simp [PowerRun.after]

@[simp] theorem PowerRun.after_failKind : (r.after s).failKind = r.kind.or s.failKind := by
  cases r <;> simp [PowerRun.after, PowerRun.kind]

@[simp] theorem PowerRun.after_out (h : r.legal = true) : (r.after s).out = s.out := by
  cases r with
  | absent p => simp [PowerRun.after]
  | present x => exact afterPower_out s x h

@[simp] theorem PowerRun.after_ok (h : r.legal = true) : (r.after s).tmp.ok = r.kind.isNone := by
  cases r with
  | absent p => rfl
  | present x => simp only [PowerRun.after, afterPower_tmp s x h]; rfl

@[simp] theorem PowerRun.after_op (h : r.legal = true) : (r.after s).seq.op = s.seq.op := by
  cases r with
  | absent p =>
    have hp : p.rflag = false := by simpa [PowerRun.legal] using h
    simp [PowerRun.after, hp]
  | present x => simp [PowerRun.after, afterPower_seq s x h]

@[simp] theorem PowerRun.after_trace (h : r.legal = true) : (r.after s).trace = s.trace ++ r.trace s.latch.addr := by
  cases r with
  | absent p =>
    have hp : p.rflag = false := by simpa [PowerRun.legal] using h
    simp [PowerRun.after, PowerRun.trace, hp]
  | present x => exact afterPower_trace s x h

@[simp] theorem PowerRun.after_req (h : r.legal = true) : (r.after s).bus.req = false := by
  cases r with
  | absent p =>
    have hp : p.rflag = false := by simpa [PowerRun.legal] using h
    simp [PowerRun.after, hp]
  | present x => simp [PowerRun.after, afterPower_bus s x h]

end

section

variable (r : WriteRun) (s : State)

@[simp] theorem WriteRun.after_cmd : (r.after s).cmd = s.cmd := by
  cases r <;> simp only [WriteRun.after] <;> repeat' split
  all_goals simp

@[simp] theorem WriteRun.after_status : (r.after s).status = s.status := by
  cases r <;> simp only [WriteRun.after] <;> repeat' split
  all_goals simp

@[simp] theorem WriteRun.after_pullupEn : (r.after s).pullupEn = s.pullupEn := by
  cases r <;> simp only [WriteRun.after] <;> repeat' split
  all_goals simp

@[simp] theorem WriteRun.after_args : (r.after s).args = s.args := by
  cases r <;> simp only [WriteRun.after] <;> repeat' split
  all_goals simp

@[simp] theorem WriteRun.after_count : (r.after s).count = s.count := by
  cases r <;> simp only [WriteRun.after] <;> repeat' split
  all_goals simp

@[simp] theorem WriteRun.after_reg : (r.after s).reg = s.reg := by
  cases r <;> simp only [WriteRun.after] <;> repeat' split
  all_goals simp

@[simp] theorem WriteRun.after_latch : (r.after s).latch = s.latch := by
  cases r <;> simp only [WriteRun.after] <;> repeat' split
  all_goals simp

@[simp] theorem WriteRun.after_ctc : (r.after s).ctc = s.ctc := by
  cases r <;> simp only [WriteRun.after] <;> repeat' split
  all_goals simp

@[simp] theorem WriteRun.after_hostRd : (r.after s).hostRd = s.hostRd := by
  cases r <;> simp only [WriteRun.after] <;> repeat' split
  all_goals simp

@[simp] theorem WriteRun.after_env : (r.after s).env = s.env := by
  cases r <;> simp only [WriteRun.after] <;> repeat' split
  all_goals simp

@[simp] theorem WriteRun.after_params : (r.after s).params = s.params := by
  cases r <;> simp only [WriteRun.after] <;> repeat' split
  all_goals simp

@[simp] theorem WriteRun.after_op (h : r.legal = true) : (r.after s).seq.op = s.seq.op := by
  cases r with
  | absent p =>
    have hp : p.rflag = false := by simpa [WriteRun.legal] using h
    simp [WriteRun.after, hp]
  | sent w b =>
    simp only [WriteRun.legal, Bool.and_eq_true] at h
    simp only [WriteRun.after]
    repeat' split
    all_goals simp [h.1, h.2]

@[simp] theorem WriteRun.after_req (h : r.legal = true) : (r.after s).bus.req = false := by
  cases r with
  | absent p =>
    have hp : p.rflag = false := by simpa [WriteRun.legal] using h
    simp [WriteRun.after, hp]
  | sent w b =>
    simp only [WriteRun.legal, Bool.and_eq_true] at h
    simp only [WriteRun.after]
    repeat' split
    all_goals simp [h.2]

@[simp] theorem WriteRun.after_out (h : r.legal = true) :
    (r.after s).out = { s.out with sp := r.spAfter s.out.sp } := by
  cases r with
  | absent p => simp [WriteRun.after, WriteRun.spAfter]
  | sent w b =>
    simp only [WriteRun.legal, Bool.and_eq_true] at h
    simp only [WriteRun.after, WriteRun.spAfter]
    repeat' split
    all_goals simp [h.1, h.2]

@[simp] theorem WriteRun.after_trace (h : r.legal = true) :
    (r.after s).trace = s.trace ++ r.trace s.latch.addr s.tmp.th s.tmp.tl s.tmp.cfg := by
  cases r with
  | absent p =>
    have hp : p.rflag = false := by simpa [WriteRun.legal] using h
    simp [WriteRun.after, WriteRun.trace, hp]
  | sent w b =>
    simp only [WriteRun.legal, Bool.and_eq_true] at h
    simp only [WriteRun.after, WriteRun.trace]
    repeat' split
    all_goals simp [h.1, h.2, List.append_assoc]

@[simp] theorem WriteRun.after_ok (h : r.legal = true) :
    (r.after s).tmp.ok = (r.kind s.params s.tmp.th s.tmp.tl s.tmp.cfg).isNone := by
  cases r with
  | absent p => rfl
  | sent w b =>
    simp only [WriteRun.legal, Bool.and_eq_true] at h
    have hto := ReadRun.after_out b (afterWrite w s) h.2
    have htm := ReadRun.after_tmp b (afterWrite w s) h.2
    rw [afterWrite_tmp s w h.1] at htm
    simp only [WriteRun.after, hto, htm]
    cases b with
    | absent p => rfl
    | present x =>
      simp only [ReadRun.kind, crcKind, WriteRun.kind, verifyKind, ReadRun.spAfter]
      by_cases hv : spValid s.params.crc x.sp = true
      · by_cases he : echoes x.sp s.tmp.th s.tmp.tl s.tmp.cfg = true <;> simp [hv, he]
      · simp [hv, htm, ReadRun.kind, crcKind]

@[simp] theorem WriteRun.after_failKind (h : r.legal = true) :
    (r.after s).failKind = (r.kind s.params s.tmp.th s.tmp.tl s.tmp.cfg).or s.failKind := by
  cases r with
  | absent p => rfl
  | sent w b =>
    simp only [WriteRun.legal, Bool.and_eq_true] at h
    have hto := ReadRun.after_out b (afterWrite w s) h.2
    have htm := ReadRun.after_tmp b (afterWrite w s) h.2
    rw [afterWrite_tmp s w h.1] at htm
    simp only [WriteRun.after, hto, htm]
    cases b with
    | absent p => rfl
    | present x =>
      simp only [WriteRun.kind, verifyKind, ReadRun.spAfter]
      by_cases hv : spValid s.params.crc x.sp = true
      · by_cases he : echoes x.sp s.tmp.th s.tmp.tl s.tmp.cfg = true <;> simp [ReadRun.kind, crcKind, hv, he]
      · simp [ReadRun.kind, crcKind, hv]

end

/-! ## A copy to EEPROM (R127) -/

/-- What a copy leaves. -/
def CopyRun.after (r : CopyRun) (s : State) : State :=
  match r with
  | .absent p => (primitive .reset p s).raise .absent
  | .uncopied q p => (primitive .reset p (afterPower q s)).raise .absent
  | .copied q h => afterAssist 10 (afterHead .copyScratchpad h (afterPower q s))

theorem spCopy_append (t : List Micro) :
    spCopy ++ t = powerQuery ++ (.reset :: .select :: wire .copyScratchpad :: t) := by
  simp [spCopy, txnStart]

/-- A copy in every run. -/
theorem feed_spCopy (r : CopyRun) (h : r.legal = true) (t : List Micro) (es : List Event) (s : State) :
    feed (r.events ++ es) (s.goto (spCopy ++ t)) = feed es (advance (Course.of r.kind) t (r.after s)) := by
  cases r with
  | absent p =>
    have hp : p.rflag = false := by simpa [CopyRun.legal] using h
    refine (feed_reset_absent p hp _ es s).trans (congrArg (feed es) (advance_failing
      [.select, wire .readPowerSupply, .reset, .select, wire .copyScratchpad] t _ ?_))
    simp [Course.skips, wire]
  | uncopied q p =>
    simp only [CopyRun.legal, Bool.and_eq_true, Bool.not_eq_true'] at h
    rw [spCopy_append, CopyRun.events, List.append_assoc, feed_powerQuery_present q h.1,
      advance_bus .reset rfl (by decide), List.singleton_append, feed_reset_absent p h.2]
    exact congrArg (feed es) (advance_failing [.select, wire .copyScratchpad] t _ (by simp [Course.skips, wire]))
  | copied q x =>
    simp only [CopyRun.legal, Bool.and_eq_true] at h
    rw [spCopy_append, CopyRun.events, List.append_assoc, feed_powerQuery_present q h.1,
      advance_bus .reset rfl (by decide), List.append_assoc, feed_head_present _ x h.2, behind_copyScratchpad]
    exact feed_assist .eeprom t es _

section

variable (r : CopyRun) (s : State)

@[simp] theorem CopyRun.after_cmd : (r.after s).cmd = s.cmd := by
  cases r <;> simp [CopyRun.after]

@[simp] theorem CopyRun.after_status (h : s.status.pullup = false) : (r.after s).status = s.status := by
  cases r with
  | absent p => simp [CopyRun.after]
  | uncopied q p => simp [CopyRun.after]
  | copied q x =>
    simp only [CopyRun.after]
    rw [afterAssist_status _ _ (by simpa using h)]
    simp

@[simp] theorem CopyRun.after_pullupEn : (r.after s).pullupEn = s.pullupEn := by
  cases r <;> simp [CopyRun.after]

@[simp] theorem CopyRun.after_args : (r.after s).args = s.args := by
  cases r <;> simp [CopyRun.after]

@[simp] theorem CopyRun.after_count : (r.after s).count = s.count := by
  cases r <;> simp [CopyRun.after]

@[simp] theorem CopyRun.after_reg : (r.after s).reg = s.reg := by
  cases r <;> simp [CopyRun.after]

@[simp] theorem CopyRun.after_latch : (r.after s).latch = s.latch := by
  cases r <;> simp [CopyRun.after]

@[simp] theorem CopyRun.after_ctc : (r.after s).ctc = if r.waited then { cnt := 0, run := false } else s.ctc := by
  cases r <;> simp [CopyRun.after, CopyRun.waited]

@[simp] theorem CopyRun.after_hostRd : (r.after s).hostRd = s.hostRd := by
  cases r <;> simp [CopyRun.after]

@[simp] theorem CopyRun.after_env : (r.after s).env = s.env := by
  cases r <;> simp [CopyRun.after]

@[simp] theorem CopyRun.after_params : (r.after s).params = s.params := by
  cases r <;> simp [CopyRun.after]

@[simp] theorem CopyRun.after_failKind : (r.after s).failKind = r.kind.or s.failKind := by
  cases r <;> simp [CopyRun.after, CopyRun.kind]

@[simp] theorem CopyRun.after_out (h : r.legal = true) : (r.after s).out = s.out := by
  cases r <;> simp_all [CopyRun.after, CopyRun.legal]

@[simp] theorem CopyRun.after_ok (h : r.legal = true) : (r.after s).tmp.ok = r.kind.isNone := by
  cases r <;> simp_all [CopyRun.after, CopyRun.legal, CopyRun.kind]

@[simp] theorem CopyRun.after_op (h : r.legal = true) : (r.after s).seq.op = s.seq.op := by
  cases r with
  | absent p => simp_all [CopyRun.after, CopyRun.legal]
  | uncopied q p => simp_all [CopyRun.after, CopyRun.legal]
  | copied q x =>
    simp only [CopyRun.legal, Bool.and_eq_true] at h
    have : ∀ (n : Nat) (u : State), (afterAssist n u).seq.op = u.seq.op := by
      intro n u
      simp only [afterAssist, closeAssist, setCnt, openAssist]
      repeat' split
      all_goals rfl
    simp [CopyRun.after, this, h.1, h.2]

@[simp] theorem CopyRun.after_req (h : r.legal = true) : (r.after s).bus.req = false := by
  cases r <;> simp_all [CopyRun.after, CopyRun.legal]

@[simp] theorem CopyRun.after_trace (h : r.legal = true) :
    (r.after s).trace = s.trace ++ r.trace s.latch.addr s.latch.pullupEn := by
  cases r <;> simp_all [CopyRun.after, CopyRun.legal, CopyRun.trace, encode, assistDrives]

end

/-! ## The end of an operation without value registers -/

/-- What the end of an operation without value registers leaves (R35, R214), when its procedure left `X`. -/
theorem plain_end {s X t : State} {k : Option FailKind} {es : List Event} (ht : t = { X.finish .plain with env := es })
    (hok : X.tmp.ok = k.isNone) (hst : X.status = s.status)
    (hop : X.seq.op = s.seq.op) (hk : X.failKind = k.or s.failKind) :
    t.env = es ∧ EndedWith k s t ∧ t.out = X.out ∧ t.cmd = X.cmd ∧ t.pullupEn = X.pullupEn ∧ t.args = X.args ∧
        t.count = X.count ∧ t.latch = X.latch ∧ t.hostRd = X.hostRd ∧ t.params = X.params ∧ t.reg = X.reg ∧
        t.trace = X.trace ∧ t.bus = X.bus ∧ t.ctc = X.ctc := by
  subst ht
  refine ⟨rfl, ?_⟩
  cases k with
  | none =>
    rw [finish_success _ _ (by simpa using hok) (by decide)]
    refine ⟨⟨?_, ?_, rfl⟩, rfl, rfl, rfl, rfl, rfl, rfl, rfl, rfl, rfl, rfl, rfl, rfl⟩
    · simp [State.writeResults, hst]
    · simp [State.writeResults, hop]
  | some k =>
    rw [finish_failure _ _ (by simpa using hok) (by decide)]
    refine ⟨⟨?_, ?_, ?_⟩, rfl, rfl, rfl, rfl, rfl, rfl, rfl, rfl, rfl, rfl, rfl, rfl⟩
    · simp [State.writeSentinels, hst]
    · simp [State.writeSentinels, hop]
    · simp [State.writeSentinels, hk]

/-! ## A read and a verified write (R162, R165) -/

/-- The three bytes to write are loaded (R162, R165). -/
def loaded (s : State) (x : Byte × Byte × Byte) : State :=
  { s with tmp := { s.tmp with th := x.1, tl := x.2.1, cfg := x.2.2 } }

@[simp] theorem loaded_params (s : State) (x : Byte × Byte × Byte) : (loaded s x).params = s.params := rfl

theorem loadRes_adv (t : List Micro) (s : State) :
    advance .running (.loadRes :: spWrite ++ t) s =
      (loaded s (setResBytes s.params s.latch s.out.sp)).goto (spWrite ++ t) := rfl

theorem loadAlarms_adv (t : List Micro) (s : State) :
    advance .running (.loadAlarms :: spWrite ++ t) s =
      (loaded s (setAlarmsBytes s.latch s.out.sp)).goto (spWrite ++ t) := rfl

theorem Course.of_isSome {k : Option FailKind} (h : k.isSome = true) : Course.of k = .failing := by
  cases k with
  | none => cases h
  | some k => rfl

/-- `X` agrees with `s` on everything no per-device procedure writes. -/
structure Same (s X : State) : Prop where
  cmd : X.cmd = s.cmd
  status : X.status = s.status
  pullupEn : X.pullupEn = s.pullupEn
  args : X.args = s.args
  count : X.count = s.count
  reg : X.reg = s.reg
  latch : X.latch = s.latch
  hostRd : X.hostRd = s.hostRd
  params : X.params = s.params
  op : X.seq.op = s.seq.op


/-- The common part of SET_RES and SET_ALARMS in every run: `m` loads the three bytes `f` gives. -/
theorem feed_update (m : Micro) (f : Params → Latches → Scratchpad → Byte × Byte × Byte)
    (hm : ∀ t (s : State), advance .running (m :: spWrite ++ t) s =
      (loaded s (f s.params s.latch s.out.sp)).goto (spWrite ++ t))
    (hc : Course.failing.skips m = some .failing)
    (u : UpdateRun) (t : List Micro) (es : List Event) (s : State) (h : u.legal s.params = true) :
    ∃ X : State, feed (u.events ++ es) (s.goto (spRead ++ m :: spWrite ++ t)) =
        feed es (advance (Course.of (u.kind s.params (f s.params s.latch))) t X) ∧
      Same s X ∧ X.ctc = s.ctc ∧ X.bus.req = false ∧ X.out = { s.out with sp := u.spAfter s.out.sp } ∧
          X.trace = s.trace ++ u.trace s.latch.addr (f s.params s.latch) ∧
      X.tmp.ok = (u.kind s.params (f s.params s.latch)).isNone ∧ X.failKind = (u.kind s.params (f s.params s.latch)).or s.failKind := by
  rw [List.append_assoc]
  cases u with
  | unread r =>
    simp only [UpdateRun.legal, Bool.and_eq_true] at h
    have := feed_spRead r h.1 (m :: spWrite ++ t) es s
    have hskip : ∀ y ∈ m :: spWrite, Course.failing.skips y = some .failing := by
      intro y hy
      rcases List.mem_cons.1 hy with h' | h'
      · rw [h']
        exact hc
      · clear hy
        revert y
        simp [Course.skips, spWrite, spWriteRaw, wire, spRead, txnStart]
    rw [Course.of_isSome h.2, advance_failing (m :: spWrite) t _ hskip] at this
    refine ⟨r.after s, ?_, ?_, ?_⟩
    · rw [UpdateRun.kind, Course.of_isSome h.2]; exact this
    · constructor <;> simp [h.1]
    · refine ⟨?_, ?_, ?_, ?_, ?_, ?_⟩
      all_goals simp [h.1, UpdateRun.kind, UpdateRun.trace, UpdateRun.spAfter]
  | written x w =>
    simp only [UpdateRun.legal, Bool.and_eq_true] at h
    obtain ⟨⟨hx, hv⟩, hw⟩ := h
    have hl : (ReadRun.present x).legal = true := hx
    have hk : (ReadRun.present x).kind s.params = none := by simp [ReadRun.kind, crcKind, hv]
    have := feed_spRead (.present x) hl (m :: spWrite ++ t) (w.events ++ es) s
    rw [hk, Course.of_none, hm, feed_spWrite w hw] at this
    have ho := ReadRun.after_out (.present x) s hl
    refine ⟨w.after (loaded ((ReadRun.present x).after s) (f s.params s.latch x.sp)),
      (congrArg (fun e => feed e _) (List.append_assoc _ _ _)).trans ?_, ?_, ?_, ?_, ?_, ?_, ?_, ?_⟩
    rotate_left
    · constructor <;> simp [loaded, hw, hl]
    · simp [loaded]
    · simp [loaded, hw]
    · simp [loaded, hw, UpdateRun.spAfter, ho, ReadRun.spAfter]
    · simp [loaded, hw, UpdateRun.trace, hl, ReadRun.trace]
    · simp [loaded, hw, UpdateRun.kind]
    · simp [loaded, hw, UpdateRun.kind, hk]
    · refine this.trans ?_
      simp only [ho, ReadRun.spAfter, ReadRun.after_latch, ReadRun.after_params, loaded_params]
      rfl

/-! ## A conversion (R144) -/

theorem convert_append (t : List Micro) :
    convert ++ t =
      .reset :: .select :: wire .convertT ::
        .getRes :: (spRead ++ (.resolve :: (powerQuery ++ (.assist .conversion :: (spRead ++ t))))) := by
  simp [convert, txnStart]

theorem adv_resolve_ok (t : List Micro) (s : State) (h : s.tmp.ok = true) :
    advance .running (.resolve :: t) s = advance .running t
        { s with tmp := { s.tmp with res := resDecode s.params.cfg s.out.sp[4] } } := by
  have : advance .running (.resolve :: t) s =
      if (!s.tmp.ok && s.params.abortOnResFail) = true then
        advance .failing t { s with tmp := { s.tmp with res := 0 } }
      else advance .running t (resolveRes s) := rfl
  rw [this, h]; simp [resolveRes, h]

theorem adv_resolve_fail (t : List Micro) (s : State) (h : s.tmp.ok = false) :
    advance .failing (.resolve :: t) s =
      if s.params.abortOnResFail then advance .failing t { s with tmp := { s.tmp with res := 0 } }
      else advance .running t { s with tmp := { s.tmp with res := 12 } } := by
  have : advance .failing (.resolve :: t) s =
      if (!s.tmp.ok && s.params.abortOnResFail) = true then
        advance .failing t { s with tmp := { s.tmp with res := 0 } }
      else advance .running t (resolveRes s) := rfl
  rw [this]; simp [h, resolveRes]

/-- The resolution read of a conversion that goes on (R141): it succeeded, or its failure is absorbed. -/
theorem resolve_step (r : ReadRun) (hr : r.legal = true) (t : List Micro) (es : List Event) (s : State) (hc :
    r.kind s.params = none ∨ s.params.abortOnResFail = false) :
    ∃ X : State, feed (r.events ++ es) (s.goto (spRead ++ .resolve :: t)) = feed es (advance .running t X) ∧
     Same s X ∧ X.ctc = s.ctc ∧ X.out = { s.out with sp := r.spAfter s.out.sp } ∧
         X.trace = s.trace ++ r.trace s.latch.addr ∧ X.tmp.res = resolutionAfter s.params r ∧ X.bus.req = false := by
  rw [feed_spRead r hr]
  have ho := ReadRun.after_out r s hr
  have htm := ReadRun.after_tmp r s hr
  cases hk : r.kind s.params with
  | none =>
    rw [Course.of_none, adv_resolve_ok _ _ (by simp [hr, hk])]
    refine ⟨_, rfl, ?_, ?_, ?_, ?_, ?_, ?_⟩
    · constructor <;> simp [hr]
    · simp
    · simp [hr]
    · simp [hr]
    · simp only [ho]
      cases r with
      | absent p => cases hk
      | present x =>
        have : spValid s.params.crc x.sp = true := by
          simp only [ReadRun.kind, crcKind] at hk
          by_contra h; simp [h] at hk
        simp [resolutionAfter, resolutionOf, this, ReadRun.spAfter]
    · simp [hr]
  | some k =>
    have ha : s.params.abortOnResFail = false := by rcases hc with h | h; (rw [hk] at h; cases h); exact h
    rw [Course.of_some, adv_resolve_fail _ _ (by simp [hr, hk]), ReadRun.after_params, ha]
    refine ⟨_, rfl, ?_, ?_, ?_, ?_, ?_, ?_⟩
    · constructor <;> simp [hr]
    · simp
    · simp [hr]
    · simp [hr]
    · cases r with
      | absent p => rfl
      | present x =>
        have : spValid s.params.crc x.sp = false := by
          simp only [ReadRun.kind, crcKind] at hk
          by_contra h; simp [h] at hk
        simp [resolutionAfter, resolutionOf, this]
    · simp [hr]


theorem advance_getRes (t : List Micro) (s : State) : advance .running (.getRes :: t) s = advance .running t s := rfl

/-- A conversion in every run and for both values of `RT_ABORT_ON_RES_FAIL`. -/
theorem feed_convert (c : ConvertRun) (t : List Micro) (es : List Event) (s : State) (h :
    c.legal s.params = true) (hp : s.status.pullup = false) :
    ∃ X : State, feed (c.events s.params ++ es) (s.goto (convert ++ t)) = feed es (advance (Course.of (c.kind s.params)) t X) ∧ Same s X ∧
      X.ctc = (if c.waited then { cnt := 0, run := false } else s.ctc) ∧ X.bus.req = false ∧
          X.out = { s.out with sp := c.spAfter s.out.sp } ∧
      X.trace = s.trace ++ c.trace s.params s.latch.addr s.latch.pullupEn ∧ X.tmp.ok = (c.kind s.params).isNone ∧ ((c.kind s.params).isSome →
          X.failKind = c.kind s.params) := by
  rw [convert_append]
  cases c with
  | absent p =>
    have hp : p.rflag = false := by simpa [ConvertRun.legal] using h
    have e := feed_reset_absent p hp (.select :: wire .convertT ::
        .getRes :: (spRead ++ (.resolve :: (powerQuery ++ (.assist .conversion :: (spRead ++ t)))))) es s
    have e2 := fun X => advance_failing [.select,
        wire .convertT]
        (.getRes :: (spRead ++ (.resolve :: (powerQuery ++ (.assist .conversion :: (spRead ++ t))))))
        X (by simp [Course.skips, wire])
    have e3 := fun X => advance_passing spRead (powerQuery ++ (.assist .conversion :: (spRead ++ t)))
        X (by simp [Course.skips, wire, spRead, txnStart])
    have e4 := fun X => advance_failing (powerQuery ++ [.assist .conversion] ++ spRead) t X (by simp [Course.skips,
        wire, powerQuery, txnStart, spRead])
    simp only [List.append_assoc, List.cons_append, List.nil_append] at e2 e4
    rw [e2, e3, e4] at e
    refine ⟨_, e, ?_, ?_, ?_, ?_, ?_, ?_, ?_⟩
    · constructor <;> simp [hp]
    all_goals simp [hp, ConvertRun.waited, ConvertRun.spAfter, ConvertRun.trace, ConvertRun.kind]
  | aborted x r =>
    simp only [ConvertRun.legal, Bool.and_eq_true] at h
    obtain ⟨⟨⟨hx, hr⟩, hk⟩, ha⟩ := h
    have e := feed_head_present .convertT x hx
        (.getRes :: (spRead ++ (.resolve :: (powerQuery ++ (.assist .conversion :: (spRead ++ t)))))) (r.events ++ es) s
    rw [behind_convertT, advance_getRes, advance_spRead, feed_spRead r hr, afterHead_params, Course.of_isSome hk,
      adv_resolve_fail _ _ (by
        rw [ReadRun.after_tmp _ _ hr]; simpa using hk)] at e
    simp only [ReadRun.after_params, afterHead_params, ha, if_true] at e
    have e2 := fun X => advance_failing (powerQuery ++ [.assist .conversion] ++ spRead) t X (by simp [Course.skips,
        wire, powerQuery, txnStart, spRead])
    simp only [List.append_assoc, List.cons_append, List.nil_append] at e2
    rw [e2] at e
    refine ⟨_, (congrArg (fun e => feed e _) (List.append_assoc _ _ _)).trans (e.trans (congrArg (fun c =>
        feed es (advance c t _)) (Course.of_isSome hk).symm)), ?_⟩
    · obtain ⟨k, hk'⟩ := Option.isSome_iff_exists.1 hk
      refine ⟨?_, ?_, ?_, ?_, ?_, ?_, ?_⟩
      · constructor <;> simp [hr, hx]
      all_goals simp [hr, hx, hk', ConvertRun.waited, ConvertRun.spAfter, ConvertRun.trace, ConvertRun.kind, encode]
  | unpowered x r p =>
    simp only [ConvertRun.legal, Bool.and_eq_true, Bool.or_eq_true, Option.isNone_iff_eq_none, Bool.not_eq_true'] at h
    obtain ⟨⟨⟨hx, hr⟩, ha⟩, hpp⟩ := h
    have e := feed_head_present .convertT x hx
        (.getRes :: (spRead ++ (.resolve :: (powerQuery ++ (.assist .conversion :: (spRead ++ t))))))
        (r.events ++ (.ack p :: es)) s
    obtain ⟨X, hX, hs, hc, ho, ht, hres, hb⟩ :=
        resolve_step r hr (powerQuery ++ (.assist .conversion :: (spRead ++ t)))
        (.ack p :: es) (afterHead .convertT x s) (by simpa using ha)
    rw [behind_convertT, advance_getRes, advance_spRead, hX, advance_powerQuery] at e
    have e1 := feed_powerQuery (.absent p) (by simpa [PowerRun.legal] using hpp)
        (.assist .conversion :: (spRead ++ t)) es X
    have e2 := fun X => advance_failing ([.assist .conversion] ++ spRead) t X (by simp [Course.skips, wire, txnStart,
        spRead])
    simp only [List.cons_append, List.nil_append] at e2
    rw [PowerRun.kind, Course.of_some, e2] at e1
    have hl : (PowerRun.absent p).legal = true := by simpa [PowerRun.legal] using hpp
    obtain ⟨_, _, _, _, _, _, _, _, _, _⟩ := hs
    refine ⟨(PowerRun.absent p).after X, ?_, ?_⟩
    rotate_left
    · refine ⟨?_, ?_, ?_, ?_, ?_, ?_, ?_⟩
      · constructor <;> simp_all
      all_goals simp_all [ConvertRun.waited, ConvertRun.spAfter, ConvertRun.trace, ConvertRun.kind, encode,
          PowerRun.trace, PowerRun.kind]
    · refine Eq.trans ?_ (e.trans e1)
      simp [ConvertRun.events]
  | converted x r q f =>
    simp only [ConvertRun.legal, Bool.and_eq_true, Bool.or_eq_true, Option.isNone_iff_eq_none, Bool.not_eq_true'] at h
    obtain ⟨⟨⟨⟨hx, hr⟩, ha⟩, hq⟩, hf⟩ := h
    have e := feed_head_present .convertT x hx
        (.getRes :: (spRead ++ (.resolve :: (powerQuery ++ (.assist .conversion :: (spRead ++ t))))))
        (r.events ++ (q.events ++ (ticks (tConv (resolutionAfter s.params r)) ++ (f.events ++ es)))) s
    obtain ⟨X, hX, hs, hc, ho, ht, hres, hb⟩ :=
        resolve_step r hr (powerQuery ++ (.assist .conversion :: (spRead ++ t)))
        (q.events ++ (ticks (tConv (resolutionAfter s.params r)) ++ (f.events ++ es)))
        (afterHead .convertT x s) (by simpa using ha)
    rw [afterHead_params] at hres
    rw [behind_convertT, advance_getRes, advance_spRead, hX, advance_powerQuery] at e
    have e1 := feed_powerQuery_present q hq (.assist .conversion :: (spRead ++ t))
        (ticks (tConv (resolutionAfter s.params r)) ++ (f.events ++ es)) X
    have hw : waitTicks .conversion (afterPower q X).tmp = tConv (resolutionAfter s.params r) := by
      rw [afterPower_tmp X q hq, waitTicks, hres]
    have e2 := feed_assist .conversion (spRead ++ t) (f.events ++ es) (afterPower q X)
    obtain ⟨_, hst, _, _, _, _, hlat, _, hpar, hop⟩ := hs
    rw [hw, advance_spRead, feed_spRead f hf, afterAssist_params, afterPower_params, hpar, afterHead_params] at e2
    have hpX : (afterPower q X).status.pullup = false := by simp [hst, hp]
    have hd : assistDrives (afterPower q X) = (!q.slot.rflag && s.latch.pullupEn) := by
      simp [assistDrives, afterPower_tmp X q hq, hlat]
    have hop' : ∀ (n : Nat) (u : State), (afterAssist n u).seq.op = u.seq.op := by
      intro n u
      simp only [afterAssist, closeAssist, setCnt, openAssist]
      repeat' split
      all_goals rfl
    refine ⟨f.after (afterAssist (tConv (resolutionAfter s.params r)) (afterPower q X)), ?_, ?_⟩
    rotate_left
    · refine ⟨?_, ?_, ?_, ?_, ?_, ?_, ?_⟩
      · constructor <;> simp_all
      all_goals simp_all [ConvertRun.waited, ConvertRun.spAfter, ConvertRun.trace, ConvertRun.kind, encode]
      intro hk; obtain ⟨k, hk'⟩ := Option.isSome_iff_exists.1 hk; simp [hk']
    · refine Eq.trans ?_ (e.trans (e1.trans e2))
      simp [ConvertRun.events]

end Sys2Proof.Machine
end

