-- ==== Sys2Proof/Tests/Slice0.lean ====
section
/-! SUPPORT. Tests: well-formedness, the bytes of the encoding written out bit by bit, vectors of spec/95_test_vectors.md, and
for every statement that has hypotheses a state that meets them. Expected results are the spec's. -/

namespace Sys2Proof.Tests

open Sys2Proof.Machine

/-! ## Well-formedness -/

theorem test_wire_command_is_no_host_opcode : Instr.convertT.wellFormedAs .host8 = false := by decide
theorem test_host_opcode_is_no_wire_command : Instr.readSp.wellFormedAs .wire8 = false := by decide
theorem test_host_opcode_is_well_formed : Instr.readSp.wellFormedAs .host8 = true := by decide
theorem test_wire_command_is_well_formed : Instr.convertT.wellFormedAs .wire8 = true := by decide

/-! ## Words, bit by bit (R90, R97; bit 7 first) -/

theorem test_word_crcClr : decodeHost 0b00000001#8 = .instr .crcClr := by decide
theorem test_word_crcPush : decodeHost 0b00000010#8 = .instr .crcPush := by decide
theorem test_word_readSp : decodeHost 0b00010000#8 = .instr .readSp := by decide
theorem test_word_writeSp : decodeHost 0b00010001#8 = .instr .writeSp := by decide
theorem test_word_copySp : decodeHost 0b00010010#8 = .instr .copySp := by decide
theorem test_word_recallE2 : decodeHost 0b00010011#8 = .instr .recallE2 := by decide
theorem test_word_readTemp : decodeHost 0b00100000#8 = .instr .readTemp := by decide
theorem test_word_readRaw : decodeHost 0b00100001#8 = .instr .readRaw := by decide
theorem test_word_setRes : decodeHost 0b00110000#8 = .instr .setRes := by decide
theorem test_word_getRes : decodeHost 0b00110001#8 = .instr .getRes := by decide
theorem test_word_setAlarms : decodeHost 0b00110010#8 = .instr .setAlarms := by decide
theorem test_word_getAlarms : decodeHost 0b00110011#8 = .instr .getAlarms := by decide
theorem test_word_isExt : decodeHost 0b01000000#8 = .instr .isExt := by decide
theorem test_word_isParasite : decodeHost 0b01000001#8 = .instr .isParasite := by decide
theorem test_word_discover : decodeHost 0b01010000#8 = .instr .discover := by decide
theorem test_word_getAddr : decodeHost 0b01010001#8 = .instr .getAddr := by decide
theorem test_word_alarmSearch : decodeHost 0b01010010#8 = .instr .alarmSearch := by decide
theorem test_word_pack64 : decodeHost 0b01010011#8 = .instr .pack64 := by decide
theorem test_word_convertT : decodeWire 0b01000100#8 = .instr .convertT := by decide
theorem test_word_readScratchpad : decodeWire 0b10111110#8 = .instr .readScratchpad := by decide
theorem test_word_writeScratchpad : decodeWire 0b01001110#8 = .instr .writeScratchpad := by decide
theorem test_word_copyScratchpad : decodeWire 0b01001000#8 = .instr .copyScratchpad := by decide
theorem test_word_recallEeprom : decodeWire 0b10111000#8 = .instr .recallEeprom := by decide
theorem test_word_readPowerSupply : decodeWire 0b10110100#8 = .instr .readPowerSupply := by decide

/-- V-HI-3: 0x22 lies between READ_RAW and SET_RES and is no opcode. -/
theorem test_word_illegal : decodeHost 0x22 = .rejected (.illegalHostOpcode 0x22) := by decide
/-- R92: no seventh command exists; 0x4F is one bit away from Write-Scratchpad. -/
theorem test_word_not_a_command : decodeWire 0x4F = .rejected (.notAWireCommand 0x4F) := by decide
/-- A word of the table is one byte. -/
theorem test_word_of_two_bytes : decodeTableWord 16 0x10 = none := by decide

/-! ## Small states -/

/-- The sample addresses and scratchpads of 95_test_vectors.md. -/
def addrA : RomAddr := #v[0x28, 0xFF, 0x64, 0x1E, 0x0F, 0x00, 0x00, 0x34]
def addrB : RomAddr := #v[0x28, 0x01, 0x02, 0x03, 0x04, 0x05, 0x06, 0x9E]
def addrC : RomAddr := #v[0x28, 0xAA, 0xBB, 0xCC, 0xDD, 0xEE, 0x00, 0x39]
def addrX : RomAddr := #v[0x28, 0xFF, 0x64, 0x1E, 0x0F, 0x00, 0x00, 0x35]
def s12 : Scratchpad := #v[0x91, 0x01, 0x4B, 0x46, 0x7F, 0xFF, 0x0F, 0x10, 0x25]
def s10 : Scratchpad := #v[0x91, 0x01, 0x4B, 0x46, 0x3F, 0xFF, 0x0F, 0x10, 0xC5]
def s9 : Scratchpad := #v[0x91, 0x01, 0x4B, 0x46, 0x1F, 0xFF, 0x0F, 0x10, 0xB5]
def neg9 : Scratchpad := #v[0x5E, 0xFF, 0x4B, 0x46, 0x1F, 0xFF, 0x02, 0x10, 0x26]
def sBad : Scratchpad := #v[0x90, 0x01, 0x4B, 0x46, 0x7F, 0xFF, 0x0F, 0x10, 0x25]

/-- An answer with the flag `p`. -/
def flag (p : Bool) : Answer := { rbyte := 0, rflag := p, raddr := 0 }
/-- A read answered with the byte `b`. -/
def byte (b : Byte) : Answer := { rbyte := b, rflag := false, raddr := 0 }
/-- A search that found `a`. -/
def found (a : RomAddr) : Answer := { rbyte := 0, rflag := true, raddr := pack64 a }
/-- A present device that reads `sp`. -/
def reads (sp : Scratchpad) : ReadAnswers :=
  { reset := flag true, select := flag false, command := flag false, bytes := sp.map byte }
/-- A present device that samples `v` in its power slot. -/
def powered (v : Bool) : PowerAnswers :=
  { reset := flag true, select := flag false, command := flag false, slot := flag v }
/-- A present device that takes a scratchpad write. -/
def takes : WriteAnswers :=
  { reset := flag true, select := flag false, command := flag false, th := flag false, tl := flag false, cfg := flag false }
/-- A present device that takes a command. -/
def hears : HeadAnswers := { reset := flag true, select := flag false, command := flag false }

/-- `MAXDEV = 2`, the CRC-8 of R111, the layout of R102. -/
def params : Params := { maxDevLessOne := 1, abortOnResFail := false, crc := .dallasMaxim, cfg := .standard }
/-- No operation in progress, the ports about to deliver `es`. -/
def idle (es : List Event) : State := { State.reset with env := es, params := params }
/-- The operation `i` started, with the operands of P2 and V-SP-6: `ADDR = A`, `PULLUP_EN = 1`. -/
def started (i : Instr) (es : List Event) : State :=
  { idle es with
    status := { busy := true, ok := false, bool := false, ill := false, pullup := false }
    seq := { op := encode i, step := 0, todo := [.dispatch] }
    latch :=
      { addr := addrA, th := 0x4B, tl := 0x46, cfg := 0x3F, res := 10, persist := false, idx := 0, byte := 0x01,
        pullupEn := true } }
/-- An operation in progress at the position `p`. -/
def standing (p : List Micro) (es : List Event) : State :=
  { started .readTemp es with seq := { op := 0x20, step := 0, todo := p } }
/-- Inside the wait of a READ_TEMP with the pin 1 (V-HI-6), three ticks left. -/
def waiting (es : List Event) : State :=
  { standing (.waiting 94 :: (spRead ++ [.finish .temp])) es with
    status := { busy := true, ok := false, bool := false, ill := false, pullup := true }
    seq := { op := 0x20, step := 1, todo := .waiting 94 :: (spRead ++ [.finish .temp]) }
    ctc := { cnt := 3, run := true }
    trace := [.pullup true] }

/-- What is seen of a next state. -/
def seen {α : Type} (f : State → α) (o : Host.Outcome State Fault Refusal) : Option α :=
  match o with
  | .next t => some (f t)
  | .fault _ | .refused _ => none
/-- `STATUS`, the failure kind and the number of events. -/
def ending (t : State) : Byte × Option FailKind × Nat := (statusByte t.status, t.failKind, t.trace.length)

/-! ## Checksums (section 2.1) -/

/-- V-CRC-7. -/
theorem test_crc_address : crc8 .dallasMaxim [0x28, 0xFF, 0x64, 0x1E, 0x0F, 0x00, 0x00] = 0x34 := by decide +kernel
/-- V-CRC-3. -/
theorem test_crc_top_bit : crc8 .dallasMaxim [0x80] = 0x8C := by decide
/-- External check value of section 2.1: the nine digits. -/
theorem test_crc_digits : crc8 .dallasMaxim [0x31, 0x32, 0x33, 0x34, 0x35, 0x36, 0x37, 0x38, 0x39] = 0xA1 := by decide +kernel
/-- V-CRC-20. -/
theorem test_crcClr : seen ending (exec .crcClr (started .crcClr [])) = some (0x02, none, 0) := by decide
/-- V-CRC-21. -/
theorem test_crcPush : seen (fun t => t.out.crcAcc) (exec .crcPush (started .crcPush [])) = some 0x5E := by decide

/-! ## The scratchpad accessor (section 2.2) -/

/-- V-SP-1. -/
theorem test_readSp : seen (fun t => (ending t, t.out.sp)) (exec .readSp (started .readSp (reads s12).events)) =
    some ((0x02, none, 12), s12) := by decide +kernel
/-- V-SP-2. -/
theorem test_readSp_corrupted :
    seen (fun t => (ending t, t.out.sp)) (exec .readSp (started .readSp (reads sBad).events)) =
      some ((0x00, some .crc, 12), sBad) := by decide +kernel
/-- V-SP-6. -/
theorem test_writeSp : seen ending (exec .writeSp (started .writeSp (takes.events ++ (reads s10).events))) =
    some (0x02, none, 18) := by decide +kernel
/-- V-SP-7. -/
theorem test_writeSp_not_taken : seen ending (exec .writeSp (started .writeSp (takes.events ++ (reads s12).events))) =
    some (0x00, some .verify, 18) := by decide +kernel
/-- V-SP-11. -/
theorem test_copySp_parasite :
    seen (fun t => (statusByte t.status, t.trace))
      (exec .copySp (started .copySp ((powered false).events ++ hears.events ++ ticks 10))) =
    some (0x02, [.reset true, .select addrA, .write 0xB4, .readBit false, .reset true, .select addrA, .write 0x48,
      .pullup true, .wait 10, .pullup false]) := by decide +kernel
/-- V-SP-12. -/
theorem test_copySp_external :
    seen (fun t => (statusByte t.status, t.trace))
      (exec .copySp (started .copySp ((powered true).events ++ hears.events ++ ticks 10))) =
    some (0x02, [.reset true, .select addrA, .write 0xB4, .readBit true, .reset true, .select addrA, .write 0x48,
      .wait 10]) := by decide +kernel
/-- V-SP-16. -/
theorem test_recallE2 : seen (fun t => (ending t, t.out.sp))
    (exec .recallE2 (started .recallE2 (hears.events ++ (reads s12).events))) = some ((0x02, none, 15), s12) := by
  decide +kernel

/-! ## The conversion (section 2.3) -/

/-- V-CV-1. -/
theorem test_readTemp : seen (fun t => (ending t, t.out.raw, t.out.tempF32))
    (exec .readTemp (started .readTemp (hears.events ++ (reads s9).events ++ (powered false).events ++ ticks 94 ++
      (reads s9).events))) = some ((0x02, none, 34), 0x0191, 0x41C88000) := by decide +kernel
/-- V-CV-10: no presence at the first reset is no failure of the resolution read. -/
theorem test_readTemp_absent : seen (fun t => (ending t, t.out.raw, t.out.tempF32))
    (exec .readTemp (started .readTemp [.ack (flag false)])) = some ((0x00, some .absent, 1), 0x0000, 0x7FC00000) := by
  decide +kernel
/-- V-CV-5 as a READ_RAW: parasite, no pin configured. -/
theorem test_readRaw : seen (fun t => (ending t, t.out.raw, t.out.tempF32))
    (exec .readRaw { started .readRaw (hears.events ++ (reads neg9).events ++ (powered false).events ++ ticks 94 ++
      (reads neg9).events) with latch := { (started .readRaw []).latch with pullupEn := false } }) =
    some ((0x02, none, 32), 0xFF5E, 0x7FC00000) := by decide +kernel
/-- V-CV-9: with `RT_ABORT_ON_RES_FAIL` the corrupted resolution read ends it. -/
theorem test_readRaw_aborts : seen ending
    (exec .readRaw { started .readRaw (hears.events ++ (reads sBad).events) with
      params := { params with abortOnResFail := true } }) = some (0x00, some .crc, 15) := by decide +kernel

/-- Raw-to-float vectors. -/
theorem test_f32_minus_10_125 : f32 0xFF5E = 0xC1220000 := by decide
theorem test_f32_most_negative : f32 0x8000 = 0xC5000000 := by decide
theorem test_f32_largest : f32 0x7FFF = 0x44FFFE00 := by decide
theorem test_f32_one : f32 0x0001 = 0x3D800000 := by decide

/-! ## The configuration manager (section 2.4) -/

/-- The write of P2 without its copy: the byte 3F is `CfgEncode(10)`. -/
theorem test_setRes : seen (fun t => (ending t, t.out.sp))
    (exec .setRes (started .setRes ((reads s12).events ++ takes.events ++ (reads s10).events))) =
    some ((0x02, none, 30), s10) := by decide +kernel
/-- R162: a resolution of 13 asks for nothing. -/
theorem test_setRes_bad_argument : seen ending
    (exec .setRes { started .setRes [] with latch := { (started .setRes []).latch with res := 13 } }) =
    some (0x00, some .badArg, 0) := by decide +kernel
/-- The GET_RES of P2. -/
theorem test_getRes : seen (fun t => (ending t, t.out.res)) (exec .getRes (started .getRes (reads s10).events)) =
    some ((0x02, none, 12), 10) := by decide +kernel
/-- R161: a failed read gives 0. -/
theorem test_getRes_corrupted : seen (fun t => (ending t, t.out.res))
    (exec .getRes (started .getRes (reads sBad).events)) = some ((0x00, some .crc, 12), 0) := by decide +kernel
/-- R165: the configuration byte written is the one read. -/
theorem test_setAlarms : seen (fun t => (ending t, t.tmp.cfg))
    (exec .setAlarms (started .setAlarms ((reads s12).events ++ takes.events ++ (reads s12).events))) =
    some ((0x02, none, 30), 0x7F) := by decide +kernel
/-- R164. -/
theorem test_getAlarms : seen (fun t => (ending t, t.out.thOut, t.out.tlOut))
    (exec .getAlarms (started .getAlarms (reads s12).events)) = some ((0x02, none, 12), 0x4B, 0x46) := by decide +kernel

/-! ## The power-mode detector (section 2.5) -/

/-- V-PW-1. -/
theorem test_isExt : seen ending (exec .isExt (started .isExt (powered true).events)) = some (0x06, none, 4) := by
  decide +kernel
/-- V-PW-2. -/
theorem test_isExt_parasite : seen ending (exec .isExt (started .isExt (powered false).events)) = some (0x02, none, 4) := by
  decide +kernel
/-- V-PW-5. -/
theorem test_isParasite : seen ending (exec .isParasite (started .isParasite (powered false).events)) =
    some (0x06, none, 4) := by decide +kernel
/-- V-PW-6. -/
theorem test_isParasite_absent : seen ending (exec .isParasite (started .isParasite [.ack (flag false)])) =
    some (0x00, some .absent, 1) := by decide +kernel

/-! ## The registry (section 2.6) -/

/-- V-RG-4: `MAXDEV = 2`, the candidate X is dropped, the search stops after B. -/
theorem test_discover_full : seen (fun t => (ending t, t.count, readEntry t.reg 0, readEntry t.reg 1, t.env.length))
    (exec .discover (started .discover
      (.ack (flag false) :: acks [found addrA, found addrX, found addrB] ++ [.ack (found addrA)]))) =
    some ((0x02, none, 4), 2, addrA, addrB, 1) := by decide +kernel
/-- V-RG-2: the only candidate is dropped. -/
theorem test_discover_none : seen (fun t => (ending t, t.count))
    (exec .discover (started .discover (.ack (flag false) :: acks [found addrX, flag false]))) =
    some ((0x00, some .noDevice, 3), 0) := by decide +kernel
/-- V-RG-9, for the first entry. -/
theorem test_getAddr : seen (fun t => (ending t, t.args.addr))
    (exec .getAddr { started .getAddr [] with reg := writeEntry [] 0 addrB, count := 1 }) =
    some ((0x02, none, 0), addrB) := by decide +kernel
/-- V-RG-11. -/
theorem test_getAddr_range : seen ending (exec .getAddr (started .getAddr [])) = some (0x00, some .range, 0) := by
  decide +kernel
/-- V-RG-12. -/
theorem test_alarmSearch : seen (fun t => (ending t, t.args.addr))
    (exec .alarmSearch (started .alarmSearch [.ack (found addrB)])) = some ((0x02, none, 1), addrB) := by decide +kernel
/-- V-RG-14. -/
theorem test_alarmSearch_corrupted : seen (fun t => (ending t, t.args.addr))
    (exec .alarmSearch (started .alarmSearch [.ack (found addrX)])) =
    some ((0x00, some .crc, 1), RomAddr.zero) := by decide +kernel
/-- V-RG-15. -/
theorem test_pack64 : seen (fun t => (t.out.a64, readReg t 0x28, readReg t 0x2F)) (exec .pack64 (started .pack64 [])) =
    some (0x3400000F1E64FF28, 0x28, 0x34) := by decide +kernel

/-! ## The wire commands (R90, R93), at their place in a procedure -/

theorem test_convertT : seen (fun t => (t.trace, t.seq.todo.head?))
    (exec .convertT (standing [.cmd 0x44, .reset, .finish .plain] [.ack (flag false)])) =
    some ([.write 0x44], some .reset) := by decide +kernel
theorem test_readScratchpad : seen (fun t => (t.trace.length, t.out.sp, t.seq.todo))
    (exec .readScratchpad (standing [.cmd 0xBE, .reset, .finish .plain] (acks (flag false :: s12.toList.map byte)))) =
    some (10, s12, [.reset, .finish .plain]) := by decide +kernel
theorem test_writeScratchpad : seen (fun t => t.trace)
    (exec .writeScratchpad { standing [.cmd 0x4E, .reset, .finish .plain] (acks [flag false, flag false, flag false,
      flag false]) with tmp := { State.reset.tmp with th := 0x4B, tl := 0x46, cfg := 0x3F } }) =
    some [.write 0x4E, .write 0x4B, .write 0x46, .write 0x3F] := by decide +kernel
theorem test_copyScratchpad : seen (fun t => (t.trace, t.status.pullup))
    (exec .copyScratchpad (standing [.cmd 0x48, .reset, .finish .plain] (.ack (flag false) :: ticks 10))) =
    some ([.write 0x48, .pullup true, .wait 10, .pullup false], false) := by decide +kernel
theorem test_recallEeprom : seen (fun t => (t.trace, t.seq.todo.head?))
    (exec .recallEeprom (standing [.cmd 0xB8, .reset, .finish .plain] [.ack (flag false)])) =
    some ([.write 0xB8], some .reset) := by decide +kernel
theorem test_readPowerSupply : seen (fun t => (t.trace, t.tmp.ext))
    (exec .readPowerSupply (standing [.cmd 0xB4, .reset, .finish .plain] (acks [flag false, flag true]))) =
    some ([.write 0xB4, .readBit true], true) := by decide +kernel

/-! ## The host's port and reset (section 2.7) -/

/-- V-HI-1. -/
theorem test_illegal_opcode : seen (fun t => statusByte t.status) (step (idle [.hostWrite 0x00 0x00])) = some 0x08 := by
  decide +kernel
/-- V-HI-5: a write while an operation waits is ignored. -/
theorem test_write_while_busy : seen (fun t => (t.args.addr, statusByte t.status))
    (step (waiting [.hostWrite 0x10 0xAA])) = some (RomAddr.zero, 0x11) := by decide +kernel
/-- V-HI-6. -/
theorem test_status_in_the_window : seen (fun t => t.hostRd) (step (waiting [.hostRead 0x01])) = some 0x11 := by
  decide +kernel
/-- V-HI-7. -/
theorem test_rst_in_the_window : seen (fun t => (pullupOut t, statusByte t.status, t.out.tempF32)) (step (waiting [.rst])) =
    some (false, 0x00, 0x7FC00000) := by decide +kernel
/-- V-HI-9. -/
theorem test_ctrl_reserved_bits : readReg (hostWrite (idle []) 0x02 0xFF) 0x02 = 0x01 := by decide
/-- R226: the third of three ticks ends the wait, and the reset of the next transaction is requested. -/
theorem test_last_tick : seen (fun t => (t.ctc.run, t.status.pullup, t.bus.req, t.bus.op)) (step (waiting (ticks 3))) =
    some (false, false, true, 0) := by decide +kernel
/-- A host opcode written to `CMD` runs at the next step of SEQ (R33). -/
theorem test_placed_word_runs : seen ending (step (State.reset.withFetchWord 8 0x01)) = some (0x02, none, 0) := by
  decide +kernel

/-! ## Witnesses: what the hypotheses of each statement ask for exists, for each of its clauses -/

theorem witness_EncodeThenDecode : Instr.pack64.wellFormedAs .host8 = true ∧ Instr.readPowerSupply.wellFormedAs .wire8 = true := by
  decide
theorem witness_DecodeThenEncode : decodeAs .host8 0x53 = .instr .pack64 ∧ decodeAs .wire8 0xB4 = .instr .readPowerSupply := by
  decide
theorem witness_StepRunsDecodedInstruction :
    ((started .readSp []).status.busy = true ∧ (∀ e, (started .readSp []).env.head? = some e → e.ofHost = false) ∧
      (started .readSp []).seq.todo = [.dispatch] ∧ decodeHost (started .readSp []).seq.op = .instr .readSp) ∧
    ((standing [.cmd 0xBE, .finish .plain] [.tick]).status.busy = true ∧
      (∀ e, (standing [.cmd 0xBE, .finish .plain] [.tick]).env.head? = some e → e.ofHost = false) ∧
      decodeWire 0xBE = .instr .readScratchpad) ∧
    (waiting []).seq.todo = .waiting 94 :: (spRead ++ [.finish .temp]) := by
  refine ⟨⟨rfl, ?_, rfl, by decide⟩, ⟨rfl, ?_, by decide⟩, rfl⟩
  · intro e h; cases h
  · intro e h; cases h; rfl
theorem witness_StepTakesEventsInOrder :
    ((waiting [.hostRead 0x01]).env = .hostRead 0x01 :: [] ∧ (Event.hostRead 0x01).ofHost = true) ∧
    ((idle [.tick]).env = .tick :: [] ∧ Event.tick.ofHost = false ∧ (idle [.tick]).status.busy = false) := by
  decide +kernel
theorem witness_LegalOpcodeStartsOperation : (idle [.hostWrite 0x00 0x53]).env = .hostWrite 0x00 0x53 :: [] ∧
    (idle [.hostWrite 0x00 0x53]).status.busy = false ∧ decodeHost 0x53 = .instr .pack64 := by decide +kernel
theorem witness_IllegalOpcodeRefused : (idle [.hostWrite 0x00 0x54]).env = .hostWrite 0x00 0x54 :: [] ∧
    (idle [.hostWrite 0x00 0x54]).status.busy = false ∧
    ∀ v ∈ ([0x00, 0x03, 0x0F, 0x14, 0x1F, 0x22, 0x2F, 0x34, 0x3F, 0x42, 0x4F, 0x54, 0xFF] : List Byte),
      v = 0x00 ∨ (0x03 ≤ v ∧ v ≤ 0x0F) ∨ (0x14 ≤ v ∧ v ≤ 0x1F) ∨ (0x22 ≤ v ∧ v ≤ 0x2F) ∨ (0x34 ≤ v ∧ v ≤ 0x3F) ∨
        (0x42 ≤ v ∧ v ≤ 0x4F) ∨ 0x54 ≤ v := by decide +kernel
theorem witness_BusyIgnoresHostWrites : (waiting [.hostWrite 0x10 0x00]).status.busy = true ∧
    (waiting [.hostWrite 0x10 0x00]).env = .hostWrite 0x10 0x00 :: [] ∧
    (waiting [.hostRead 0x01]).env = .hostRead 0x01 :: [] ∧ (waiting [.rst]).env = .rst :: [] := by decide +kernel
theorem witness_HostWriteThenRead : (idle [.hostWrite 0x04 0xFF]).env = .hostWrite 0x04 0xFF :: [] ∧
    (idle [.hostWrite 0x04 0xFF]).status.busy = false ∧ (0x04 : Byte) ≠ 0x00 ∧
    plainRegister 0x04 = true ∧ plainRegister 0x0A = true ∧ plainRegister 0x10 = true ∧ plainRegister 0x17 = true ∧
    plainRegister 0x02 = false ∧ plainRegister 0x03 = false ∧ plainRegister 0x0B = false ∧ plainRegister 0x0F = false ∧
    plainRegister 0x18 = false := by decide +kernel
theorem witness_RegisterMapReads : (idle [.hostRead 0x2F]).env = .hostRead 0x2F :: [] ∧
    (∀ q ∈ ([0x0F, 0x21, 0x30, 0xFF] : List Byte), q = 0x0F ∨ q = 0x21 ∨ 0x30 ≤ q) ∧
    ∀ q ∈ ([0x0E, 0x10, 0x20, 0x22, 0x2F] : List Byte), ¬ (q = 0x0F ∨ q = 0x21 ∨ 0x30 ≤ q) := by decide +kernel
theorem witness_ResetGivesTheListedValues : (waiting [.rst]).env = .rst :: [] := rfl

/-- The last wait and the last read of a conversion are rests of its procedure (R144). -/
theorem window_in_procedure : unfolded (.waiting 94 :: (spRead ++ [.finish .temp])) <:+ unfolded readTempProc := by
  decide +kernel
theorem read_in_procedure : unfolded (spRead ++ [.finish .temp]) <:+ unfolded readTempProc := by decide +kernel

/-- The invariant holds inside the window of a conversion. -/
theorem waiting_meets_invariant (es : List Event) : Inv (waiting es) where
  regCanonical := rfl
  regInside := by intro c h; cases h
  countBound := Nat.zero_le _
  idleStep := by intro h; cases h
  position := by intro _; rfl
  busyFlags := by intro _; exact ⟨rfl, rfl, rfl⟩
  counter := ⟨rfl, by intro _; exact ⟨by show 0 < 3; decide, by show 3 ≤ 750; decide⟩⟩
  pin := rfl
  room := by intro t h; cases h
  requested := by intro h; cases h
  portCodes := ⟨by show (0 : BitVec 3) ≠ 7; decide, by intro _; rfl⟩
  stepCounts := by intro _; rfl
  procedure := fun _ => ⟨.readTemp, by show decodeHost 0x20 = _; decide, Or.inr window_in_procedure⟩

/-- An operation in progress at a bus reset. -/
def atReset (es : List Event) : State := standing (spRead ++ [.finish .temp]) es

/-- The invariant holds at a primitive. -/
theorem atReset_meets_invariant (es : List Event) : Inv (atReset es) where
  regCanonical := rfl
  regInside := by intro c h; cases h
  countBound := Nat.zero_le _
  idleStep := by intro h; cases h
  position := by intro _; rfl
  busyFlags := by intro _; exact ⟨rfl, rfl, rfl⟩
  counter := ⟨rfl, by intro h; cases h⟩
  pin := rfl
  room := by intro t h; cases h
  requested := by intro h; cases h
  portCodes := ⟨by show (0 : BitVec 3) ≠ 7; decide, by intro _; rfl⟩
  stepCounts := by intro _; rfl
  procedure := fun _ => ⟨.readTemp, by show decodeHost 0x20 = _; decide, Or.inr read_in_procedure⟩

theorem witness_StepKeepsInvariant : Inv (waiting (ticks 3)) := waiting_meets_invariant _
theorem witness_StepKeepsPullupBracketed : Inv (waiting (ticks 3)) ∧ TraceMatchesPin (waiting (ticks 3)) ∧
    ∃ t, step (waiting (ticks 3)) = .next t := ⟨waiting_meets_invariant _, rfl, _, rfl⟩
theorem witness_PinIsHighOnlyInsideAWait : Inv (waiting []) ∧ TraceMatchesPin (waiting []) ∧
    pullupOut (waiting []) = true := ⟨waiting_meets_invariant _, rfl, rfl⟩
theorem witness_StepKeepsParameters : ∃ t, step (waiting (ticks 3)) = .next t := ⟨_, rfl⟩
/-- A host operation started with nothing in its trace meets the invariant. -/
theorem started_meets_invariant (i : Instr) (h : decodeHost (encode i) = .instr i) (es : List Event) :
    Inv (started i es) where
  regCanonical := rfl
  regInside := by intro c h; cases h
  countBound := Nat.zero_le _
  idleStep := by intro h; cases h
  position := by intro _; show (decodeHost (encode i)).toOption.isSome = true; rw [h]; rfl
  busyFlags := by intro _; exact ⟨rfl, rfl, rfl⟩
  counter := ⟨rfl, by intro h; cases h⟩
  pin := rfl
  room := by intro t h; cases h
  requested := by intro h; cases h
  portCodes := ⟨by show (0 : BitVec 3) ≠ 7; decide, by intro _; rfl⟩
  stepCounts := by intro _; rfl
  procedure := fun _ => ⟨i, h, Or.inl rfl⟩

/-- The start of each host operation, and a later step of one, at a primitive and inside a wait. -/
theorem witness_ResultsWrittenOnlyByTheirOperations :
    (∀ i : Instr, i.format = .host8 → (∃ t, exec i (started i []) = .next t) ∧ Inv (started i []) ∧
      decodeHost (started i []).seq.op = .instr i) ∧
    (Inv (atReset []) ∧ (atReset []).status.busy = true ∧ (∃ t, step (atReset []) = .next t)) ∧
    (Inv (waiting (ticks 3)) ∧ (∀ e, (waiting (ticks 3)).env.head? = some e → e.ofHost = false) ∧
      decodeHost (waiting (ticks 3)).seq.op = .instr .readTemp ∧ ∃ t, step (waiting (ticks 3)) = .next t) := by
  refine ⟨?_, ⟨atReset_meets_invariant _, rfl, _, rfl⟩, waiting_meets_invariant _, ?_, rfl, _, rfl⟩
  · intro i h
    have hd : decodeHost (encode i) = .instr i := by cases i <;> first | rfl | cases h
    refine ⟨?_, started_meets_invariant i hd [], hd⟩
    cases i <;> first | exact ⟨_, rfl⟩ | cases h
  · intro e h; cases h; rfl
theorem witness_OnlyConversionsAndCopiesDriveThePin :
    (∃ t, exec .discover (started .discover []) = .next t) ∧ (started .discover []).ctc.run = false ∧
    (∃ t, exec .setRes (started .setRes []) = .next t) ∧ (started .setRes []).latch.persist = false ∧
    (started .setRes []).ctc.run = false ∧ Inv (started .setRes []) ∧
    decodeHost (started .setRes []).seq.op = .instr .setRes ∧ ∃ t, step (started .setRes []) = .next t :=
  ⟨⟨_, rfl⟩, rfl, ⟨_, rfl⟩, rfl, rfl, started_meets_invariant _ rfl _, rfl, _, rfl⟩
theorem witness_FlagsAreNeverRead : (started .pack64 []).status.busy = true ∧
    ∃ t t', exec .pack64 (started .pack64 []) = .next t ∧ exec .pack64 (forgetFlags (started .pack64 [])) = .next t' ∧
      t.status.busy = false := ⟨rfl, _, _, rfl, rfl, rfl⟩
theorem witness_PrimitiveRequests : ∀ m : Micro, (standing [m, .finish .plain] []).seq.todo = m :: [.finish .plain] :=
  fun _ => rfl
theorem witness_WaitsWithoutLimit :
    (Inv (atReset []) ∧ (atReset []).status.busy = true ∧ atPrimitive (atReset []) = true ∧ (atReset []).env = []) ∧
    (Inv (waiting []) ∧ (waiting []).status.busy = true ∧ inWait (waiting []) = true ∧ (waiting []).env = []) :=
  ⟨⟨atReset_meets_invariant _, rfl, rfl, rfl⟩, waiting_meets_invariant _, rfl, rfl, rfl⟩
theorem witness_TicksCountDown :
    ((waiting (ticks 2)).status.busy = true ∧ (waiting (ticks 2)).ctc.run = true ∧
      0 < (waiting (ticks 2)).ctc.cnt.toNat ∧ (waiting (ticks 2)).env = ticks 2 ∧ 2 < (waiting (ticks 2)).ctc.cnt.toNat) ∧
    (waiting (ticks 3)).env = ticks (waiting (ticks 3)).ctc.cnt.toNat ∧
    (waiting (ticks 3)).status.pullup = assistDrives (waiting (ticks 3)) := by decide +kernel
theorem witness_IneffectiveEventsAreSkipped :
    (Inv (atReset [.turn]) ∧ (atReset [.turn]).status.busy = true ∧ atPrimitive (atReset [.turn]) = true) ∧
    (Inv (waiting [.turn]) ∧ inWait (waiting [.turn]) = true) ∧
    (Inv (atReset [.tick]) ∧ (atReset [.tick]).env = .tick :: []) ∧
    (Inv (waiting [.ack (flag true)]) ∧ (waiting [.ack (flag true)]).env = .ack (flag true) :: []) ∧
    (Inv (atReset [.turn, .hostRead 0x01]) ∧ (atReset [.turn, .hostRead 0x01]).env = .turn :: [.hostRead 0x01] ∧
      ∃ e, [Event.hostRead 0x01].head? = some e ∧ e.ofHost = true) :=
  ⟨⟨atReset_meets_invariant _, rfl, rfl⟩, ⟨waiting_meets_invariant _, rfl⟩, ⟨atReset_meets_invariant _, rfl⟩,
    ⟨waiting_meets_invariant _, rfl⟩, atReset_meets_invariant _, rfl, _, rfl, rfl⟩

/-- A READ_SP polled between its answers, in two pieces of its transaction. -/
def polled : List Event :=
  [.ack (flag true), .hostRead 0x01, .ack (flag false), .hostWrite 0x10 0xAA] ++ (reads s12).events.drop 2
/-- V-HI-5 on a READ_SP, and a wait that is polled before its ticks. -/
theorem witness_HostAccessesDoNotDisturb :
    (Inv (started .readSp polled) ∧ (started .readSp polled).status.busy = true ∧
      .rst ∉ (started .readSp polled).env ∧ (started .readSp polled).seq.todo = [.dispatch] ∧
      decodeHost (started .readSp polled).seq.op = .instr .readSp ∧
      ∃ t, exec .readSp { started .readSp polled with env := withoutAccesses polled } = .next t ∧ t.status.busy = false) ∧
    (Inv (waiting [.hostRead 0x01, .tick]) ∧ ∃ t, runSteps 1 (waiting (withoutAccesses [.hostRead 0x01, .tick])) = .next t ∧
      AtRest t) := by
  refine ⟨⟨started_meets_invariant _ rfl _, rfl, by decide +kernel, rfl, rfl, _, rfl, by decide +kernel⟩,
    waiting_meets_invariant _, _, rfl, Or.inr rfl⟩
/-- The polled run ends as the uncut one: success with the nine bytes in `SP`, in five steps of SEQ and the host. -/
theorem test_polled_readSp : seen (fun t => (ending t, t.out.sp, t.args.addr)) (runSteps 5 (started .readSp polled)) =
    some ((0x02, none, 12), s12, RomAddr.zero) := by decide +kernel
theorem witness_CrcProperties : 7 < [0x91, 0x01, 0x4B, 0x46, 0x7F, 0xFF, 0x0F, (0x10 : Byte)].length ∧
    [(0x91 : Byte)].length = [(0x01 : Byte)].length := by decide
theorem witness_CrcClrClears : (idle [.hostWrite 0x00 0x01, .turn]).env = .hostWrite 0x00 0x01 :: .turn :: [] ∧
    (idle [.hostWrite 0x00 0x01, .turn]).status.busy = false := ⟨rfl, rfl⟩

/-- The two shapes of a read: no presence, and a present device. -/
theorem witness_ReadSpRuns :
    ((ReadRun.absent (flag false)).legal = true ∧ (started .readSp [.ack (flag false)]).env =
      (ReadRun.absent (flag false)).events ++ []) ∧
    ((ReadRun.present (reads s12)).legal = true ∧ (started .readSp (reads s12).events).env =
      (ReadRun.present (reads s12)).events ++ []) := by decide +kernel
theorem witness_GetResRuns : (ReadRun.present (reads s10)).legal = true ∧ (started .getRes (reads s10).events).env =
    (ReadRun.present (reads s10)).events ++ [] := by decide +kernel
theorem witness_GetAlarmsRuns : (ReadRun.present (reads s12)).legal = true ∧
    (started .getAlarms (reads s12).events).env = (ReadRun.present (reads s12)).events ++ [] := by decide +kernel
theorem witness_WriteSpRuns :
    (WriteRun.absent (flag false)).legal = true ∧ (WriteRun.sent takes (.absent (flag false))).legal = true ∧
    (WriteRun.sent takes (.present (reads s10))).legal = true ∧
    (started .writeSp (takes.events ++ (reads s10).events)).env =
      (WriteRun.sent takes (.present (reads s10))).events ++ [] := by decide +kernel
theorem witness_CopySpRuns :
    (CopyRun.absent (flag false)).legal = true ∧ (CopyRun.uncopied (powered false) (flag false)).legal = true ∧
    (CopyRun.copied (powered false) hears).legal = true ∧
    (started .copySp ((powered false).events ++ hears.events ++ ticks 10)).env =
      (CopyRun.copied (powered false) hears).events ++ [] ∧ (started .copySp []).status.pullup = false := by decide +kernel
theorem witness_RecallE2Runs :
    (RecallRun.absent (flag false)).legal = true ∧ (RecallRun.recalled hears (.present (reads s12))).legal = true ∧
    (started .recallE2 (hears.events ++ (reads s12).events)).env =
      (RecallRun.recalled hears (.present (reads s12))).events ++ [] := by decide +kernel
/-- The four shapes of a conversion, the absorbed failure of V-CV-13 and the abort of V-CV-9 among them. -/
theorem witness_ReadTempRuns :
    (ConvertRun.absent (flag false)).legal params = true ∧
    (ConvertRun.aborted hears (.present (reads sBad))).legal { params with abortOnResFail := true } = true ∧
    (ConvertRun.unpowered hears (.present (reads s12)) (flag false)).legal params = true ∧
    (ConvertRun.converted hears (.absent (flag false)) (powered false) (.present (reads s12))).legal params = true ∧
    (started .readTemp ((ConvertRun.converted hears (.present (reads s9)) (powered false) (.present (reads s9))).events params)).env =
      (ConvertRun.converted hears (.present (reads s9)) (powered false) (.present (reads s9))).events params ++ [] ∧
    (ConvertRun.converted hears (.present (reads s9)) (powered false) (.present (reads s9))).legal
      (started .readTemp []).params = true ∧ (started .readTemp []).status.pullup = false := by decide +kernel
theorem witness_ReadRawRuns :
    (started .readRaw ((ConvertRun.absent (flag false)).events params)).env =
      (ConvertRun.absent (flag false)).events params ++ [] ∧
    (ConvertRun.absent (flag false)).legal (started .readRaw []).params = true ∧
    (started .readRaw []).status.pullup = false := by decide +kernel
theorem witness_FloatIsExactlyRawOverSixteen : (0x8000 : BitVec 16) ≠ 0 := by decide
theorem witness_ResolutionTables : CfgLayout.standard.fixed &&& (3 <<< CfgLayout.standard.resLsb.val) = 0 ∧
    resValid 9 = true ∧ resValid 12 = true ∧ (8 : Byte) ≠ 9 ∧ (8 : Byte) ≠ 10 ∧
    (8 : Byte) ≠ 11 := by decide
theorem witness_SetResRuns :
    (UpdateRun.written (reads s12) (.sent takes (.present (reads s10)))).legal params = true ∧
    (UpdateRun.unread (.absent (flag false))).legal params = true ∧ resValid (started .setRes []).latch.res = true ∧
    (started .setRes []).latch.persist = false ∧
    (started .setRes ((reads s12).events ++ takes.events ++ (reads s10).events)).env =
      (UpdateRun.written (reads s12) (.sent takes (.present (reads s10)))).events ++ [] := by decide +kernel
/-- The SET_RES of P2. -/
def persisting : State :=
  { started .setRes ((UpdateRun.written (reads s12) (.sent takes (.present (reads s10)))).events ++
      ((CopyRun.copied (powered false) hears).events ++ [])) with
    latch := { (started .setRes []).latch with persist := true } }
theorem witness_SetResPersistRuns :
    (UpdateRun.written (reads s12) (.sent takes (.present (reads s10)))).legal params = true ∧
    (CopyRun.copied (powered false) hears).legal = true ∧ resValid persisting.latch.res = true ∧
    persisting.latch.persist = true ∧
    (UpdateRun.written (reads s12) (.sent takes (.present (reads s10)))).kind params
      (setResBytes params persisting.latch) = none ∧
    persisting.env = (UpdateRun.written (reads s12) (.sent takes (.present (reads s10)))).events ++
      ((CopyRun.copied (powered false) hears).events ++ []) ∧ persisting.status.pullup = false := by decide +kernel
theorem witness_SetResRejectsBadArgument : resValid 8 = false ∧ resValid 13 = false ∧
    resValid { (started .setRes []).latch with res := 13 }.res = false := by decide
theorem witness_SetAlarmsRuns :
    (UpdateRun.written (reads s12) (.sent takes (.present (reads s12)))).legal params = true ∧
    (started .setAlarms ((reads s12).events ++ takes.events ++ (reads s12).events)).env =
      (UpdateRun.written (reads s12) (.sent takes (.present (reads s12)))).events ++ [] := by decide +kernel
theorem witness_IsExtRuns : (PowerRun.absent (flag false)).legal = true ∧ (PowerRun.present (powered true)).legal = true ∧
    (started .isExt (powered true).events).env = (PowerRun.present (powered true)).events ++ [] := by decide +kernel
theorem witness_IsParasiteRuns : (PowerRun.present (powered false)).legal = true ∧
    (started .isParasite (powered false).events).env = (PowerRun.present (powered false)).events ++ [] := by
  decide +kernel
theorem witness_DiscoverEnumerates :
    (∀ a ∈ [found addrA, found addrX], a.rflag = true) ∧ (flag false).rflag = false ∧
    (validOnes params [found addrA, found addrX]).length < (started .discover []).params.maxDev ∧
    Memory.wf (started .discover []).reg = true ∧
    (started .discover (.ack (flag false) :: (acks [found addrA, found addrX] ++ .ack (flag false) :: []))).env =
      .ack (flag false) :: (acks [found addrA, found addrX] ++ .ack (flag false) :: []) := by decide +kernel
theorem witness_DiscoverStopsAtCapacity :
    (∀ a ∈ [found addrA], a.rflag = true) ∧ (found addrB).rflag = true ∧ romValid .dallasMaxim (candidateOf (found addrB)) = true ∧
    (validOnes params [found addrA]).length + 1 = (started .discover []).params.maxDev ∧
    Memory.wf (started .discover []).reg = true ∧
    (started .discover (.ack (flag false) :: (acks ([found addrA] ++ [found addrB]) ++ []))).env =
      .ack (flag false) :: (acks ([found addrA] ++ [found addrB]) ++ []) := by decide +kernel
theorem witness_DiscoverMayNotEnd :
    (∀ a ∈ [found addrX, found addrX], a.rflag = true) ∧
    (validOnes params [found addrX, found addrX]).length < (started .discover []).params.maxDev ∧
    (started .discover (.ack (flag false) :: acks [found addrX, found addrX])).env =
      .ack (flag false) :: acks [found addrX, found addrX] := by decide +kernel
theorem witness_GetAddrRuns : (idle []).count.toNat ≤ (idle []).params.maxDev ∧
    ({ idle [] with count := 2 } : State).count.toNat ≤ ({ idle [] with count := 2 } : State).params.maxDev := by
  decide +kernel
/-- R197: one witness for each case, the valid address being that of its worked example: no answer yet, a valid candidate, an
invalid one, none found. -/
theorem witness_AlarmSearchRuns :
    (started .alarmSearch []).env = [] ∧
    (started .alarmSearch [.ack (found addrC)]).env = .ack (found addrC) :: [] ∧
    (started .alarmSearch [.ack (found addrX)]).env = .ack (found addrX) :: [] ∧
    (started .alarmSearch [.ack (flag false)]).env = .ack (flag false) :: [] ∧
    (found addrC).rflag = true ∧ romValid params.crc (candidateOf (found addrC)) = true ∧
    (found addrX).rflag = true ∧ romValid params.crc (candidateOf (found addrX)) = false ∧
    (flag false).rflag = false := by decide +kernel
theorem witness_ReadScratchpadCommand :
    (standing [.cmd 0xBE, .finish .plain] (acks (flag false :: (s12.map byte).toList))).seq.todo =
      .cmd 0xBE :: [.finish .plain] ∧
    (standing [.cmd 0xBE, .finish .plain] (acks (flag false :: (s12.map byte).toList))).env =
      acks (flag false :: (s12.map byte).toList) ++ [] := by decide +kernel
theorem witness_WriteScratchpadCommand :
    (standing [.cmd 0x4E, .finish .plain] (acks [flag false, flag false, flag false, flag false])).seq.todo =
      .cmd 0x4E :: [.finish .plain] ∧
    (standing [.cmd 0x4E, .finish .plain] (acks [flag false, flag false, flag false, flag false])).env =
      acks [flag false, flag false, flag false, flag false] ++ [] := by decide +kernel
theorem witness_CopyScratchpadCommand :
    (standing [.cmd 0x48, .finish .plain] (.ack (flag false) :: ticks 10)).seq.todo = .cmd 0x48 :: [.finish .plain] ∧
    (standing [.cmd 0x48, .finish .plain] (.ack (flag false) :: ticks 10)).env = .ack (flag false) :: (ticks 10 ++ []) ∧
    (standing [.cmd 0x48, .finish .plain] []).status.pullup = false := by decide +kernel
theorem witness_CommandsWithoutData :
    (standing [.cmd 0x44, .finish .plain] [.ack (flag false)]).env = .ack (flag false) :: [] ∧
    (standing [.cmd 0x44, .finish .plain] [.ack (flag false)]).seq.todo = .cmd 0x44 :: [.finish .plain] ∧
    (standing [.cmd 0xB8, .finish .plain] [.ack (flag false)]).seq.todo = .cmd 0xB8 :: [.finish .plain] := ⟨rfl, rfl, rfl⟩
theorem witness_ReadPowerSupplyCommand :
    (standing [.cmd 0xB4, .finish .plain] (acks [flag false, flag true])).seq.todo = .cmd 0xB4 :: [.finish .plain] ∧
    (standing [.cmd 0xB4, .finish .plain] (acks [flag false, flag true])).env = .ack (flag false) :: .ack (flag true) :: [] :=
  ⟨rfl, rfl⟩
theorem witness_AbsenceEndsTheOperation :
    (standing (.reset :: ([.select, wire .readScratchpad, .checkCrc] ++ [.finish .temp])) [.ack (flag false)]).status.busy =
      true ∧
    ResultKind.temp ≠ .count ∧ Micro.resolve ∉ [.select, wire .readScratchpad, .checkCrc] ∧
    (∀ k, Micro.finish k ∉ [.select, wire .readScratchpad, .checkCrc]) ∧ (flag false).rflag = false ∧
    (standing (.reset :: ([.select, wire .readScratchpad, .checkCrc] ++ [.finish .temp])) [.ack (flag false)]).env =
      .ack (flag false) :: [] := by
  refine ⟨rfl, by decide, by decide, ?_, rfl, rfl⟩
  intro k h; cases k <;> revert h <;> decide

end Sys2Proof.Tests
end

section
/-! PROOFS. Host accesses and resets as steps (10_state.md R34, R48). -/

namespace Sys2Proof.Machine

/-! ## The host's turn -/

/-- A host event at the head of `env` is taken by the next step, whatever SEQ is doing. -/
theorem step_host {s : State} {e : Event} {es : List Event} (he : s.env = e :: es) (ho : e.ofHost = true) :
    step s = .next (hostTurn { s with env := es } e) := by
  have hturn : nextTurn s = .host e es := by
    unfold nextTurn
    simp only [he, ho, if_true]
  unfold step
  rw [hturn]

/-- The equation of a host write at the next step. -/
theorem step_hostWrite {s : State} {r v : Byte} {es : List Event} (he : s.env = .hostWrite r v :: es) :
    step s = .next (hostWrite { s with env := es } r v) :=
  step_host he rfl

/-- The equation of a host read at the next step (R23). -/
theorem step_hostRead {s : State} {r : Byte} {es : List Event} (he : s.env = .hostRead r :: es) :
    step s = .next { s with env := es, hostRd := readReg s r } :=
  step_host he rfl

/-- The equation of a reset at the next step (R240). -/
theorem step_rst {s : State} {es : List Event} (he : s.env = .rst :: es) :
    step s = .next (resetBlock { s with env := es }) :=
  step_host he rfl

/-! ## While an operation is in progress -/

/-- The guard of R34. -/
theorem hostWrite_of_busy {s : State} (hb : s.status.busy = true) (r v : Byte) : hostWrite s r v = s :=
  if_pos hb

/-- Settles O10: the guard of R34 drops the write, a read touches the read value alone, and a reset leaves no procedure. -/
theorem busyIgnoresHostWrites : Obligations.BusyIgnoresHostWrites := by
  intro s r v es hb
  refine ⟨fun hwrite => ?write, fun hread => step_hostRead hread, fun hrst => ?rst⟩
  case write =>
    have hignored : hostWrite { s with env := es } r v = { s with env := es } :=
      hostWrite_of_busy (s := { s with env := es }) hb r v
    rw [step_hostWrite hwrite, hignored]
  case rst => exact ⟨resetBlock { s with env := es }, step_rst hrst, rfl, rfl, rfl⟩

end Sys2Proof.Machine
end

section
/-! PROOFS. Illegal values of `CMD` (30_encoding.md R99), and PACK64 (45_registry.md R198). -/

namespace Sys2Proof.Machine

/-! ## Illegal values of `CMD` -/

/-- The bytes in the gaps between the opcodes (R99) are in no row of the host's table. -/
theorem decodeHost_of_illegal :
    ∀ v : Byte, v = 0x00 ∨ (0x03 ≤ v ∧ v ≤ 0x0F) ∨ (0x14 ≤ v ∧ v ≤ 0x1F) ∨ (0x22 ≤ v ∧ v ≤ 0x2F) ∨
        (0x34 ≤ v ∧ v ≤ 0x3F) ∨ (0x42 ≤ v ∧ v ≤ 0x4F) ∨ 0x54 ≤ v →
      decodeHost v = .rejected (.illegalHostOpcode v) := by decide

/-- A write of `CMD` that the host's decoder rejects (R24, R99). -/
theorem writeCmd_of_rejected {v : Byte} {why : DecodeError} (hv : decodeHost v = .rejected why) (s : State) :
    s.writeCmd v = { s with cmd := v, status := statusIllegal s.status, failKind := some .illegalOp } := by
  unfold State.writeCmd
  rw [hv]

/-- Register 0x00 is `CMD` (R23, R24). -/
theorem hostWrite_cmd {s : State} (hb : s.status.busy = false) (v : Byte) : hostWrite s 0x00 v = s.writeCmd v := by
  unfold hostWrite
  rw [if_neg (Bool.eq_false_iff.mp hb), if_pos rfl]

/-- The flags of a refused opcode, `BUSY` being 0 already. -/
theorem statusIllegal_of_idle {st : Status} (hb : st.busy = false) :
    statusIllegal st = { st with busy := false, ok := false, bool := false, ill := true } := by
  rw [statusIllegal, hb]

/-- Settles O9: the write reaches `CMD`, no row of the table decodes the value, and the refusal touches what R99 names. -/
theorem illegalOpcodeRefused : Obligations.IllegalOpcodeRefused := by
  intro s v es hwrite hb hillegal
  rw [step_hostWrite hwrite, hostWrite_cmd (s := { s with env := es }) hb,
    writeCmd_of_rejected (decodeHost_of_illegal v hillegal), statusIllegal_of_idle hb]

/-! ## PACK64 -/

/-- Byte `i` of the address on the port (R40). -/
theorem unpack64_getElem (x : BitVec 64) (i : Nat) (hi : i < 8) : (unpack64 x)[i] = x.extractLsb' (8 * i) 8 := by
  interval_cases i <;> rfl

/-- Packing loses nothing (R105). -/
theorem unpack64_pack64 (a : RomAddr) : unpack64 (pack64 a) = a := by
  ext1 i hi
  rw [unpack64_getElem, pack64_byte a i hi]

/-- Registers 0x28 to 0x2F are the bytes of `A64`, least significant first (R23). -/
theorem readReg_a64 (s : State) (i : Fin 8) :
    readReg s (BitVec.ofNat 8 (0x28 + i)) = s.out.a64.extractLsb' (8 * i) 8 := by
  fin_cases i <;> rfl

/-- The equation of PACK64 (R198). -/
theorem exec_pack64 (s : State) :
    exec .pack64 s = .next ({ s with out := { s.out with a64 := pack64 s.latch.addr } }.endOp true) := rfl

/-- After PACK64 the host reads the latched address byte by byte. -/
theorem readReg_after_pack64 {s t : State} (h : exec .pack64 s = .next t) (i : Fin 8) :
    readReg t (BitVec.ofNat 8 (0x28 + i)) = s.latch.addr[i] := by
  have ha64 : t.out.a64 = pack64 s.latch.addr := by
    rw [exec_pack64] at h
    cases h
    rfl
  rw [readReg_a64, ha64, pack64_byte s.latch.addr i i.isLt]
  rfl

/-- Settles O54: the next state is PACK64's equation, the sum and the round trip are those of `pack64`, and the eight registers
read its bytes. -/
theorem pack64Packs : Obligations.Pack64Packs := by
  refine ⟨?opcode, ?worked_example, fun s => ⟨exec_pack64 s, ?packing, fun t ht => readReg_after_pack64 ht⟩⟩
  case opcode => decide
  case worked_example => decide
  case packing => exact fun a => ⟨pack64_toNat a, unpack64_pack64 a⟩

end Sys2Proof.Machine
end

section
/-! PROOFS. The start of a host operation as two steps (10_state.md R24, R33), and the CRC helper CRC_CLR and CRC_PUSH
(40_crc.md R115, R116). -/

namespace Sys2Proof.Machine

/-! ## The start of an operation -/

/-- A write of `CMD` that the host's decoder takes (R24, R33). -/
theorem writeCmd_of_legal {v : Byte} {i : Instr} (hv : decodeHost v = .instr i) (s : State) :
    s.writeCmd v = { s with cmd := v }.startOp v := by
  unfold State.writeCmd
  rw [hv]

/-- The step that starts an operation: a legal opcode is written to `CMD` while none is in progress. -/
theorem step_starts {s : State} {v : Byte} {i : Instr} {es : List Event} (he : s.env = .hostWrite 0x00 v :: es)
    (hb : s.status.busy = false) (hv : decodeHost v = .instr i) :
    step s = .next ({ s with env := es, cmd := v }.startOp v) := by
  rw [step_hostWrite he, hostWrite_cmd (s := { s with env := es }) hb, writeCmd_of_legal hv]

/-- SEQ's turn at the start of an operation: the opcode in `SEQ.OP` is run. -/
theorem step_dispatch {s : State} {i : Instr} {q : List Micro} (hb : s.status.busy = true)
    (hh : ∀ e, s.env.head? = some e → e.ofHost = false) (ht : s.seq.todo = .dispatch :: q)
    (hi : decodeHost s.seq.op = .instr i) : step s = exec i s := by
  have hfetch : fetch s = some (.instr i) := by
    unfold fetch position
    rw [ht, ← hi]
  unfold step
  rw [nextTurn_seq s hb hh, hfetch]

/-! ## CRC_CLR -/

/-- The equation of CRC_CLR (R115). -/
theorem exec_crcClr (s : State) :
    exec .crcClr s = .next ({ s with out := { s.out with crcAcc := 0x00 } }.endOp true) := rfl

/-- Settles O30: the next state is CRC_CLR's equation; the write of `CMD` starts the operation, and SEQ's next turn runs it to
its end. -/
theorem crcClrClears : Obligations.CrcClrClears := by
  refine ⟨exec_crcClr, fun s es he hb => ?two_steps⟩
  have hcode : decodeHost 0x01 = .instr .crcClr := by decide
  let u : State := { s with env := .turn :: es, cmd := 0x01 }.startOp 0x01
  have hstart : step s = .next u := step_starts he hb hcode
  have hturn : ∀ e, u.env.head? = some e → e.ofHost = false := by
    rintro e ⟨⟩
    rfl
  have hrun : step u = exec .crcClr u := step_dispatch (q := []) rfl hturn rfl hcode
  exact ⟨u, _, hstart, rfl, hrun.trans (exec_crcClr u), rfl, rfl, rfl, rfl⟩

/-! ## CRC_PUSH -/

/-- The equation of CRC_PUSH (R116): the operand is the latched byte (R30). -/
theorem exec_crcPush (s : State) :
    exec .crcPush s = .next
      ({ s with out := { s.out with crcAcc := crcUpd s.params.crc s.out.crcAcc s.latch.byte } }.endOp true) := rfl

/-- Settles O31: the next state is CRC_PUSH's equation, and an accumulator pushed onto itself cancels, as `Upd` gives 0 for
equal arguments. -/
theorem crcPushUpdates : Obligations.CrcPushUpdates := by
  refine ⟨?opcode, exec_crcPush, ?own_value, ?zero_onto_zero, ?worked_example⟩
  case opcode => decide
  case own_value => exact fun acc => (crcUpd_eq_zero acc acc).mpr rfl
  case zero_onto_zero => exact (crcUpd_eq_zero 0 0).mpr rfl
  case worked_example => decide

end Sys2Proof.Machine
end

section
/-! PROOFS. The scratchpad accessor (41_scratchpad.md): READ_SP, WRITE_SP, COPY_SP, RECALL_E2 in every run of the transport.
Each procedure is one sub-procedure of Laws/Runs.lean followed by the end of an operation without value registers, so the
four proofs share what that end does (`plain_operation_ends`). -/

namespace Sys2Proof.Machine

/-! ## An operation that is one sub-procedure and its end (R35, R214) -/

/-- `X` is what a sub-procedure that ended with the kind `k` (none for success) made of `s`: `t_ok` and the kind say so, and
nothing a per-device procedure may not write has changed. -/
structure Concluded (k : Option FailKind) (s X : State) : Prop where
  same : Same s X
  ok : X.tmp.ok = k.isNone
  failKind : X.failKind = k.or s.failKind

/-- An operation whose procedure `p` concluded with `k` and goes to its end: it reports `k`, leaves the events to come, and its
end writes no register, trace, port output or counter. -/
theorem plain_operation_ends {p : List Micro} {k : Option FailKind} {s X : State} {es : List Event}
    (hrun : runProc p s = feed es (advance (Course.of k) [.finish .plain] X)) (h : Concluded k s X) :
    ∃ t, (Host.Outcome.next (runProc p s) : Host.Outcome State Fault Refusal) = .next t ∧ t.env = es ∧ EndedWith k s t ∧
      KeepsRegisters s t ∧ t.out = X.out ∧ t.trace = X.trace ∧ t.bus.req = X.bus.req ∧ t.ctc = X.ctc := by
  obtain ⟨hsame, hok, hkind⟩ := h
  obtain ⟨henv, hend, hout, hcmd, hpullupEn, hargs, hcount, hlatch, hhostRd, hparams, hreg, htrace, hbus, hctc⟩ :=
    plain_end (es := es) rfl hok hsame.status hsame.op hkind
  rw [hrun, advance_finish, feed_finish]
  have hregs : (X.finish .plain).reg = s.reg := hreg.trans hsame.reg
  have hkeeps : KeepsRegisters s { X.finish .plain with env := es } :=
    ⟨hcmd.trans hsame.cmd, hpullupEn.trans hsame.pullupEn, hargs.trans hsame.args, hcount.trans hsame.count,
      hlatch.trans hsame.latch, hhostRd.trans hsame.hostRd, hparams.trans hsame.params, hregs,
      fun k => congrArg (Memory.read · k) hregs⟩
  exact ⟨_, rfl, henv, hend, hkeeps, hout, htrace, congrArg BusPort.req hbus, hctc⟩

/-! ## READ_SP (R122) -/

theorem ReadRun.concludes (r : ReadRun) (s : State) (h : r.legal = true) : Concluded (r.kind s.params) s (r.after s) := by
  refine ⟨?same, ?ok, r.after_failKind s⟩
  case same => constructor <;> simp [h]
  case ok => simp [h]

/-- READ_SP is a scratchpad read and its end. -/
theorem runProc_readSp {s : State} (r : ReadRun) (h : r.legal = true) {es : List Event} (he : s.env = r.events ++ es) :
    runProc readSpProc s = feed es (advance (Course.of (r.kind s.params)) [.finish .plain] (r.after s)) := by
  rw [← feed_spRead r h, ← he]
  exact runProc_bus .reset rfl (by decide) _ s

/-- Settles O33: the read concludes as R121 says, and the operation ends as the read does. -/
theorem readSpRuns : Obligations.ReadSpRuns := by
  refine ⟨?opcode, fun s r es hr he => ?run, ?zeros, ?ones, ?worked_example, ?byte_changed⟩
  case run =>
    have hends := plain_operation_ends (runProc_readSp r hr he) (r.concludes s hr)
    rw [r.after_out s hr, r.after_trace s hr, r.after_req s hr, r.after_ctc s] at hends
    exact hends
  case opcode => decide
  all_goals decide +kernel

/-! ## WRITE_SP (R125) -/

/-- The three latched bytes, which WRITE_SP sends as they were given. -/
def latchedBytes (l : Latches) : Byte × Byte × Byte := (l.th, l.tl, l.cfg)

/-- What WRITE_SP leaves before its end. -/
def afterWriteSp (r : WriteRun) (s : State) : State := r.after (loaded s (latchedBytes s.latch))

theorem afterWriteSp_concludes (r : WriteRun) (s : State) (h : r.legal = true) :
    Concluded (r.kind s.params s.latch.th s.latch.tl s.latch.cfg) s (afterWriteSp r s) := by
  refine ⟨?same, r.after_ok _ h, r.after_failKind _ h⟩
  constructor <;> simp [afterWriteSp, loaded, h]

/-- WRITE_SP loads the latched bytes, then it is a verified write and its end. -/
theorem runProc_writeSp {s : State} (r : WriteRun) (h : r.legal = true) {es : List Event} (he : s.env = r.events ++ es) :
    runProc writeSpProc s =
      feed es (advance (Course.of (r.kind s.params s.latch.th s.latch.tl s.latch.cfg)) [.finish .plain]
        (afterWriteSp r s)) := by
  have hloaded : runProc writeSpProc s = feed s.env ((loaded s (latchedBytes s.latch)).goto (spWrite ++ [.finish .plain])) :=
    rfl
  rw [hloaded, he]
  exact feed_spWrite r h [.finish .plain] es (loaded s (latchedBytes s.latch))

/-- Settles O34: the write concludes with the kind R124 gives for the latched bytes, and the operation ends as the write
does. -/
theorem writeSpRuns : Obligations.WriteSpRuns := by
  refine ⟨?opcode, ?worked_example, fun s r es hr he => ?run⟩
  case run =>
    have hends := plain_operation_ends (runProc_writeSp r hr he) (afterWriteSp_concludes r s hr)
    rw [afterWriteSp, r.after_out _ hr, r.after_trace _ hr, r.after_req _ hr, r.after_ctc] at hends
    exact hends
  case opcode => decide
  case worked_example => decide +kernel

/-! ## COPY_SP (R128) -/

theorem CopyRun.concludes (r : CopyRun) (s : State) (h : r.legal = true) (hp : s.status.pullup = false) :
    Concluded r.kind s (r.after s) := by
  refine ⟨?same, r.after_ok s h, r.after_failKind s⟩
  constructor <;> simp [h, hp]

/-- COPY_SP is a copy to EEPROM and its end. -/
theorem runProc_copySp {s : State} (r : CopyRun) (h : r.legal = true) {es : List Event} (he : s.env = r.events ++ es) :
    runProc copySpProc s = feed es (advance (Course.of r.kind) [.finish .plain] (r.after s)) := by
  rw [← feed_spCopy r h, ← he]
  exact runProc_bus .reset rfl (by decide) _ s

/-- Settles O35: the copy concludes as R127 says, its wait leaving the pin and the counter at 0, and the operation ends as the
copy does. -/
theorem copySpRuns : Obligations.CopySpRuns := by
  refine ⟨by decide, fun s r es hr he hp => ?_⟩
  have hends := plain_operation_ends (runProc_copySp r hr he) (r.concludes s hr hp)
  rw [r.after_out s hr, r.after_trace s hr, r.after_req s hr, r.after_ctc s] at hends
  exact hends

/-! ## RECALL_E2 (R130) -/

/-- What a recall leaves (R129). -/
def RecallRun.after (r : RecallRun) (s : State) : State :=
  match r with
  | .absent p => (primitive .reset p s).raise .absent
  | .recalled x b => b.after (afterHead .recallEeprom x s)

/-- A recall in every run (R129): no wait stands between the command and the confirming read. -/
theorem feed_spRecall (r : RecallRun) (h : r.legal = true) (t : List Micro) (es : List Event) (s : State) :
    feed (r.events ++ es) (s.goto (spRecall ++ t)) = feed es (advance (Course.of (r.kind s.params)) t (r.after s)) := by
  cases r with
  | absent p =>
    have hp : p.rflag = false := by simpa [RecallRun.legal] using h
    have hskipped : ∀ m ∈ [.select, wire .recallEeprom] ++ spRead, Course.failing.skips m = some .failing := by
      simp [Course.skips, wire, spRead, txnStart]
    exact (feed_reset_absent p hp _ es s).trans (congrArg (feed es) (advance_failing _ t _ hskipped))
  | recalled x b =>
    obtain ⟨hx, hb⟩ : x.reset.rflag = true ∧ b.legal = true := by simpa [RecallRun.legal] using h
    have hhead := feed_head_present .recallEeprom x hx (spRead ++ t) (b.events ++ es) s
    rw [behind_recallEeprom, advance_spRead, feed_spRead b hb, afterHead_params] at hhead
    rw [RecallRun.events, List.append_assoc]
    exact hhead

section

variable (r : RecallRun) (s : State)

@[simp] theorem RecallRun.after_ctc : (r.after s).ctc = s.ctc := by
  cases r <;> simp [RecallRun.after]

@[simp] theorem RecallRun.after_out (h : r.legal = true) : (r.after s).out = { s.out with sp := r.spAfter s.out.sp } := by
  cases r <;> simp_all [RecallRun.after, RecallRun.legal, RecallRun.spAfter]

@[simp] theorem RecallRun.after_req (h : r.legal = true) : (r.after s).bus.req = false := by
  cases r <;> simp_all [RecallRun.after, RecallRun.legal]

@[simp] theorem RecallRun.after_trace (h : r.legal = true) : (r.after s).trace = s.trace ++ r.trace s.latch.addr := by
  cases r <;> simp_all [RecallRun.after, RecallRun.legal, RecallRun.trace, encode]

theorem RecallRun.concludes (h : r.legal = true) : Concluded (r.kind s.params) s (r.after s) := by
  cases r with
  | absent p =>
    have hp : p.rflag = false := by simpa [RecallRun.legal] using h
    have hsame : Same s ((RecallRun.absent p).after s) := by constructor <;> simp [RecallRun.after, hp]
    exact ⟨hsame, rfl, rfl⟩
  | recalled x b =>
    obtain ⟨hx, hb⟩ : x.reset.rflag = true ∧ b.legal = true := by simpa [RecallRun.legal] using h
    have hsame : Same s ((RecallRun.recalled x b).after s) := by constructor <;> simp [RecallRun.after, hx, hb]
    refine ⟨hsame, ?ok, ?failKind⟩
    case ok => simp [RecallRun.after, RecallRun.kind, hb]
    case failKind => simp [RecallRun.after, RecallRun.kind]

end

/-- RECALL_E2 is a recall and its end. -/
theorem runProc_recallE2 {s : State} (r : RecallRun) (h : r.legal = true) {es : List Event} (he : s.env = r.events ++ es) :
    runProc recallE2Proc s = feed es (advance (Course.of (r.kind s.params)) [.finish .plain] (r.after s)) := by
  rw [← feed_spRecall r h, ← he]
  exact runProc_bus .reset rfl (by decide) _ s

/-- Settles O36: the recall concludes as its confirming read does, or with Absent, and the operation ends so. -/
theorem recallE2Runs : Obligations.RecallE2Runs := by
  refine ⟨by decide, fun s r es hr he => ?_⟩
  have hends := plain_operation_ends (runProc_recallE2 r hr he) (r.concludes s hr)
  rw [r.after_out s hr, r.after_trace s hr, r.after_req s hr, r.after_ctc s] at hends
  exact hends

end Sys2Proof.Machine
end

section
/-! PROOFS. The conversion controller (42_conversion.md): READ_TEMP and READ_RAW in every run of the transport and for both
values of `RT_ABORT_ON_RES_FAIL`. Both are `Convert` (Laws/Runs.lean) and an end that differs in the value registers it writes,
so one lemma about that end (`value_operation_ends`) serves both. -/

namespace Sys2Proof.Machine

/-! ## The end of an operation whose results are value registers (R22, R35, R215) -/

/-- The results are value registers only: no flag of `STATUS`, no test of `COUNT`. -/
def ResultKind.isValue : ResultKind → Bool
  | .plain | .temp | .raw | .res | .alarms => true
  | .ext | .parasite | .count => false

/-- The value registers when an operation ends: results on success, sentinels on failure. -/
def outAtEnd (r : ResultKind) (ok : Bool) (s : State) : Results :=
  if ok then (s.writeResults r).out else (s.writeSentinels r).out

theorem writeResults_of_isValue {r : ResultKind} (hr : r.isValue = true) (s : State) :
    s.writeResults r = { s with out := (s.writeResults r).out } := by
  cases r with
  | plain | temp | raw | res | alarms => rfl
  | ext | parasite | count => cases hr

theorem writeSentinels_of_isValue {r : ResultKind} (hr : r.isValue = true) (s : State) :
    s.writeSentinels r = { s with out := (s.writeSentinels r).out } := by
  cases r with
  | plain | temp | raw | res | alarms => rfl
  | ext | parasite | count => cases hr

/-- Such an end writes value registers and closes the operation, nothing else. -/
theorem finish_of_isValue {r : ResultKind} (hr : r.isValue = true) (s : State) :
    s.finish r = { s with out := outAtEnd r s.tmp.ok s }.endOp s.tmp.ok := by
  have hcount : r ≠ .count := by
    rintro rfl
    cases hr
  cases hok : s.tmp.ok with
  | true => exact (finish_success s r hok hcount).trans (congrArg (State.endOp · true) (writeResults_of_isValue hr s))
  | false => exact (finish_failure s r hok hcount).trans (congrArg (State.endOp · false) (writeSentinels_of_isValue hr s))

/-- What no per-device procedure writes is what `KeepsRegisters` asks for, but for the flags. -/
theorem Same.keepsRegisters {s X : State} (h : Same s X) : KeepsRegisters s X :=
  ⟨h.cmd, h.pullupEn, h.args, h.count, h.latch, h.hostRd, h.params, h.reg, fun k => congrArg (Memory.read · k) h.reg⟩

/-- An operation whose procedure `p` ended with the kind `k` in `X` and goes to its end: it reports `k`, leaves the events to
come, and its end writes no register but value registers, no trace, port output or counter. -/
theorem value_operation_ends {p : List Micro} {k : Option FailKind} {r : ResultKind} {s X : State} {es : List Event}
    (hr : r.isValue = true) (hrun : runProc p s = feed es (advance (Course.of k) [.finish r] X)) (hsame : Same s X)
    (hok : X.tmp.ok = k.isNone) (hkind : k.isSome → X.failKind = k) :
    ∃ t, runProc p s = t ∧ t.env = es ∧ EndedWith k s t ∧ KeepsRegisters s t ∧ t.out = outAtEnd r k.isNone X ∧
      t.trace = X.trace ∧ t.bus = X.bus ∧ t.ctc = X.ctc := by
  have hstop : runProc p s = { { X with out := outAtEnd r k.isNone X }.endOp k.isNone with env := es } := by
    rw [hrun, advance_finish, feed_finish, finish_of_isValue hr, hok]
  have hended : (if k.isNone then none else X.failKind) = k := by
    cases k with
    | none => rfl
    | some k => exact hkind rfl
  refine ⟨_, hstop, rfl, ⟨?status, ?seq, hended⟩, hsame.keepsRegisters, rfl, rfl, rfl, rfl⟩
  case status => simp [hsame.status]
  case seq => simp [hsame.op]

/-! ## `Convert` and its end (R144) -/

theorem runProc_convert (t : List Micro) (s : State) :
    runProc (convert ++ t) s = feed s.env (s.goto (convert ++ t)) := by
  rw [convert_append]
  exact runProc_bus .reset rfl (by decide) _ s

/-- A conversion whose results are the value registers `r`, in every run: the kind, trace, pin, counter and `SP` are those of
the run, whatever `r` is. -/
theorem conversion_ends (r : ResultKind) (hr : r.isValue = true) {s : State} {c : ConvertRun} {es : List Event}
    (hc : c.legal s.params = true) (he : s.env = c.events s.params ++ es) (hp : s.status.pullup = false) :
    ∃ X t : State, runProc (convert ++ [.finish r]) s = t ∧
      X.out = { s.out with sp := c.spAfter s.out.sp } ∧ t.env = es ∧ EndedWith (c.kind s.params) s t ∧
      KeepsRegisters s t ∧ t.out = outAtEnd r (c.kind s.params).isNone X ∧
      t.trace = s.trace ++ c.trace s.params s.latch.addr s.latch.pullupEn ∧ t.bus.req = false ∧
      t.ctc = if c.waited then { cnt := 0, run := false } else s.ctc := by
  obtain ⟨X, hfeed, hsame, hctc, hreq, hout, htrace, hok, hkind⟩ := feed_convert c [.finish r] es s hc hp
  have hrun : runProc (convert ++ [.finish r]) s = feed es (advance (Course.of (c.kind s.params)) [.finish r] X) := by
    rw [← hfeed, ← he]
    exact runProc_convert _ s
  obtain ⟨t, hstop, henv, hended, hkeeps, hout', htrace', hbus', hctc'⟩ := value_operation_ends hr hrun hsame hok hkind
  exact ⟨X, t, hstop, hout, henv, hended, hkeeps, hout', htrace'.trans htrace, (congrArg BusPort.req hbus').trans hreq,
    hctc'.trans hctc⟩

/-! ## READ_TEMP and READ_RAW (R146, R147) -/

/-- The value registers READ_TEMP leaves (R146, R151). -/
theorem outAtEnd_temp (k : Option FailKind) (X : State) : outAtEnd .temp k.isNone X =
    { X.out with
      raw := if k = none then rawOf X.out.sp else 0x0000
      tempF32 := if k = none then f32 (rawOf X.out.sp) else 0x7FC00000 } := by
  cases k with
  | none => simp [outAtEnd, State.writeResults]
  | some k => simp [outAtEnd, State.writeSentinels, Config.nanF32]

/-- The value registers READ_RAW leaves (R147). -/
theorem outAtEnd_raw (k : Option FailKind) (X : State) : outAtEnd .raw k.isNone X =
    { X.out with raw := if k = none then rawOf X.out.sp else 0x0000 } := by
  cases k with
  | none => simp [outAtEnd, State.writeResults]
  | some k => simp [outAtEnd, State.writeSentinels]

/-- Settles O37: the conversion ends as its run says, and READ_TEMP's end takes both value registers from the last bytes
read. -/
theorem readTempRuns : Obligations.ReadTempRuns := by
  refine ⟨?opcode, ?worked_example, fun s c es hc he hp => ?run⟩
  case opcode => decide
  case worked_example => decide
  case run =>
    obtain ⟨X, t, hstop, hX, henv, hended, hkeeps, hout, hrest⟩ := conversion_ends .temp rfl hc he hp
    rw [outAtEnd_temp, hX] at hout
    exact ⟨t, congrArg Host.Outcome.next hstop, henv, hended, hkeeps, hout, hrest⟩

/-- Settles O38: the same conversion, and READ_RAW's end leaves `TEMP_F32` as it was. -/
theorem readRawRuns : Obligations.ReadRawRuns := by
  refine ⟨?opcode, ?worked_example, fun s c es hc he hp => ?run⟩
  case opcode => decide
  case worked_example => decide
  case run =>
    obtain ⟨X, t, hstop, hX, henv, hended, hkeeps, hout, hrest⟩ := conversion_ends .raw rfl hc he hp
    rw [outAtEnd_raw, hX] at hout
    exact ⟨t, congrArg Host.Outcome.next hstop, henv, hended, hkeeps, hout, hrest⟩

end Sys2Proof.Machine
end

section
/-! PROOFS. The configuration manager (43_config.md): GET_RES, SET_ALARMS and GET_ALARMS in every run of the transport. The two
GET operations are a scratchpad read and an end that differs in the value registers it writes, so they share
`scratchpadRead_ends`; SET_ALARMS is an update of Laws/Runs.lean and the end without value registers. -/

namespace Sys2Proof.Machine

/-! ## A scratchpad read whose results are value registers (R161, R164) -/

/-- A failure that concluded a sub-procedure is the one noted (R210). -/
theorem Concluded.failKind_of_failed {k : Option FailKind} {s X : State} (h : Concluded k s X) (hk : k.isSome) :
    X.failKind = k := by
  obtain ⟨_, rfl⟩ := Option.isSome_iff_exists.mp hk
  exact h.failKind

/-- `OK` tells success (R35). -/
theorem EndedWith.status_ok {k : Option FailKind} {s t : State} (h : EndedWith k s t) : t.status.ok = k.isNone :=
  congrArg Status.ok h.1

theorem runProc_spRead (t : List Micro) (s : State) : runProc (spRead ++ t) s = feed s.env (s.goto (spRead ++ t)) :=
  runProc_bus .reset rfl (by decide) _ s

/-- A scratchpad read whose results are the value registers `q`, in every run: the kind, trace and `SP` are those of the run,
whatever `q` is. -/
theorem scratchpadRead_ends {q : ResultKind} (hq : q.isValue = true) {s : State} {r : ReadRun} {es : List Event}
    (hr : r.legal = true) (he : s.env = r.events ++ es) :
    ∃ t, runProc (spRead ++ [.finish q]) s = t ∧ t.env = es ∧ EndedWith (r.kind s.params) s t ∧ KeepsRegisters s t ∧
      t.out = outAtEnd q (r.kind s.params).isNone (r.after s) ∧ t.trace = s.trace ++ r.trace s.latch.addr ∧
      t.bus.req = false ∧ t.ctc = s.ctc := by
  have hrun : runProc (spRead ++ [.finish q]) s =
      feed es (advance (Course.of (r.kind s.params)) [.finish q] (r.after s)) := by
    rw [runProc_spRead, he, feed_spRead r hr]
  have hconcluded := r.concludes s hr
  obtain ⟨t, hstop, henv, hended, hkeeps, hout, htrace, hbus, hctc⟩ :=
    value_operation_ends hq hrun hconcluded.same hconcluded.ok hconcluded.failKind_of_failed
  exact ⟨t, hstop, henv, hended, hkeeps, hout, htrace.trans (r.after_trace s hr),
    (congrArg BusPort.req hbus).trans (r.after_req s hr), hctc.trans (r.after_ctc s)⟩

/-! ## GET_RES (R160, R161) -/

/-- The value registers GET_RES leaves (R161). -/
theorem outAtEnd_res (k : Option FailKind) (X : State) : outAtEnd .res k.isNone X =
    { X.out with res := if k = none then resDecode X.params.cfg X.out.sp[4] else 0x00 } := by
  cases k with
  | none => simp [outAtEnd, State.writeResults]
  | some k => simp [outAtEnd, State.writeSentinels]

/-- No decoded resolution is the 0 that tells a failure (R103, R161). -/
theorem resDecode_ne_zero (l : CfgLayout) (c : Byte) : resDecode l c ≠ 0x00 := by
  unfold resDecode
  dsimp only
  split_ifs <;> decide

/-- Settles O44: GET_RES's end decodes byte 4 of a valid read, which never gives 0, so that 0 stands for a failure alone. -/
theorem getResRuns : Obligations.GetResRuns := by
  refine ⟨?opcode, ?ten, ?nine, fun s r es hr he => ?run⟩
  case opcode => decide
  case ten => decide
  case nine => decide
  case run =>
    obtain ⟨t, hstop, henv, hended, hkeeps, hout, htrace, hreq, hctc⟩ :=
      scratchpadRead_ends (q := .res) rfl hr he
    rw [outAtEnd_res, r.after_out s hr, r.after_params] at hout
    have hok : t.status.ok = true ↔ t.out.res ≠ 0x00 := by
      rw [hended.status_ok, hout]
      cases r.kind s.params with
      | none => exact iff_of_true rfl (resDecode_ne_zero _ _)
      | some k => simp
    exact ⟨t, congrArg Host.Outcome.next hstop, henv, hended, hkeeps, hout, htrace, hreq, hctc, hok⟩

/-! ## SET_ALARMS (R165) -/

/-- SET_ALARMS is an update that writes `setAlarmsBytes`, and its end. -/
theorem runProc_setAlarms {s : State} {u : UpdateRun} (hu : u.legal s.params = true) {es : List Event}
    (he : s.env = u.events ++ es) :
    ∃ X, runProc setAlarmsProc s =
        feed es (advance (Course.of (u.kind s.params (setAlarmsBytes s.latch))) [.finish .plain] X) ∧
      Concluded (u.kind s.params (setAlarmsBytes s.latch)) s X ∧ X.out = { s.out with sp := u.spAfter s.out.sp } ∧
      X.trace = s.trace ++ u.trace s.latch.addr (setAlarmsBytes s.latch) ∧ X.bus.req = false ∧ X.ctc = s.ctc := by
  obtain ⟨X, hfeed, hsame, hctc, hreq, hout, htrace, hok, hkind⟩ :=
    feed_update .loadAlarms (fun _ l => setAlarmsBytes l) loadAlarms_adv rfl u [.finish .plain] es s hu
  refine ⟨X, ?run, ⟨hsame, hok, hkind⟩, hout, htrace, hreq, hctc⟩
  rw [← hfeed, ← he]
  exact runProc_spRead (.loadAlarms :: spWrite ++ [.finish .plain]) s

/-- Settles O45: the update concludes as its read or its verified write does, and the operation ends so. -/
theorem setAlarmsRuns : Obligations.SetAlarmsRuns := by
  refine ⟨by decide, fun s u es hu he => ?_⟩
  obtain ⟨X, hrun, hconcluded, hout, htrace, hreq, hctc⟩ := runProc_setAlarms hu he
  have hends := plain_operation_ends hrun hconcluded
  rw [hout, htrace, hreq, hctc] at hends
  exact hends

/-! ## GET_ALARMS (R164) -/

/-- The value registers GET_ALARMS leaves (R164). -/
theorem outAtEnd_alarms (k : Option FailKind) (X : State) : outAtEnd .alarms k.isNone X =
    { X.out with
      thOut := if k = none then X.out.sp[2] else 0x00
      tlOut := if k = none then X.out.sp[3] else 0x00 } := by
  cases k with
  | none => simp [outAtEnd, State.writeResults]
  | some k => simp [outAtEnd, State.writeSentinels]

/-- Settles O46: GET_ALARMS's end takes both thresholds from a valid read, and writes two zeros when there was none. -/
theorem getAlarmsRuns : Obligations.GetAlarmsRuns := by
  refine ⟨by decide, fun s r es hr he => ?_⟩
  obtain ⟨t, hstop, henv, hended, hkeeps, hout, hrest⟩ := scratchpadRead_ends (q := .alarms) rfl hr he
  rw [outAtEnd_alarms, r.after_out s hr] at hout
  exact ⟨t, congrArg Host.Outcome.next hstop, henv, hended, hkeeps, hout, hrest⟩

end Sys2Proof.Machine
end

section
/-! PROOFS. The power-mode detector (44_power.md): IS_EXT and IS_PARASITE in every run of the transport. Both are a power query
and an end that differs in the sample `BOOL` asks for, so one lemma about that sample (`powerOperation_ends`) serves both. -/

namespace Sys2Proof.Machine

/-! ## The end of an operation whose result is `BOOL` (R181, R182, R214) -/

/-- The end that sets `BOOL` when the slot was sampled `v`: IS_EXT asks for a 1, IS_PARASITE for a 0. -/
def ResultKind.ofSample (v : Bool) : ResultKind :=
  if v then .ext else .parasite

/-- Such an end writes `BOOL` and closes the operation, nothing else. -/
theorem finish_ofSample (v : Bool) (s : State) : s.finish (.ofSample v) =
    { s with status := { s.status with bool := s.tmp.ok && s.tmp.ext == v } }.endOp s.tmp.ok := by
  have hcount : ResultKind.ofSample v ≠ .count := by cases v <;> decide
  cases hok : s.tmp.ok with
  | true =>
    rw [finish_success s _ hok hcount]
    cases v <;> simp [ResultKind.ofSample, State.writeResults]
  | false =>
    rw [finish_failure s _ hok hcount]
    cases v <;> rfl

/-! ## A power query and its end (R180) -/

theorem PowerRun.after_same (r : PowerRun) (s : State) (h : r.legal = true) : Same s (r.after s) := by
  constructor <;> simp [h]

/-- A sample counts only with presence: `t_ext` of an earlier query never reaches `BOOL` (R183). -/
theorem PowerRun.after_sampled (r : PowerRun) (s : State) (v : Bool) (h : r.legal = true) :
    ((r.after s).tmp.ok && (r.after s).tmp.ext == v) = r.sampled v := by
  rw [r.after_ok s h]
  cases r with
  | absent p => rfl
  | present x => simp [PowerRun.after, PowerRun.kind, PowerRun.sampled, afterPower_tmp s x h]

/-- The state in which a power query whose result is `BOOL` ends, in every run. -/
theorem runProc_powerOperation (v : Bool) {s : State} {r : PowerRun} {es : List Event} (hr : r.legal = true)
    (he : s.env = r.events ++ es) :
    runProc (powerQuery ++ [.finish (.ofSample v)]) s =
      { { r.after s with status := { s.status with bool := r.sampled v } }.endOp r.kind.isNone with env := es } :=
  calc runProc (powerQuery ++ [.finish (.ofSample v)]) s
      = feed s.env (s.goto (powerQuery ++ [.finish (.ofSample v)])) := runProc_bus .reset rfl (by decide) _ s
    _ = feed es ((r.after s).finish (.ofSample v)) := by rw [he, feed_powerQuery r hr, advance_finish]
    _ = { { r.after s with status := { s.status with bool := r.sampled v } }.endOp r.kind.isNone with env := es } := by
      rw [feed_finish, finish_ofSample, r.after_sampled s v hr, r.after_ok s hr, r.after_status]

/-- A power query whose result is `BOOL`, in every run: `OK`, kind and trace are those of the query, whatever sample `BOOL`
asks for, and nothing else is written. -/
theorem powerOperation_ends (v : Bool) {s : State} {r : PowerRun} {es : List Event} (hr : r.legal = true)
    (he : s.env = r.events ++ es) :
    ∃ t, (Host.Outcome.next (runProc (powerQuery ++ [.finish (.ofSample v)]) s) : Host.Outcome State Fault Refusal) = .next t ∧
      t.env = es ∧ t.status = { s.status with busy := false, ok := r.kind.isNone, bool := r.sampled v } ∧
      t.seq = { op := s.seq.op, step := 0, todo := [] } ∧ t.failKind = r.kind ∧ KeepsRegisters s t ∧ t.out = s.out ∧
      t.trace = s.trace ++ r.trace s.latch.addr ∧ t.bus.req = false ∧ t.ctc = s.ctc := by
  have hsame := r.after_same s hr
  refine ⟨_, congrArg Host.Outcome.next (runProc_powerOperation v hr he), rfl, rfl, ?seq, ?failKind, hsame.keepsRegisters,
    r.after_out s hr, r.after_trace s hr, r.after_req s hr, r.after_ctc s⟩
  case seq => simp [hsame.op]
  case failKind =>
    cases hk : r.kind with
    | none => rfl
    | some k => simp [hk]

/-! ## IS_EXT and IS_PARASITE (R181, R182) -/

/-- Settles O47: IS_EXT is a power query whose end asks for a sampled 1, which an absent device never gives. -/
theorem isExtRuns : Obligations.IsExtRuns :=
  ⟨by decide, fun _ _ _ hr he => powerOperation_ends true hr he⟩

/-- Settles O48: IS_PARASITE is the same query, and its end asks for a sampled 0 of a device that was present. -/
theorem isParasiteRuns : Obligations.IsParasiteRuns :=
  ⟨by decide, fun _ _ _ hr he => powerOperation_ends false hr he⟩

end Sys2Proof.Machine
end

section
/-! PROOFS. ALARM_SEARCH (45_registry.md R197): its one search and its end, for every answer of the transport. -/

namespace Sys2Proof.Machine

/-! ## The search of ALARM_SEARCH and its outcome -/

/-- How the search of ALARM_SEARCH ends when the transport answers `a` (R197): none for a valid address found. -/
def alarmKind (f : CrcFunction) (a : Answer) : Option FailKind :=
  if a.rflag then (if romValid f (candidateOf a) then none else some .crc) else some .noDevice

/-- What that search leaves before the operation's end: `ADDR` and `t_ok` by its outcome, the candidate in `t_a`, one event. -/
def afterAlarmSearch (a : Answer) (s : State) : State :=
  { s with
    args := { s.args with
      addr := if a.rflag && romValid s.params.crc (candidateOf a) then candidateOf a else s.args.addr }
    tmp := { s.tmp with
      ok := (alarmKind s.params.crc a).isNone
      a := if a.rflag then candidateOf a else s.tmp.a }
    bus := { s.bus with req := false, op := 5, flag := true }
    seq := { s.seq with step := s.seq.step + 1 }
    trace := s.trace ++ [.search true (if a.rflag then some (candidateOf a) else none)]
    failKind := (alarmKind s.params.crc a).or s.failKind }

/-- The search with any answer: a valid address lets SEQ go on, no candidate or a corrupted one is a failure on its way to the
operation's end. -/
theorem feed_alarmSearch (a : Answer) (t : List Micro) (es : List Event) (s : State) :
    feed (.ack a :: es) (s.goto (.alarmSearch :: t)) =
      feed es (advance (Course.of (alarmKind s.params.crc a)) t (afterAlarmSearch a s)) := by
  rw [feed_ack_goto .alarmSearch rfl]
  cases hfound : a.rflag with
  | false =>
    have hstate : (primitive .alarmSearch a s).raise .noDevice = afterAlarmSearch a s := by
      simp only [primitive, effect, afterAlarmSearch, alarmKind, hfound]
      rfl
    simp [behind, alarmKind, hfound, advance_raise, hstate]
  | true =>
    cases hvalid : romValid s.params.crc (unpack64 a.raddr) with
    | false =>
      have hstate : (primitive .alarmSearch a s).raise .crc = afterAlarmSearch a s := by
        simp only [primitive, effect, lower_params, requestOf_params, afterAlarmSearch, alarmKind, candidateOf, hfound, hvalid]
        rfl
      simp [behind, alarmKind, candidateOf, hfound, hvalid, advance_raise, hstate]
    | true =>
      have hstate : primitive .alarmSearch a s = afterAlarmSearch a s := by
        simp only [primitive, effect, lower_params, requestOf_params, afterAlarmSearch, alarmKind, candidateOf, hfound, hvalid]
        rfl
      simp [behind, alarmKind, candidateOf, hfound, hvalid, hstate]

/-! ## ALARM_SEARCH (R197) -/

/-- ALARM_SEARCH stands at its search when the transport's answer comes. -/
theorem exec_alarmSearch (s : State) : exec .alarmSearch s = .next (feed s.env (s.goto alarmSearchProc)) :=
  congrArg Host.Outcome.next (runProc_bus .alarmSearch rfl (by decide) [.finish .plain] s)

/-- ALARM_SEARCH once the transport has answered: the search and the end of an operation without value registers. -/
theorem exec_alarmSearch_answered {s : State} {a : Answer} {es : List Event} (he : s.env = .ack a :: es) :
    exec .alarmSearch s = .next { (afterAlarmSearch a s).finish .plain with env := es } := by
  rw [exec_alarmSearch, he, alarmSearchProc, feed_alarmSearch, advance_finish, feed_finish]

/-- Settles O53: without an answer the search is requested and nothing else happens; with one the operation ends as the search
did, and its end writes no register. -/
theorem alarmSearchRuns : Obligations.AlarmSearchRuns := by
  refine ⟨?opcode, ?worked_example, fun s he => ?waiting, fun s a es he => ?answered⟩
  case opcode => decide
  case worked_example => decide +kernel
  case waiting =>
    rw [exec_alarmSearch, he, feed_nil]
    exact ⟨_, rfl, rfl, rfl, rfl, rfl, rfl, rfl⟩
  case answered =>
    obtain ⟨henv, hend, hout, hcmd, hpullupEn, hargs, hcount, hlatch, hhostRd, hparams, hreg, htrace, hbus, hctc⟩ :=
      plain_end (s := s) (X := afterAlarmSearch a s) (k := alarmKind s.params.crc a) (es := es) rfl rfl rfl rfl rfl
    have haddr := congrArg Operands.addr hargs
    exact ⟨_, exec_alarmSearch_answered he, henv, hend, haddr, hargs.trans (by rw [haddr]; rfl), htrace, hout, hcount, hreg,
      fun k => congrArg (Memory.read · k) hreg, hcmd, hpullupEn, hlatch, hhostRd, hparams, hctc,
      congrArg BusPort.req hbus⟩

end Sys2Proof.Machine
end

section
/-! PROOFS. The reset state (10_state.md R48) and a reset as a step (70_reset_and_hazards.md R240). -/

namespace Sys2Proof.Machine

/-- The machine right after reset stands at the values of R48's table. -/
theorem hasResetValues_reset : HasResetValues State.reset := by
  unfold HasResetValues
  decide

/-- R48 speaks of the state of the block alone: events to come and parameters put over a state do not matter to it. -/
theorem hasResetValues_outside (t : State) (es : List Event) (p : Params) :
    HasResetValues { t with env := es, params := p } ↔ HasResetValues t :=
  Iff.rfl

/-- A reset gives the values of R48 from every state, an operation in progress or not (R240). -/
theorem hasResetValues_resetBlock (s : State) : HasResetValues (resetBlock s) :=
  (hasResetValues_outside State.reset s.env s.params).mpr hasResetValues_reset

/-- Settles O13: the next step takes the reset in every state, and what it answers differs from the reset state only in the
events to come and the parameters. -/
theorem resetGivesTheListedValues : Obligations.ResetGivesTheListedValues := by
  refine ⟨hasResetValues_reset, fun s es hrst => ?rst⟩
  case rst =>
    exact ⟨resetBlock { s with env := es }, step_rst hrst, hasResetValues_resetBlock _, rfl, rfl⟩

end Sys2Proof.Machine
end

section
/-! PROOFS. The two decoders and the encoding (30_encoding.md R90, R92, R97, R98, R99). -/

namespace Sys2Proof.Machine

/-! ## From the instruction to its byte and back -/

/-- The round trip of Laws/PerInstr.lean, for all instructions at once. -/
theorem decodeAs_encode_iff (i : Instr) : Laws.RoundTrip.Statement i := by
  cases i with
  | crcClr => exact Laws.RoundTrip.crcClr
  | crcPush => exact Laws.RoundTrip.crcPush
  | readSp => exact Laws.RoundTrip.readSp
  | writeSp => exact Laws.RoundTrip.writeSp
  | copySp => exact Laws.RoundTrip.copySp
  | recallE2 => exact Laws.RoundTrip.recallE2
  | readTemp => exact Laws.RoundTrip.readTemp
  | readRaw => exact Laws.RoundTrip.readRaw
  | setRes => exact Laws.RoundTrip.setRes
  | getRes => exact Laws.RoundTrip.getRes
  | setAlarms => exact Laws.RoundTrip.setAlarms
  | getAlarms => exact Laws.RoundTrip.getAlarms
  | isExt => exact Laws.RoundTrip.isExt
  | isParasite => exact Laws.RoundTrip.isParasite
  | discover => exact Laws.RoundTrip.discover
  | getAddr => exact Laws.RoundTrip.getAddr
  | alarmSearch => exact Laws.RoundTrip.alarmSearch
  | pack64 => exact Laws.RoundTrip.pack64
  | convertT => exact Laws.RoundTrip.convertT
  | readScratchpad => exact Laws.RoundTrip.readScratchpad
  | writeScratchpad => exact Laws.RoundTrip.writeScratchpad
  | copyScratchpad => exact Laws.RoundTrip.copyScratchpad
  | recallEeprom => exact Laws.RoundTrip.recallEeprom
  | readPowerSupply => exact Laws.RoundTrip.readPowerSupply

theorem decodeHost_encode {i : Instr} (hi : i.format = .host8) : decodeHost (encode i) = .instr i :=
  (decodeAs_encode_iff i .host8).mpr (by simp [Instr.wellFormedAs, hi])

theorem decodeWire_encode {i : Instr} (hi : i.format = .wire8) : decodeWire (encode i) = .instr i :=
  (decodeAs_encode_iff i .wire8).mpr (by simp [Instr.wellFormedAs, hi])

/-- No byte of the wire table is a host opcode (R99). -/
theorem decodeHost_encode_wire {i : Instr} (hi : i.format = .wire8) :
    decodeHost (encode i) = .rejected (.illegalHostOpcode (encode i)) := by
  cases i <;> first | rfl | cases hi

/-- A word of the opcode table is looked up as a host opcode, then as a wire command (R98). -/
theorem decodeTableWord_encode (i : Instr) : decodeTableWord 8 (encode i).toNat = some i := by
  unfold decodeTableWord
  rw [if_pos ⟨rfl, (encode i).isLt⟩, BitVec.ofNat_toNat, BitVec.setWidth_eq]
  cases hf : i.format with
  | host8 => rw [decodeHost_encode hf]; rfl
  | wire8 => rw [decodeHost_encode_wire hf, decodeWire_encode hf]; rfl

/-- Settles O2: the round trip of each instruction, and the lookup of a table word. -/
theorem encodeThenDecode : Obligations.EncodeThenDecode :=
  fun f i hi => ⟨(decodeAs_encode_iff i f).mpr hi, decodeTableWord_encode i⟩

/-! ## From the byte to its instruction and back -/

/-- The row that a lookup found. -/
theorem lookupRow_eq_some {table : List OpcodeRow} {b : Byte} {i : Instr} (h : lookupRow table b = some i) :
    ∃ row ∈ table, b &&& row.mask = row.pattern ∧ row.instr = i := by
  induction table with
  | nil => cases h
  | cons row rows ih =>
    unfold lookupRow at h
    split at h
    · next hb => exact ⟨row, List.mem_cons_self, hb, Option.some.inj h⟩
    · obtain ⟨row', hrow', hb⟩ := ih h
      exact ⟨row', List.mem_cons_of_mem _ hrow', hb⟩

/-- Every row of a table of the format `f` has the whole byte of its instruction, which is of that format. -/
def TableOf (f : Format) (table : List OpcodeRow) : Prop :=
  ∀ row ∈ table, row.mask = 0xFF ∧ row.pattern = encode row.instr ∧ row.instr.wellFormedAs f = true

theorem hostTable_rows : TableOf .host8 hostTable := by unfold TableOf; decide

theorem wireTable_rows : TableOf .wire8 wireTable := by unfold TableOf; decide

theorem TableOf.encode_of_lookup {f : Format} {table : List OpcodeRow} (ht : TableOf f table) {b : Byte} {i : Instr}
    (h : lookupRow table b = some i) : i.wellFormedAs f = true ∧ encode i = b := by
  obtain ⟨row, hrow, hb, rfl⟩ := lookupRow_eq_some h
  obtain ⟨hmask, hpattern, hformat⟩ := ht row hrow
  have hall : b &&& (0xFF : Byte) = b := BitVec.and_allOnes
  rw [hmask, hall] at hb
  exact ⟨hformat, hpattern.symm.trans hb.symm⟩

theorem lookupRow_of_decodeHost {b : Byte} {i : Instr} (h : decodeHost b = .instr i) : lookupRow hostTable b = some i := by
  unfold decodeHost at h
  split at h
  · next hrow => rw [hrow, Decoded.instr.inj h]
  · cases h

theorem lookupRow_of_decodeWire {b : Byte} {i : Instr} (h : decodeWire b = .instr i) : lookupRow wireTable b = some i := by
  unfold decodeWire at h
  split at h
  · next hrow => rw [hrow, Decoded.instr.inj h]
  · cases h

/-- Settles O3: a decoder answers with a row of its table, and a row holds the byte of its instruction. -/
theorem decodeThenEncode : Obligations.DecodeThenEncode := by
  intro f b i h
  cases f with
  | host8 => exact hostTable_rows.encode_of_lookup (lookupRow_of_decodeHost h)
  | wire8 => exact wireTable_rows.encode_of_lookup (lookupRow_of_decodeWire h)

/-! ## The bytes of the tables, and the others -/

/-- Settles O1: the bytes written out are those of the encoding, and the three others are in no row of their table. -/
theorem tableBytesDecode : Obligations.TableBytesDecode := by
  unfold Obligations.TableBytesDecode
  decide

/-- The host decoder takes a byte outside the gaps of R99. -/
theorem illegal_of_decodeHost : ∀ b : Byte, decodeHost b = .rejected (.illegalHostOpcode b) →
    b = 0x00 ∨ (0x03 ≤ b ∧ b ≤ 0x0F) ∨ (0x14 ≤ b ∧ b ≤ 0x1F) ∨ (0x22 ≤ b ∧ b ≤ 0x2F) ∨ (0x34 ≤ b ∧ b ≤ 0x3F) ∨
      (0x42 ≤ b ∧ b ≤ 0x4F) ∨ 0x54 ≤ b := by decide

/-- Settles O4: each of the 256 bytes is in a row of the table or in a gap of the list, for both decoders. -/
theorem otherBytesRejected : Obligations.OtherBytesRejected := by
  refine ⟨fun b => ⟨illegal_of_decodeHost b, decodeHost_of_illegal b⟩, ?wire⟩
  case wire => decide

end Sys2Proof.Machine
end

section
/-! PROOFS. What a step is at each place SEQ can stand (10_state.md R31, R33, 30_encoding.md R93), whose turn it is (log
entries 1 and 18), and the start of an operation as one step (10_state.md R24, R33). -/

namespace Sys2Proof.Machine

/-! ## SEQ's turn -/

/-- At a wire command of a procedure the step runs it (R93). -/
theorem step_wire {s : State} {c : Byte} {i : Instr} {q : List Micro} (hb : s.status.busy = true)
    (hh : ∀ e, s.env.head? = some e → e.ofHost = false) (ht : s.seq.todo = .cmd c :: q)
    (hc : decodeWire c = .instr i) : step s = exec i s := by
  have hfetch : fetch s = some (.instr i) := by
    unfold fetch position
    rw [ht, ← hc]
  unfold step
  rw [nextTurn_seq s hb hh, hfetch]

/-- Inside a procedure, at no instruction, the step is SEQ's going on. -/
theorem step_inside {s : State} (hb : s.status.busy = true) (hh : ∀ e, s.env.head? = some e → e.ofHost = false)
    (hd : ∀ q, s.seq.todo ≠ .dispatch :: q) (hc : ∀ c q, s.seq.todo ≠ .cmd c :: q) : step s = .next (seqTurn s) := by
  have hfetch : fetch s = none := by
    unfold fetch position
    cases ht : s.seq.todo with
    | nil => rfl
    | cons m q =>
      cases m with
      | dispatch => exact absurd ht (hd q)
      | cmd c => exact absurd ht (hc c q)
      | _ => rfl
  unfold step
  rw [nextTurn_seq s hb hh, hfetch]

/-- SEQ's going on where a procedure is left. -/
theorem seqTurn_of_todo {s : State} {m : Micro} {q : List Micro} (ht : s.seq.todo = m :: q) : seqTurn s = resume s :=
  if_neg (by simp [ht])

/-- Settles O5: SEQ fetches the opcode in `SEQ.OP` at a start, the command byte at a wire command, and nothing elsewhere. -/
theorem stepRunsDecodedInstruction : Obligations.StepRunsDecodedInstruction := by
  intro s hb hh
  refine ⟨fun i q ht hi => step_dispatch hb hh ht hi, fun i c q ht hc => step_wire hb hh ht hc, fun m q ht hd hc => ?inside⟩
  case inside =>
    rw [← seqTurn_of_todo ht]
    apply step_inside hb hh <;> rw [ht] <;> simp_all

/-! ## The host's turn, and nobody's -/

/-- With no operation in progress an event of SEQ's side is lost. -/
theorem step_idle {s : State} {e : Event} {es : List Event} (he : s.env = e :: es) (ho : e.ofHost = false)
    (hb : s.status.busy = false) : step s = .next { s with env := es } := by
  have hturn : nextTurn s = .idle := by
    unfold nextTurn
    simp [he, ho, hb]
  unfold step
  rw [hturn]
  simp only [idleTurn, he, List.tail_cons]

/-- Settles O7: the turn is the host's exactly when its event is next, and nobody's while no operation is in progress. -/
theorem stepTakesEventsInOrder : Obligations.StepTakesEventsInOrder :=
  ⟨fun _ _ _ he ho => step_host he ho, fun _ _ _ he ho hb => step_idle he ho hb⟩

/-- Settles O8: the host's write reaches `CMD`, its value decodes, and the operation starts as R33 says. -/
theorem legalOpcodeStartsOperation : Obligations.LegalOpcodeStartsOperation :=
  fun _ _ _ _ he hb hv => step_starts he hb hv

/-! ## The instruction placed by `withFetchWord` (log entry 18) -/

/-- What the placement of an instruction gives: an operation in progress, SEQ's turn next, SEQ at the instruction. -/
structure PlacedAt (i : Instr) (s : State) : Prop where
  busy : s.status.busy = true
  turn : ∀ e, s.env.head? = some e → e.ofHost = false
  runs : step s = exec i s

/-- An operation started by its opcode, SEQ's turn next. -/
theorem placeByte_host {b : Byte} {i : Instr} (hi : decodeHost b = .instr i) (s : State) :
    placeByte s b =
      { ({ s with status := { s.status with busy := false }, cmd := b } : State).startOp b with env := .turn :: s.env } := by
  unfold placeByte
  rw [hi]
  dsimp only
  rw [hostWrite_cmd rfl, writeCmd_of_legal hi]

theorem placedAt_host {b : Byte} {i : Instr} (hi : decodeHost b = .instr i) (s : State) : PlacedAt i (placeByte s b) := by
  have hturn : ∀ e, (placeByte s b).env.head? = some e → e.ofHost = false := by
    rw [placeByte_host hi]
    rintro e ⟨⟩
    rfl
  have hbusy : (placeByte s b).status.busy = true := by rw [placeByte_host hi]; rfl
  refine ⟨hbusy, hturn, step_dispatch (q := []) hbusy hturn ?_ ?_⟩
  · rw [placeByte_host hi]; rfl
  · rw [placeByte_host hi]; exact hi

/-- The operation that issues a wire command has it in its procedure. -/
theorem issuer_issues {i : Instr} (hi : i.format = .wire8) : (issuer i).1.format = .host8 ∧
    ∃ q, fromCommand (encode i) (issuer i).2 = .cmd (encode i) :: q := by
  cases i <;> first | exact ⟨rfl, _, rfl⟩ | cases hi

theorem placedAt_wire {i : Instr} (hi : i.format = .wire8) (s : State) : PlacedAt i (placeByte s (encode i)) := by
  have hw := decodeWire_encode hi
  obtain ⟨hissuer, q, hq⟩ := issuer_issues hi
  have hplace : placeByte s (encode i) =
      { ({ s with status := { s.status with busy := false }, cmd := encode (issuer i).1 } : State).startOp
          (encode (issuer i).1) |>.goto (.cmd (encode i) :: q) with env := .turn :: s.env } := by
    unfold placeByte
    rw [decodeHost_encode_wire hi, hw]
    dsimp only
    rw [hostWrite_cmd rfl, writeCmd_of_legal (decodeHost_encode hissuer), hq]
  have hturn : ∀ e, (placeByte s (encode i)).env.head? = some e → e.ofHost = false := by
    rw [hplace]
    rintro e ⟨⟩
    rfl
  have hbusy : (placeByte s (encode i)).status.busy = true := by rw [hplace]; rfl
  exact ⟨hbusy, hturn, step_wire hbusy hturn (by rw [hplace]; rfl) hw⟩

/-- A word of the opcode table is the byte of its instruction (R98). -/
theorem withFetchWord_encode (s : State) (i : Instr) :
    s.withFetchWord 8 (encode i).toNat = placeByte s (encode i) := by
  unfold State.withFetchWord
  rw [if_pos ⟨rfl, (encode i).isLt⟩, BitVec.ofNat_toNat, BitVec.setWidth_eq]

/-- Settles O6: a host opcode is placed by starting its operation, a wire command by standing at it in an operation that
issues it. -/
theorem placedInstructionRunsNext : Obligations.PlacedInstructionRunsNext := by
  intro s i
  rw [withFetchWord_encode]
  cases hf : i.format with
  | host8 =>
    have hi := decodeHost_encode hf
    have hplaced := placedAt_host hi s
    exact ⟨hplaced.runs, hplaced.busy, fun _ => by rw [placeByte_host hi]; rfl⟩
  | wire8 =>
    have hplaced := placedAt_wire hf s
    exact ⟨hplaced.runs, hplaced.busy, fun h => by cases h⟩

end Sys2Proof.Machine
end

section
/-! PROOFS. The invariant and the pull-up window under a step (10_state.md R31 to R48, 70_reset_and_hazards.md R252), what they
say of the pin, and the parameters (00_scope.md R6). -/

namespace Sys2Proof.Machine

/-! ## A step from a state of the invariant -/

/-- A position of an operation in progress is its start, a wire command, or neither (R31). -/
theorem position_cases {b : Prop} {s : State} (h : Good b s) (hb : s.status.busy = true) :
    (s.seq.todo = [.dispatch] ∧ ∃ i, decodeHost s.seq.op = .instr i) ∨
    (∃ c q i, s.seq.todo = .cmd c :: q ∧ decodeWire c = .instr i) ∨
    ∃ m q, s.seq.todo = m :: q ∧ m ≠ .dispatch ∧ ∀ c, m ≠ .cmd c := by
  have instr_of_isSome : ∀ d : Decoded, d.toOption.isSome = true → ∃ i, d = .instr i := by
    rintro (i | why) hd
    · exact ⟨i, rfl⟩
    · cases hd
  have hpos := h.1.position hb
  cases ht : s.seq.todo with
  | nil => rw [ht] at hpos; cases hpos
  | cons m q =>
    by_cases hd : m = .dispatch
    · subst hd
      cases q with
      | nil => rw [ht] at hpos; exact .inl ⟨rfl, instr_of_isSome _ hpos⟩
      | cons m' q => rw [ht] at hpos; cases hpos
    · by_cases hc : ∃ c, m = .cmd c
      · obtain ⟨c, rfl⟩ := hc
        obtain ⟨i, hi⟩ := instr_of_isSome _ (good_head h hb _ q ht hd).2
        exact .inr (.inl ⟨c, q, i, rfl, hi⟩)
      · exact .inr (.inr ⟨m, q, rfl, hd, fun c hm => hc ⟨c, hm⟩⟩)

theorem good_hostTurn {b : Prop} {s : State} (h : Good b s) (e : Event) : Good b (hostTurn s e) := by
  cases e with
  | hostWrite r v => exact good_hostWrite h r v
  | hostRead r =>
    obtain ⟨⟨a1, a2, a3, a4, a5, a6, a7, a8, a9, a10, a11, a12⟩, htrace⟩ := h
    exact ⟨⟨a1, a2, a3, a4, a5, a6, a7, a8, a9, a10, a11, a12⟩, htrace⟩
  | rst => exact reset_good b s
  | ack a => exact h
  | tick => exact h
  | turn => exact h

/-- SEQ's turn. -/
theorem good_step_seq {b : Prop} {s : State} (h : Good b s) (hb : s.status.busy = true)
    (hh : ∀ e, s.env.head? = some e → e.ofHost = false) : ∃ t, step s = .next t ∧ Good b t := by
  rcases position_cases h hb with ⟨ht, i, hi⟩ | ⟨c, q, i, ht, hi⟩ | ⟨m, q, ht, hd, hc⟩
  · rw [step_dispatch hb hh ht hi]
    exact exec_host_good (ready_of_good h hb _ _ ht (by simp) rfl) i (host_format _ i hi)
  · rw [step_wire hb hh ht hi, exec_wire c i hi]
    exact ⟨_, rfl, good_runWire h hb c q ht i hi⟩
  · refine ⟨_, step_inside hb hh ?_ ?_, good_seqTurn h hb m q ht hd⟩ <;> rw [ht] <;> simp_all

/-- Whoever's turn it is, a step answers a next state and keeps the consistency of the state and the bracketing of the trace. -/
theorem good_step {b : Prop} {s : State} (h : Good b s) : ∃ t, step s = .next t ∧ Good b t := by
  cases hb : s.status.busy with
  | true =>
    by_cases hh : ∃ e es, s.env = e :: es ∧ e.ofHost = true
    · obtain ⟨e, es, he, ho⟩ := hh
      exact ⟨_, step_host he ho, good_hostTurn (good_env h es) e⟩
    · refine good_step_seq h hb fun e he => ?_
      obtain ⟨es, hes⟩ := List.head?_eq_some_iff.mp he
      exact Bool.eq_false_iff.mpr fun ho => hh ⟨e, es, hes, ho⟩
  | false =>
    cases he : s.env with
    | nil => exact ⟨idleTurn s, by simp [step, nextTurn, he, hb], good_env h _⟩
    | cons e es =>
      cases ho : e.ofHost with
      | true => exact ⟨_, step_host he ho, good_hostTurn (good_env h es) e⟩
      | false => exact ⟨_, step_idle he ho hb, good_env h es⟩

/-- Settles O15: consistency is kept by `good_step`, which never faults, and SEQ stays in the procedure of `SEQ.OP`. -/
theorem stepKeepsInvariant : Obligations.StepKeepsInvariant := by
  intro s h
  obtain ⟨t, hstep, hgood⟩ := good_step h.good
  exact ⟨t, hstep, hgood.1, step_procedure s t h.procedure hstep⟩

/-- Settles O16: `good_step` with the agreement of the trace and the pin asked for. -/
theorem stepKeepsPullupBracketed : Obligations.StepKeepsPullupBracketed := by
  intro s t h htrace hstep
  obtain ⟨t', hstep', hgood⟩ := good_step (b := True) ⟨h.toConsistent, fun _ => htrace⟩
  rw [hstep] at hstep'
  cases hstep'
  exact hgood.2 trivial

/-- Settles O14: the reset state is a reset of itself but for its events and parameters, and no operation is in progress. -/
theorem resetMeetsInvariant : Obligations.ResetMeetsInvariant := by
  obtain ⟨hconsistent, htrace⟩ := reset_good True State.reset
  exact ⟨⟨hconsistent, fun hbusy => by cases hbusy⟩, htrace trivial⟩

/-! ## While the pin is 1 -/

/-- A bracketed trace that ends with the window open ends with `PULLUP(1)`, and what stands before is bracketed. -/
theorem opened_ends_with_pullup {tr : List TraceEvent} (h : windowOf .closed tr = some .opened) :
    ∃ pre, tr = pre ++ [.pullup true] ∧ windowOf .closed pre = some .closed := by
  rcases List.eq_nil_or_concat tr with rfl | ⟨pre, e, rfl⟩
  · cases h
  · rw [List.concat_eq_append, windowOf_append] at h
    cases hpre : windowOf .closed pre with
    | none => rw [hpre] at h; cases h
    | some w =>
      have hnext : w.next e = some .opened := by
        rw [hpre] at h
        cases hw : w.next e <;> simp_all [windowOf]
      cases w with
      | closed =>
        cases e with
        | pullup v =>
          cases v with
          | true => exact ⟨pre, List.concat_eq_append .., hpre⟩
          | false => cases hnext
        | _ => cases hnext
      | opened =>
        cases e with
        | wait n => simp only [Window.next] at hnext; split at hnext <;> cases hnext
        | _ => cases hnext
      | waited =>
        cases e with
        | pullup v => cases v <;> cases hnext
        | _ => cases hnext

theorem isWaitLength_iff (n : Nat) : isWaitLength n = true ↔ n = 94 ∨ n = 188 ∨ n = 375 ∨ n = 750 ∨ n = 10 := by
  simp [isWaitLength, or_assoc]

/-- Settles O17: the pin is 1 only with the counter running and the assist driven, and a running counter means a wait. -/
theorem pinIsHighOnlyInsideAWait : Obligations.PinIsHighOnlyInsideAWait := by
  intro s h htrace hpin
  have hpin : s.status.pullup = true := hpin
  obtain ⟨hrun, hext, hen⟩ : s.ctc.run = true ∧ s.tmp.ext = false ∧ s.latch.pullupEn = true := by
    have := h.pin
    rw [hpin] at this
    simpa [assistDrives] using this.symm
  obtain ⟨n, q, ht⟩ := run_waiting h.toConsistent hrun
  have hbusy : s.status.busy = true := busy_of_todo h.toConsistent (by simp [ht])
  have hreq : s.bus.req = false := by
    refine Bool.eq_false_iff.mpr fun hreq => ?_
    have := h.requested hreq
    simp [atPrimitive, ht, Micro.isBus] at this
  have hlength := (good_head h.good hbusy _ q ht (by simp)).2
  have hopened : windowOf .closed s.trace = some .opened := by
    have : TraceMatchesPin s := htrace
    rwa [TraceMatchesPin, hpin] at this
  exact ⟨hbusy, hreq, hrun, hen, hext, ⟨n, q, ht, (isWaitLength_iff n).mp hlength⟩, opened_ends_with_pullup hopened⟩

/-! ## The parameters -/

/-- No move of a procedure writes the parameters. -/
theorem kept_params (p : Params) : Kept (fun _ => True) (fun s => s.params = p) := by
  constructor
  case openAssist => intro s w _ h; unfold openAssist; dsimp only; split <;> exact h
  case closeAssist => intro s n _ h; unfold closeAssist; dsimp only; split <;> exact h
  case finish => intro s r _ h; cases r <;> simp only [State.finish] <;> split <;> exact h
  case request => intro m s _ h; rw [requestOf_params, h]
  case effect =>
    intro m a s _ _ h
    cases m <;> simp only [effect] <;> repeat' split
    all_goals exact h
  case tmp | failKind | goto | env | tick => intros; assumption
  all_goals intros; trivial

theorem exec_params {i : Instr} {s t : State} (h : exec i s = .next t) : t.params = s.params :=
  kept_exec (kept_params s.params) i s t rfl (fun _ _ h => h) (fun _ _ h => h) (fun _ _ h => h) (fun _ _ h => h) h

theorem hostTurn_params (s : State) (e : Event) : (hostTurn s e).params = s.params := by
  cases e with
  | hostWrite r v =>
    show (hostWrite s r v).params = s.params
    unfold hostWrite
    split
    · rfl
    · split
      · unfold State.writeCmd
        split <;> rfl
      · obtain ⟨a, x, hw⟩ := writeReg_form s r v
        rw [hw]
  | _ => rfl

/-- Settles O18: neither the host's turn nor a move of SEQ writes the parameters. -/
theorem stepKeepsParameters : Obligations.StepKeepsParameters := by
  intro s t h
  rcases step_cases s t h with ⟨e, es, _, _, rfl⟩ | ⟨_, rfl⟩ | ⟨_, _, hseq⟩
  · exact hostTurn_params _ e
  · rfl
  · rcases hseq with ⟨i, _, _, _, h⟩ | ⟨c, i, _, _, hc, rfl⟩ | ⟨_, _, rfl⟩
    · exact exec_params h
    · exact exec_params (exec_wire c i hc s)
    · unfold seqTurn
      split
      · rfl
      · exact ((kept_params s.params).resume s (by simp) rfl).1

end Sys2Proof.Machine
end

section
/-! PROOFS. The host's register map (10_state.md R21 to R26, R34): what every number reads, and what a write of a register other
than `CMD` does to what the others read. -/

namespace Sys2Proof.Machine

/-! ## What a register reads -/

/-- The reserved numbers read 0x00 (R23). -/
theorem readReg_reserved (s : State) {q : Byte} (hq : q = 0x0F ∨ q = 0x21 ∨ 0x30 ≤ q) : readReg s q = 0x00 := by
  have hn : q.toNat = 0x0F ∨ q.toNat = 0x21 ∨ 0x30 ≤ q.toNat := by
    rcases hq with rfl | rfl | hq
    · exact .inl rfl
    · exact .inr (.inl rfl)
    · exact .inr (.inr hq)
  unfold readReg
  simp (disch := omega) only [if_neg, dif_neg]

/-- `STATUS` holds the five flags in bits 0 to 4 (R25). -/
theorem statusByte_toNat (f : Status) : (statusByte f).toNat =
    f.busy.toNat + 2 * f.ok.toNat + 4 * f.bool.toNat + 8 * f.ill.toNat + 16 * f.pullup.toNat := by
  obtain ⟨busy, ok, bool, ill, pullup⟩ := f
  revert busy ok bool ill pullup
  decide

/-- `CTRL` holds PULLUP_EN in bit 0 (R26). -/
theorem ctrlByte_toNat (p : Bool) : (ctrlByte p).toNat = p.toNat := by
  cases p <;> rfl

theorem readReg_addr (s : State) (i : Fin 8) : readReg s (BitVec.ofNat 8 (0x10 + i)) = s.args.addr[i] := by
  fin_cases i <;> rfl

theorem readReg_sp (s : State) (i : Fin 9) : readReg s (BitVec.ofNat 8 (0x18 + i)) = s.out.sp[i] := by
  fin_cases i <;> rfl

/-- `RAW` from its two bytes, least significant first. -/
theorem readReg_raw (s : State) : readReg s 0x23 ++ readReg s 0x22 = s.out.raw := by
  show s.out.raw.extractLsb' 8 8 ++ s.out.raw.extractLsb' 0 8 = s.out.raw
  rw [BitVec.extractLsb'_append_extractLsb'_eq_extractLsb' (start₁ := 0) (len₁ := 8) rfl]
  exact BitVec.extractLsb'_eq_self

/-- `TEMP_F32` from its four bytes. -/
theorem readReg_tempF32 (s : State) :
    readReg s 0x27 ++ readReg s 0x26 ++ readReg s 0x25 ++ readReg s 0x24 = s.out.tempF32 := by
  show s.out.tempF32.extractLsb' 24 8 ++ s.out.tempF32.extractLsb' 16 8 ++ s.out.tempF32.extractLsb' 8 8 ++
    s.out.tempF32.extractLsb' 0 8 = s.out.tempF32
  iterate 3 rw [BitVec.extractLsb'_append_extractLsb'_eq_extractLsb']
  · exact BitVec.extractLsb'_eq_self
  all_goals rfl

/-- `A64` from its eight bytes. -/
theorem readReg_a64_whole (s : State) :
    readReg s 0x2F ++ readReg s 0x2E ++ readReg s 0x2D ++ readReg s 0x2C ++ readReg s 0x2B ++ readReg s 0x2A ++
      readReg s 0x29 ++ readReg s 0x28 = s.out.a64 := by
  show s.out.a64.extractLsb' 56 8 ++ s.out.a64.extractLsb' 48 8 ++ s.out.a64.extractLsb' 40 8 ++
    s.out.a64.extractLsb' 32 8 ++ s.out.a64.extractLsb' 24 8 ++ s.out.a64.extractLsb' 16 8 ++
    s.out.a64.extractLsb' 8 8 ++ s.out.a64.extractLsb' 0 8 = s.out.a64
  iterate 7 rw [BitVec.extractLsb'_append_extractLsb'_eq_extractLsb']
  · exact BitVec.extractLsb'_eq_self
  all_goals rfl

/-- Settles O12: each number of the map reads its register by the definition of `readReg`; the flags, the registers of several
bytes and the reserved numbers have their lemmas above. -/
theorem registerMapReads : Obligations.RegisterMapReads := by
  intro s
  have hbytes : readReg s 0x00 = s.cmd ∧ readReg s 0x03 = s.count ∧ readReg s 0x04 = s.args.th ∧
      readReg s 0x05 = s.args.tl ∧ readReg s 0x06 = s.args.cfg ∧ readReg s 0x07 = s.args.res ∧
      readReg s 0x08 = s.args.flags ∧ readReg s 0x09 = s.args.idx ∧ readReg s 0x0A = s.args.byte ∧
      readReg s 0x0B = s.out.crcAcc ∧ readReg s 0x0C = s.out.res ∧ readReg s 0x0D = s.out.thOut ∧
      readReg s 0x0E = s.out.tlOut := by
    iterate 12 refine ⟨rfl, ?_⟩
    rfl
  have hflags := statusByte_toNat s.status
  have hctrl := ctrlByte_toNat s.pullupEn
  exact ⟨hbytes, ⟨hflags, hctrl, rfl, rfl⟩, readReg_addr s, readReg_sp s, readReg_raw s, readReg_tempF32 s,
    readReg_a64_whole s, fun _ hq => readReg_reserved s hq, fun _ _ he => step_hostRead he⟩

/-! ## What a write does to it -/

/-- The registers the host may write whole, by their numbers (R21, R23). -/
theorem plainRegister_iff : ∀ r : Byte, plainRegister r = true ↔
    (0x04 ≤ r.toNat ∧ r.toNat ≤ 0x0A) ∨ (0x10 ≤ r.toNat ∧ r.toNat < 0x18) := by decide

/-- Bit 0 alone is kept by `CTRL` (R26). -/
theorem ctrlByte_bit0 : ∀ v : Byte, ctrlByte (v.getLsbD 0) = v &&& 0x01 := by decide

theorem readReg_of_addr (s : State) {q : Byte} (h : 0x10 ≤ q.toNat ∧ q.toNat < 0x18) :
    readReg s q = s.args.addr[q.toNat - 0x10] := by
  unfold readReg
  simp (disch := omega) only [if_neg, dif_pos h]

/-- Every other number reads as before. -/
theorem readReg_writeReg_other (s : State) {q r : Byte} (v : Byte) (hq : q ≠ r) :
    readReg (writeReg s r v) q = readReg s q := by
  have hn : q.toNat ≠ r.toNat := fun h => hq (BitVec.eq_of_toNat_eq h)
  rcases writeReg_cases s r v with ⟨hr, hw⟩ | ⟨hr, hw⟩ | ⟨hr, hw⟩ | ⟨hr, hw⟩ | ⟨hr, hw⟩ | ⟨hr, hw⟩ | ⟨hr, hw⟩ | ⟨hr, hw⟩ |
    ⟨hr, hw⟩ | ⟨hr, hw⟩
  case inr.inr.inr.inr.inr.inr.inr.inr.inl =>
    rw [hw]
    by_cases ha : 0x10 ≤ q.toNat ∧ q.toNat < 0x18
    · rw [readReg_of_addr _ ha, readReg_of_addr _ ha]
      exact Vector.getElem_set_ne (by omega) (by omega) (by omega)
    · simp only [readReg, ha, dif_neg, not_false_eq_true]
  case inr.inr.inr.inr.inr.inr.inr.inr.inr => rw [hw]
  all_goals
    rw [hr] at hn
    simp only [hw, readReg, hn, if_false]

/-- The number written reads the value written, its bit 0 for `CTRL`, or what it read before. -/
theorem readReg_writeReg_same (s : State) (r v : Byte) : readReg (writeReg s r v) r =
    if plainRegister r then v else if r = 0x02 then v &&& 0x01 else readReg s r := by
  rcases writeReg_cases s r v with ⟨hr, hw⟩ | ⟨hr, hw⟩ | ⟨hr, hw⟩ | ⟨hr, hw⟩ | ⟨hr, hw⟩ | ⟨hr, hw⟩ | ⟨hr, hw⟩ | ⟨hr, hw⟩ |
    ⟨hr, hw⟩ | ⟨hr, hw⟩
  case inl =>
    obtain rfl : r = 0x02 := BitVec.eq_of_toNat_eq hr
    rw [hw]
    exact ctrlByte_bit0 v
  case inr.inr.inr.inr.inr.inr.inr.inr.inl =>
    rw [if_pos ((plainRegister_iff r).mpr (.inr hr)), hw, readReg_of_addr _ hr]
    exact Vector.getElem_set_self _
  case inr.inr.inr.inr.inr.inr.inr.inr.inr =>
    have hplain : ¬ plainRegister r = true := by rw [plainRegister_iff]; omega
    have hctrl : r ≠ 0x02 := by rintro rfl; exact hr.1 rfl
    rw [if_neg hplain, if_neg hctrl, hw]
  all_goals
    rw [if_pos ((plainRegister_iff r).mpr (by omega))]
    simp [hw, readReg, hr]

/-- A number that is neither an operand register nor `CTRL` ignores a write (R22, R23). -/
theorem writeReg_ignored (s : State) {r : Byte} (v : Byte) (hplain : plainRegister r = false) (hctrl : r ≠ 0x02) :
    writeReg s r v = s := by
  have hn : ¬ ((0x04 ≤ r.toNat ∧ r.toNat ≤ 0x0A) ∨ (0x10 ≤ r.toNat ∧ r.toNat < 0x18)) := by
    rw [← plainRegister_iff, hplain]; decide
  have h2 : r.toNat ≠ 2 := fun h => hctrl (BitVec.eq_of_toNat_eq h)
  unfold writeReg
  simp (disch := omega) only [if_neg, dif_neg]

/-- Settles O11: the write reaches `writeReg`, whose effect on every number is said above. -/
theorem hostWriteThenRead : Obligations.HostWriteThenRead := by
  intro s r v es he hb hr
  have hwrite : hostWrite { s with env := es } r v = writeReg { s with env := es } r v := by
    unfold hostWrite
    rw [if_neg (Bool.eq_false_iff.mp hb), if_neg hr]
  have hform : writeReg { s with env := es } r v =
      { s with
        env := es
        args := (writeReg { s with env := es } r v).args
        pullupEn := (writeReg { s with env := es } r v).pullupEn } := by
    obtain ⟨a, p, hw⟩ := writeReg_form { s with env := es } r v
    rw [hw]
  refine ⟨_, (step_hostWrite he).trans (congrArg _ hwrite), ?env, readReg_writeReg_same _ r v,
    fun q hq => readReg_writeReg_other _ v hq, fun hplain hctrl => writeReg_ignored _ v hplain hctrl, hform,
    fun q hq => readReg_reserved _ hq⟩
  case env => rw [hform]

end Sys2Proof.Machine
end

section
/-! PROOFS. What an operation may write (10_state.md R22) and which operations drive the pin (42_conversion.md R154): each is a
property that every move of the operation's procedure keeps, so it holds of its exec and of every later step of it. -/

namespace Sys2Proof.Machine

/-! ## From the moves of a procedure to the operation -/

/-- DISCOVER starts from `COUNT = 0` (R191), every other operation from the state as it is. -/
def State.opened (s : State) (i : Instr) : State :=
  if i = .discover then { s with count := 0 } else s

/-- A host operation is its procedure, but for the four that need no move of SEQ. -/
theorem exec_of_procedure {i : Instr} {s : State} (hp : procedureOf i s.latch ≠ []) :
    exec i s = .next (runProc (procedureOf i s.latch) (s.opened i)) := by
  cases i <;> first | rfl | exact absurd rfl hp

/-- SET_RES rejects its argument, or is one of two procedures (R162). -/
theorem setResProc_cases (l : Latches) :
    setResProc l = [.fail .badArg, .finish .plain] ∨
    (l.persist = false ∧ setResProc l = spRead ++ [.loadRes] ++ spWrite ++ [] ++ [.finish .plain]) ∨
    (l.persist = true ∧ setResProc l = spRead ++ [.loadRes] ++ spWrite ++ spCopy ++ [.finish .plain]) := by
  unfold setResProc
  cases l.persist <;> cases resValid l.res <;> simp

/-- What the four operations without a procedure do (R115, R116, R195, R198). -/
theorem exec_without_procedure {i : Instr} {s t : State} (hi : i.format = .host8) (hp : procedureOf i s.latch = [])
    (h : exec i s = .next t) :
    ((i = .crcClr ∨ i = .crcPush) ∧ ∃ b, t = { s with out := { s.out with crcAcc := b } }.endOp true) ∨
    (i = .pack64 ∧ ∃ x, t = { s with out := { s.out with a64 := x } }.endOp true) ∨
    (i = .getAddr ∧ ∃ a, t = { s with args := { s.args with addr := a } }.endOp true) ∨
    (i = .getAddr ∧ t = (s.raise .range).endOp false) := by
  cases i with
  | crcClr => cases h; exact .inl ⟨.inl rfl, _, rfl⟩
  | crcPush => cases h; exact .inl ⟨.inr rfl, _, rfl⟩
  | pack64 => cases h; exact .inr (.inl ⟨rfl, _, rfl⟩)
  | getAddr =>
    simp only [exec, execGetAddr] at h
    split at h
    · split at h
      · cases h; exact .inr (.inr (.inl ⟨rfl, _, rfl⟩))
      · cases h
    · cases h; exact .inr (.inr (.inr ⟨rfl, rfl⟩))
  | setRes =>
    rcases setResProc_cases s.latch with hc | ⟨_, hc⟩ | ⟨_, hc⟩ <;> exact absurd (hc.symm.trans hp) (by decide)
  | convertT | readScratchpad | writeScratchpad | copyScratchpad | recallEeprom | readPowerSupply => cases hi
  | _ => cases hp

/-- What every move of its procedure keeps, an operation keeps from its start. -/
theorem exec_keeps {Q : Micro → Prop} {P : State → Prop} (k : Kept Q P) (hunfold : ∀ m, (∀ x ∈ m.unfold, Q x) → Q m)
    {i : Instr} {s t : State} (hp : procedureOf i s.latch ≠ []) (hq : ∀ x ∈ unfolded (procedureOf i s.latch), Q x)
    (hs : P (s.opened i)) (h : exec i s = .next t) : P t := by
  rw [exec_of_procedure hp] at h
  cases h
  exact (k.runProc _ _ (rest_moves Q hunfold _ _ (List.suffix_refl _) hq) hs).1

/-- What every move of its procedure keeps, every later step of an operation keeps, whatever its exec (`hexec`) does. -/
theorem seqStep_keeps {Q : Micro → Prop} {P : State → Prop} (k : Kept Q P) (hend : ∀ s b, P s → P (s.endOp b))
    (hunfold : ∀ m, (∀ x ∈ m.unfold, Q x) → Q m) {i : Instr} {s t : State} (hin : InProcedure s)
    (hb : s.status.busy = true) (hi : decodeHost s.seq.op = .instr i) (hq : ∀ x ∈ unfolded (procedureOf i s.latch), Q x)
    (hexec : exec i s = .next t → P t) (hs : P s) (h : SeqStep s t) : P t := by
  obtain ⟨j, hj, hrest⟩ := hin hb
  rw [hi] at hj
  cases hj
  rcases h with ⟨j, q, ht, hj, h⟩ | ⟨c, j, q, ht, hj, rfl⟩ | ⟨hd, hc, rfl⟩
  · rw [hi] at hj
    cases hj
    exact hexec h
  · rcases hrest with hstart | hrest
    · rw [hstart] at ht; cases ht
    · have hmoves := rest_moves Q hunfold _ _ hrest hq
      refine k.runWire j s ?_ hmoves hs
      rw [(wire_decode c j hj).1]
      exact hmoves _ (by rw [ht]; exact List.mem_cons_self)
  · rcases hrest with hstart | hrest
    · exact absurd hstart (hd _)
    · unfold seqTurn
      split
      · exact hend _ _ hs
      · exact (k.resume s (rest_moves Q hunfold _ _ hrest hq) hs).1

/-! ## The table of the result registers (R22) -/

/-- The operations at whose end the value registers `r` are written. -/
def writesAtEnd (i : Instr) (r : ResultKind) : Bool :=
  match r with
  | .plain | .count => true
  | .temp => i == .readTemp
  | .raw => i == .readTemp || i == .readRaw
  | .res => i == .getRes
  | .alarms => i == .getAlarms
  | .ext | .parasite => i == .isExt || i == .isParasite

/-- The moves that write no register but those the table gives to `i`. -/
def tableAllows (i : Instr) (m : Micro) : Bool :=
  match m with
  | .discover => i == .discover
  | .alarmSearch => i == .alarmSearch
  | .read _ => readsScratchpad i
  | .cmd b => b != 0xBE || readsScratchpad i
  | .finish r => writesAtEnd i r
  | _ => true

theorem WrittenByTable.refl (i : Instr) (s : State) : WrittenByTable i s s := by
  simp [WrittenByTable]

/-- The end of an operation writes the value registers `r`, and those the table must give to `i`. -/
theorem WrittenByTable.finish {i : Instr} {s₀ s : State} {r : ResultKind} (hr : writesAtEnd i r = true)
    (h : WrittenByTable i s₀ s) : WrittenByTable i s₀ (s.finish r) := by
  obtain ⟨hreg, hcrc, ha64, htemp, hres, halarms, hsp, hbool, haddr, hrest⟩ := h
  cases r with
  | plain | count =>
    simp only [State.finish]
    split <;> exact ⟨hreg, hcrc, ha64, htemp, hres, halarms, hsp, hbool, haddr, hrest⟩
  | temp =>
    have hi : i = .readTemp := by simpa [writesAtEnd] using hr
    simp only [State.finish]
    split <;> exact ⟨hreg, hcrc, ha64, fun hne => absurd hi hne, hres, halarms, hsp, hbool, haddr, hrest⟩
  | raw =>
    have hi : i = .readTemp ∨ i = .readRaw := by simpa [writesAtEnd] using hr
    have hraw : ∀ {P : Prop}, i ≠ .readTemp → i ≠ .readRaw → P := fun h1 h2 => (hi.elim h1 h2).elim
    simp only [State.finish]
    split <;> exact ⟨hreg, hcrc, ha64, fun h1 => ⟨(htemp h1).1, hraw h1⟩, hres, halarms, hsp, hbool, haddr, hrest⟩
  | res =>
    have hi : i = .getRes := by simpa [writesAtEnd] using hr
    simp only [State.finish]
    split <;> exact ⟨hreg, hcrc, ha64, htemp, fun hne => absurd hi hne, halarms, hsp, hbool, haddr, hrest⟩
  | alarms =>
    have hi : i = .getAlarms := by simpa [writesAtEnd] using hr
    simp only [State.finish]
    split <;> exact ⟨hreg, hcrc, ha64, htemp, hres, fun hne => absurd hi hne, hsp, hbool, haddr, hrest⟩
  | ext | parasite =>
    have hi : i = .isExt ∨ i = .isParasite := by simpa [writesAtEnd] using hr
    simp only [State.finish]
    split <;> exact ⟨hreg, hcrc, ha64, htemp, hres, halarms, hsp, fun h1 h2 => (hi.elim h1 h2).elim, haddr, hrest⟩

/-- A completed primitive that the table allows. -/
theorem WrittenByTable.effect {i : Instr} {s₀ s : State} {m : Micro} (hm : tableAllows i m = true) (a : Answer)
    (h : WrittenByTable i s₀ s) : WrittenByTable i s₀ (effect m a (lower s)) := by
  obtain ⟨hreg, hcrc, ha64, htemp, hres, halarms, hsp, hbool, haddr, hargs, hrest⟩ := h
  cases m with
  | read j =>
    have hi : readsScratchpad i = true := hm
    exact ⟨hreg, hcrc, ha64, htemp, hres, halarms, fun hno => absurd hno (by simp [hi]), hbool, haddr, hargs, hrest⟩
  | discover =>
    have hi : i = .discover := by simpa [tableAllows] using hm
    simp only [Sys2Proof.Machine.effect]
    repeat' split
    all_goals exact ⟨fun hne => absurd hi hne, hcrc, ha64, htemp, hres, halarms, hsp, hbool, haddr, hargs, hrest⟩
  | alarmSearch =>
    have hi : i = .alarmSearch := by simpa [tableAllows] using hm
    simp only [Sys2Proof.Machine.effect]
    repeat' split
    · have hargs' := congrArg (fun x : Operands => { x with addr := unpack64 a.raddr }) hargs
      exact ⟨hreg, hcrc, ha64, htemp, hres, halarms, hsp, hbool, fun _ hne => absurd hi hne, hargs', hrest⟩
    all_goals exact ⟨hreg, hcrc, ha64, htemp, hres, halarms, hsp, hbool, haddr, hargs, hrest⟩
  | reset =>
    simp only [Sys2Proof.Machine.effect]
    split <;> exact ⟨hreg, hcrc, ha64, htemp, hres, halarms, hsp, hbool, haddr, hargs, hrest⟩
  | _ => exact ⟨hreg, hcrc, ha64, htemp, hres, halarms, hsp, hbool, haddr, hargs, hrest⟩

/-- Every move that the table allows keeps it. -/
theorem kept_table (i : Instr) (s₀ : State) : Kept (fun m => tableAllows i m = true) (WrittenByTable i s₀) := by
  constructor
  case tmp | failKind | goto | env => intro s x h; exact h
  case tick => intro s _ h; exact h
  case openAssist => intro s w _ h; unfold openAssist; dsimp only; split <;> exact h
  case closeAssist => intro s n _ h; unfold closeAssist; dsimp only; split <;> exact h
  case finish => intro s r hr h; exact h.finish hr
  case request => intro m s _ h; cases m <;> exact h
  case effect => intro m a s hm _ h; exact h.effect hm a
  case qWaiting => intro w n h; rfl
  case qFail => intro k; rfl
  case qData =>
    intro b m hb hm
    rcases dataPhase_cases b m hm with ⟨rfl, j, rfl⟩ | ⟨_, rfl⟩ | ⟨rfl, _⟩ | rfl
    · simpa [tableAllows] using hb
    all_goals rfl

/-- A move written out holds itself. -/
theorem mem_unfold {m : Micro} (hm : ∀ n, m ≠ .waiting n) : m ∈ m.unfold := by
  cases m <;> first | exact List.mem_cons_self | exact absurd rfl (hm _)

/-- The table allows a move when it allows the move written out. -/
theorem tableAllows_of_unfold (i : Instr) (m : Micro) (h : ∀ x ∈ m.unfold, tableAllows i x = true) :
    tableAllows i m = true := by
  by_cases hw : ∃ n, m = .waiting n
  · obtain ⟨n, rfl⟩ := hw
    rfl
  · exact h m (mem_unfold fun n hn => hw ⟨n, hn⟩)

/-- The table allows every move of the operation's own procedure. -/
theorem tableAllows_procedure (i : Instr) (l : Latches) : (unfolded (procedureOf i l)).all (tableAllows i) = true := by
  cases i with
  | setRes =>
    show (unfolded (setResProc l)).all (tableAllows .setRes) = true
    rcases setResProc_cases l with h | ⟨_, h⟩ | ⟨_, h⟩ <;> rw [h] <;> rfl
  | _ => rfl

/-- The exec of a host operation, ended or not, writes what the table says. -/
theorem exec_writtenByTable {i : Instr} {s t : State} (hi : i.format = .host8) (h : exec i s = .next t) :
    WrittenByTable i s t := by
  by_cases hp : procedureOf i s.latch = []
  · rcases exec_without_procedure hi hp h with ⟨rfl | rfl, _, rfl⟩ | ⟨rfl, _, rfl⟩ | ⟨rfl, _, rfl⟩ | ⟨rfl, rfl⟩ <;>
      simp [WrittenByTable]
  · refine exec_keeps (kept_table i s) (tableAllows_of_unfold i) hp
      (List.all_eq_true.mp (tableAllows_procedure i s.latch)) ?_ h
    unfold State.opened
    split
    · next hd => subst hd; simp [WrittenByTable]
    · exact WrittenByTable.refl i s

/-- Settles O19: an exec writes what the table says, and so does every later step, whose moves are those of its procedure. -/
theorem resultsWrittenOnlyByTheirOperations : Obligations.ResultsWrittenOnlyByTheirOperations := by
  refine ⟨fun i s t hi h => exec_writtenByTable hi h, fun i s t hinv hb hh hi h => ?later⟩
  exact seqStep_keeps (kept_table i s) (fun _ _ h => h) (tableAllows_of_unfold i) hinv.procedure hb hi
    (List.all_eq_true.mp (tableAllows_procedure i s.latch)) (exec_writtenByTable (host_format _ i hi))
    (WrittenByTable.refl i s) (seqStep_of_step s t hb hh h)

/-! ## The pin and the counter (R154, R184) -/

/-- The moves that neither drive the pin nor wait. -/
def pinStays (m : Micro) : Bool :=
  match m with
  | .assist _ | .waiting _ => false
  | .cmd b => b != 0x48
  | _ => true

theorem PinAndCounterAlone.refl (s : State) : PinAndCounterAlone s s :=
  ⟨rfl, rfl, [], (List.append_nil _).symm, by simp, by simp⟩

/-- One more event that is neither of the pin nor of the counter. -/
theorem PinAndCounterAlone.log {s₀ s t : State} {e : TraceEvent} (h : PinAndCounterAlone s₀ s)
    (hp : t.status.pullup = s.status.pullup) (hc : t.ctc = s.ctc) (ht : t.trace = s.trace ++ [e])
    (hv : ∀ v, e ≠ .pullup v) (hn : ∀ n, e ≠ .wait n) : PinAndCounterAlone s₀ t := by
  obtain ⟨hpin, hctc, tr, htr, hpull, hwait⟩ := h
  refine ⟨hp.trans hpin, hc.trans hctc, tr ++ [e], by rw [ht, htr, List.append_assoc], fun v => ?_, fun n => ?_⟩
  · simpa [hpull v] using (hv v).symm
  · simpa [hwait n] using (hn n).symm

theorem PinAndCounterAlone.finish {s₀ s : State} (h : PinAndCounterAlone s₀ s) (r : ResultKind) :
    PinAndCounterAlone s₀ (s.finish r) := by
  cases r <;> simp only [State.finish] <;> split <;> exact h

/-- A completed primitive is no event of the pin or the counter. -/
theorem PinAndCounterAlone.effect {s₀ s : State} (h : PinAndCounterAlone s₀ s) {m : Micro} (hm : m.isBus = true)
    (a : Answer) : PinAndCounterAlone s₀ (effect m a (lower s)) := by
  cases m with
  | reset | discover | alarmSearch =>
    simp only [Sys2Proof.Machine.effect]
    repeat' split
    all_goals exact h.log rfl rfl rfl (by simp) (by simp)
  | select | cmd | write | read | readBit | searchReset => exact h.log rfl rfl rfl (by simp) (by simp)
  | _ => cases hm

/-- While no wait runs, every other move leaves the pin and the counter alone. -/
theorem kept_pin {s₀ : State} (hrun : s₀.ctc.run = false) :
    Kept (fun m => pinStays m = true) (PinAndCounterAlone s₀) := by
  constructor
  case tmp | failKind | goto | env => intro s x h; exact h
  case tick =>
    rintro s hr ⟨_, hctc, _⟩
    rw [hctc, hrun] at hr
    cases hr
  case openAssist => intro s w hw; cases hw
  case closeAssist => intro s n hn; cases hn
  case finish => intro s r _ h; exact h.finish r
  case request => intro m s _ h; cases m <;> exact h
  case effect => intro m a s _ hb h; exact h.effect hb a
  case qWaiting => intro w n hw; cases hw
  case qFail => intro k; rfl
  case qData =>
    intro b m hb hm
    rcases dataPhase_cases b m hm with ⟨_, j, rfl⟩ | ⟨_, rfl⟩ | ⟨rfl, rfl⟩ | rfl
    case inr.inr.inl => cases hb
    all_goals rfl

/-- A wait written out is an assisted wait. -/
theorem pinStays_of_unfold (m : Micro) (h : ∀ x ∈ m.unfold, pinStays x = true) : pinStays m = true := by
  by_cases hw : ∃ n, m = .waiting n
  · obtain ⟨n, rfl⟩ := hw
    exact absurd (h _ List.mem_cons_self) (by simp [pinStays])
  · exact h m (mem_unfold fun n hn => hw ⟨n, hn⟩)

/-- The operations that drive the pin or wait: the conversions and the EEPROM copies (R154). -/
def drivesPin (i : Instr) (l : Latches) : Bool :=
  match i with
  | .readTemp | .readRaw | .copySp => true
  | .setRes => l.persist
  | _ => false

theorem pinStays_procedure {i : Instr} {l : Latches} (hi : drivesPin i l = false) :
    (unfolded (procedureOf i l)).all pinStays = true := by
  cases i with
  | setRes =>
    show (unfolded (setResProc l)).all pinStays = true
    rcases setResProc_cases l with h | ⟨_, h⟩ | ⟨hpersist, _⟩
    · rw [h]; rfl
    · rw [h]; rfl
    · exact absurd (hpersist.symm.trans hi) (by decide)
  | readTemp | readRaw | copySp => cases hi
  | _ => rfl

/-- The exec of another operation, started with no wait running. -/
theorem exec_pinAlone {i : Instr} {s t : State} (hi : i.format = .host8) (hpin : drivesPin i s.latch = false)
    (hrun : s.ctc.run = false) (h : exec i s = .next t) : PinAndCounterAlone s t := by
  by_cases hp : procedureOf i s.latch = []
  · rcases exec_without_procedure hi hp h with ⟨_, _, rfl⟩ | ⟨_, _, rfl⟩ | ⟨_, _, rfl⟩ | ⟨_, rfl⟩ <;>
      exact PinAndCounterAlone.refl s
  · refine exec_keeps (kept_pin hrun) pinStays_of_unfold hp (List.all_eq_true.mp (pinStays_procedure hpin)) ?_ h
    unfold State.opened
    split <;> exact PinAndCounterAlone.refl s

/-- Settles O20: the procedure of another operation has no assisted wait, so none of its moves drives the pin, and no wait
can be running inside it. -/
theorem onlyConversionsAndCopiesDriveThePin : Obligations.OnlyConversionsAndCopiesDriveThePin := by
  intro i s t hne1 hne2 hne3 hset
  have hpin : drivesPin i s.latch = false := by
    cases i with
    | setRes => exact hset rfl
    | readTemp => exact absurd rfl hne1
    | readRaw => exact absurd rfl hne2
    | copySp => exact absurd rfl hne3
    | _ => rfl
  refine ⟨fun hi hrun h => exec_pinAlone hi hpin hrun h, fun hinv hb hh hi h => ?later⟩
  have hstays := List.all_eq_true.mp (pinStays_procedure hpin)
  have hrun : s.ctc.run = false := by
    refine Bool.eq_false_iff.mpr fun hr => ?_
    obtain ⟨n, q, ht⟩ := run_waiting hinv.toConsistent hr
    obtain ⟨j, hj, hstart | hrest⟩ := hinv.procedure hb
    · rw [hstart] at ht; cases ht
    · rw [hi] at hj
      cases hj
      have hwait := rest_moves _ pinStays_of_unfold _ _ hrest hstays (.waiting n) (by rw [ht]; exact List.mem_cons_self)
      cases hwait
  exact seqStep_keeps (kept_pin hrun) (fun _ _ h => h) pinStays_of_unfold hinv.procedure hb hi hstays
    (exec_pinAlone (host_format _ i hi) hpin hrun) (PinAndCounterAlone.refl s) (seqStep_of_step s t hb hh h)

end Sys2Proof.Machine
end

section
/-! PROOFS. What no step reads: the ghost fields (10_state.md R47) and the flags an earlier operation left (10_state.md R36). Each
is a relation between two runs that every move keeps (`Sim` of Laws/Engine.lean). -/

namespace Sys2Proof.Machine

/-! ## The trace and the failure kind -/

/-- `t` is `s` with another trace and another failure kind. -/
def SameButGhost (s t : State) : Prop := ∃ tr k, t = { s with trace := tr, failKind := k }

theorem SameButGhost.forget {s t : State} (h : SameButGhost s t) : forgetGhost s = forgetGhost t := by
  obtain ⟨tr, k, rfl⟩ := h
  rfl

/-- No move of a procedure reads the ghost fields. -/
theorem sim_ghost : Sim SameButGhost := by
  constructor
  case tmp | goto | env | tick => rintro s _ x ⟨tr, k, rfl⟩; exact ⟨tr, k, rfl⟩
  case raise => rintro s _ x ⟨tr, k, rfl⟩; exact ⟨tr, some x, rfl⟩
  case openAssist => rintro s _ n ⟨tr, k, rfl⟩; unfold openAssist assistDrives; dsimp only; split <;> exact ⟨_, k, rfl⟩
  case closeAssist => rintro s _ n ⟨tr, k, rfl⟩; unfold closeAssist assistDrives; dsimp only; split <;> exact ⟨_, k, rfl⟩
  case finish =>
    rintro s _ r ⟨tr, k, rfl⟩
    cases r <;> simp only [State.finish] <;> split <;> exact ⟨tr, _, rfl⟩
  case request => rintro m s _ ⟨tr, k, rfl⟩; cases m <;> exact ⟨tr, k, rfl⟩
  case effect =>
    rintro m a s _ ⟨tr, k, rfl⟩
    cases m
    case reset =>
      show SameButGhost (if a.rflag then _ else _) (if a.rflag then _ else _)
      split <;> exact ⟨_, k, rfl⟩
    case discover | alarmSearch =>
      show SameButGhost (if a.rflag then (if romValid s.params.crc _ then _ else _) else _)
        (if a.rflag then (if romValid s.params.crc _ then _ else _) else _)
      repeat' split
      all_goals exact ⟨_, k, rfl⟩
    all_goals exact ⟨_, k, rfl⟩
  all_goals rintro s _ ⟨_, _, rfl⟩; rfl

theorem sim_exec_ghost (i : Instr) {s t : State} (h : SameButGhost s t) :
    (∃ s' t', exec i s = .next s' ∧ exec i t = .next t' ∧ SameButGhost s' t') ∨
      ∃ f, exec i s = .fault f ∧ exec i t = .fault f := by
  refine sim_exec sim_ghost ?env i s t h ?clr ?push ?pack ?get ?count ?endOp
  case env => rintro s _ ⟨tr, k, rfl⟩; rfl
  case endOp => rintro s _ b ⟨tr, k, rfl⟩; exact ⟨tr, _, rfl⟩
  all_goals
    obtain ⟨tr, k, rfl⟩ := h
    intros
    exact ⟨tr, k, rfl⟩

theorem SameButGhost.ite (c : Prop) [Decidable c] {s t s' t' : State} (h : SameButGhost s t) (h' : SameButGhost s' t') :
    SameButGhost (if c then s else s') (if c then t else t') := by
  split
  · exact h
  · exact h'

/-- Nor does a host write. -/
theorem writeReg_ghost (s : State) (r v : Byte) (tr : List TraceEvent) (k : Option FailKind) :
    SameButGhost (writeReg s r v) (writeReg { s with trace := tr, failKind := k } r v) := by
  unfold writeReg
  dsimp only
  iterate 8 refine SameButGhost.ite _ ⟨tr, k, rfl⟩ ?_
  split <;> exact ⟨tr, k, rfl⟩

/-- Nor does the host's turn. -/
theorem hostTurn_ghost {s t : State} (e : Event) (h : SameButGhost s t) : SameButGhost (hostTurn s e) (hostTurn t e) := by
  obtain ⟨tr, k, rfl⟩ := h
  cases e with
  | hostWrite r v =>
    simp only [hostTurn, hostWrite]
    split
    · exact ⟨tr, k, rfl⟩
    · split
      · unfold State.writeCmd
        split
        · exact ⟨[], none, rfl⟩
        · exact ⟨tr, some .illegalOp, rfl⟩
      · exact writeReg_ghost s r v tr k
  | rst => exact ⟨[], none, rfl⟩
  | _ => exact ⟨tr, k, rfl⟩

/-- Nor does SEQ's going on. -/
theorem seqTurn_ghost {s t : State} (h : SameButGhost s t) : SameButGhost (seqTurn s) (seqTurn t) := by
  unfold seqTurn
  rw [← sim_ghost.todo s t h]
  split
  · obtain ⟨tr, k, rfl⟩ := h
    exact ⟨tr, _, rfl⟩
  · exact sim_ghost.resume (by rintro s _ ⟨tr, k, rfl⟩; rfl) s t h

/-- Settles O21: whose turn it is and what SEQ fetches do not depend on the ghost fields, and nothing that follows reads them. -/
theorem ghostStateIsNeverRead : Obligations.GhostStateIsNeverRead := by
  intro s
  have hs : SameButGhost s (forgetGhost s) := ⟨[], none, rfl⟩
  have hturn : nextTurn (forgetGhost s) = nextTurn s := rfl
  have hfetch : fetch (forgetGhost s) = fetch s := rfl
  unfold step
  rw [hturn, hfetch]
  cases nextTurn s with
  | host e rest =>
    have hrest : SameButGhost { s with env := rest } { forgetGhost s with env := rest } := ⟨[], none, rfl⟩
    exact congrArg Host.Outcome.next (hostTurn_ghost e hrest).forget
  | idle => rfl
  | seq =>
    cases hf : fetch s with
    | none => exact congrArg Host.Outcome.next (seqTurn_ghost hs).forget
    | some d =>
      cases d with
      | instr i =>
        dsimp only
        rcases sim_exec_ghost i hs with ⟨s', t', hs', ht', h⟩ | ⟨f, hs', ht'⟩
        · rw [hs', ht']
          exact congrArg Host.Outcome.next h.forget
        · rw [hs', ht']
      | rejected why => cases why <;> rfl

/-! ## The flags -/

/-- `t` is `s` with other flags OK, BOOL, ILL and another failure kind; when `p` is asked for, OK agrees once the operation has
ended. -/
def SameButFlags (p : Prop) (s t : State) : Prop :=
  ∃ ok bool ill k, t = { s with status := { s.status with ok := ok, bool := bool, ill := ill }, failKind := k } ∧
    (p → s.status.busy = false → s.status.ok = ok)

theorem SameButFlags.forget {p : Prop} {s t : State} (h : SameButFlags p s t) : forgetFlags s = forgetFlags t := by
  obtain ⟨ok, bool, ill, k, rfl, _⟩ := h
  rfl

/-- No move of a procedure reads the flags, and the one that ends the operation writes OK. -/
theorem sim_flags (p : Prop) : Sim (SameButFlags p) := by
  constructor
  case tmp | goto | env | tick =>
    rintro s _ x ⟨ok, bool, ill, k, rfl, h⟩
    exact ⟨ok, bool, ill, k, rfl, h⟩
  case raise => rintro s _ x ⟨ok, bool, ill, k, rfl, h⟩; exact ⟨ok, bool, ill, some x, rfl, h⟩
  case openAssist =>
    rintro s _ n ⟨ok, bool, ill, k, rfl, h⟩
    unfold openAssist assistDrives
    dsimp only
    split <;> exact ⟨ok, bool, ill, k, rfl, h⟩
  case closeAssist =>
    rintro s _ n ⟨ok, bool, ill, k, rfl, h⟩
    unfold closeAssist assistDrives
    dsimp only
    split <;> exact ⟨ok, bool, ill, k, rfl, h⟩
  case finish =>
    rintro s _ r ⟨ok, bool, ill, k, rfl, h⟩
    cases r <;> simp only [State.finish] <;> split <;> exact ⟨_, _, ill, _, rfl, fun _ _ => rfl⟩
  case request => rintro m s _ ⟨ok, bool, ill, k, rfl, h⟩; cases m <;> exact ⟨ok, bool, ill, k, rfl, h⟩
  case effect =>
    rintro m a s _ ⟨ok, bool, ill, k, rfl, h⟩
    cases m
    case reset =>
      show SameButFlags p (if a.rflag then _ else _) (if a.rflag then _ else _)
      split <;> exact ⟨ok, bool, ill, k, rfl, h⟩
    case discover | alarmSearch =>
      show SameButFlags p (if a.rflag then (if romValid s.params.crc _ then _ else _) else _)
        (if a.rflag then (if romValid s.params.crc _ then _ else _) else _)
      repeat' split
      all_goals exact ⟨ok, bool, ill, k, rfl, h⟩
    all_goals exact ⟨ok, bool, ill, k, rfl, h⟩
  all_goals rintro s _ ⟨_, _, _, _, rfl, _⟩; rfl

theorem sim_exec_flags {p : Prop} (i : Instr) {s t : State} (h : SameButFlags p s t) :
    (∃ s' t', exec i s = .next s' ∧ exec i t = .next t' ∧ SameButFlags p s' t') ∨
      ∃ f, exec i s = .fault f ∧ exec i t = .fault f := by
  refine sim_exec (sim_flags p) ?env i s t h ?clr ?push ?pack ?get ?count ?endOp
  case env => rintro s _ ⟨_, _, _, _, rfl, _⟩; rfl
  case endOp => rintro s _ b ⟨ok, bool, ill, k, rfl, _⟩; exact ⟨b, bool, ill, _, rfl, fun _ _ => rfl⟩
  all_goals
    obtain ⟨ok, bool, ill, k, rfl, hok⟩ := h
    intros
    exact ⟨ok, bool, ill, k, rfl, hok⟩

/-- Settles O22: the two runs agree but for the flags; and as OK is not read before the end writes it, it agrees there too. -/
theorem flagsAreNeverRead : Obligations.FlagsAreNeverRead := by
  have hforgotten : ∀ (p : Prop) (s : State), (p → s.status.busy = true) → SameButFlags p s (forgetFlags s) :=
    fun p s hb => ⟨false, false, false, none, rfl, fun hp hidle => absurd (hb hp) (Bool.eq_false_iff.mp hidle)⟩
  refine fun i s => ⟨?same, fun t t' hb h h' hended => ?ok⟩
  case same =>
    rcases sim_exec_flags i (hforgotten False s False.elim) with ⟨s', t', hs', ht', h⟩ | ⟨f, hs', ht'⟩
    · rw [hs', ht']
      exact congrArg Host.Outcome.next h.forget
    · rw [hs', ht']
  case ok =>
    rcases sim_exec_flags i (hforgotten True s fun _ => hb) with ⟨s', t'', hs', ht', hflags⟩ | ⟨f, hs', _⟩
    · rw [h] at hs'
      rw [h'] at ht'
      cases hs'
      cases ht'
      obtain ⟨ok, bool, ill, k, rfl, hok⟩ := hflags
      exact hok trivial hended
    · rw [h] at hs'
      cases hs'

end Sys2Proof.Machine
end

section
/-! PROOFS. The transport port and the counter (10_state.md R40 to R43): what SEQ requests, how it waits, the ticks of a wait, and
the events that reach it where it does not look for them (log entry 15). -/

namespace Sys2Proof.Machine

/-! ## Requests (R40, R96) -/

theorem request_of_todo {s : State} {m : Micro} {q : List Micro} (ht : s.seq.todo = m :: q) :
    request s = requestOf m s := by
  unfold request
  rw [ht]

/-- A move that is no primitive requests nothing. -/
theorem requestOf_of_not_isBus {m : Micro} (hm : m.isBus = false) (s : State) : requestOf m s = s := by
  cases m <;> first | rfl | cases hm

theorem requestOf_req {m : Micro} (hm : m.isBus = true) (s : State) : (requestOf m s).bus.req = true := by
  cases m <;> first | rfl | cases hm

/-- Settles O23: SEQ requests the move it stands at, and each primitive's row of R96 is its arm of `requestOf`. -/
theorem primitiveRequests : Obligations.PrimitiveRequests := by
  intro s m t ht
  rw [request_of_todo ht]
  refine ⟨?_, ?_, ?_, ?_, ?_, ?_, ?_, ?_, ?_, ?_, ?_, fun hm => requestOf_of_not_isBus hm s⟩
  all_goals
    intros
    subst m
    rfl

theorem request_ctc (s : State) : (request s).ctc = s.ctc := by
  cases ht : s.seq.todo with
  | nil => simp [request, ht]
  | cons m q => rw [request_of_todo ht]; cases m <;> rfl

/-! ## SEQ standing still -/

theorem inWait_iff {s : State} : inWait s = true ↔ ∃ n, s.seq.todo.head? = some (.waiting n) := by
  unfold inWait
  cases ht : s.seq.todo with
  | nil => simp
  | cons m q => cases m <;> simp

/-- At a primitive the counter does not run (R228). -/
theorem run_of_atPrimitive {s : State} (h : Consistent s) (hat : atPrimitive s = true) : s.ctc.run = false := by
  refine Bool.eq_false_iff.mpr fun hr => ?_
  obtain ⟨n, q, ht⟩ := run_waiting h hr
  simp [atPrimitive, ht, Micro.isBus] at hat

/-- How SEQ runs from `s`: against the events `es` the step is `f` of the run from `z`. A wire command runs by itself first
(`resumed`), so that `z` then stands at the command alone; elsewhere `z` is `s`. -/
structure RunsFrom (s z : State) (f : State → State) : Prop where
  head : z.seq.todo.head? = s.seq.todo.head?
  ctc : z.ctc = s.ctc
  step : ∀ es, (∀ e, es.head? = some e → e.ofHost = false) → step { s with env := es } = .next (f (feed es z))
  waits : ∀ es, f { request z with env := es } = { request s with env := es }

/-- At a primitive or inside a wait. -/
theorem runsFrom {b : Prop} {s : State} (h : Good b s) (hb : s.status.busy = true) {m : Micro} {q : List Micro}
    (ht : s.seq.todo = m :: q) (hd : m ≠ .dispatch) : ∃ z f, RunsFrom s z f := by
  by_cases hc : ∃ c, m = .cmd c
  · obtain ⟨c, rfl⟩ := hc
    obtain ⟨i, hi⟩ : ∃ i, decodeWire c = .instr i := by
      rcases position_cases h hb with ⟨ht', _⟩ | ⟨c', q', i, ht', hi⟩ | ⟨m, q', ht', _, hne⟩
      · rw [ht] at ht'; cases ht'
      · rw [ht] at ht'; cases ht'; exact ⟨i, hi⟩
      · rw [ht] at ht'; cases ht'; exact absurd rfl (hne c)
    refine ⟨s.goto [.cmd c], resumed q, ⟨by rw [ht]; rfl, rfl, fun es hes => ?step, fun es => ?waits⟩⟩
    case step =>
      rw [step_wire (s := { s with env := es }) hb hes ht hi, exec_wire c i hi, runWire_resumed, (wire_decode c i hi).1,
        runProc_bus _ rfl (by simp)]
      show Host.Outcome.next (resumed s.seq.todo.tail (feed es ({ s.goto [.cmd c] with env := es } : State))) = _
      rw [feed_env, ht]
      rfl
    case waits =>
      rw [request_of_todo ht]
      exact congrArg (fun x : State => ({ requestOf (.cmd c) x with env := es } : State)) (goto_self s _ ht)
  · refine ⟨s, id, ⟨rfl, rfl, fun es hes => ?step, fun es => rfl⟩⟩
    case step =>
      rw [step_inside (s := { s with env := es }) hb hes (by simp [ht, hd]) (fun c p hp => hc ⟨c, ?_⟩),
        seqTurn_inside (good_env h es) hb m q ht hd]
      · exact congrArg Host.Outcome.next (feed_env es es s)
      · have hp : s.seq.todo = .cmd c :: p := hp
        rw [ht] at hp
        exact (List.cons.inj hp).1

/-- The head of the procedure where SEQ stands at a primitive or inside a wait. -/
theorem head_of_stands {s : State} (h : atPrimitive s = true ∨ inWait s = true) :
    ∃ m q, s.seq.todo = m :: q ∧ m ≠ .dispatch := by
  unfold atPrimitive inWait at h
  cases ht : s.seq.todo with
  | nil => rw [ht] at h; simp at h
  | cons m q =>
    refine ⟨m, q, rfl, ?_⟩
    rintro rfl
    rw [ht] at h
    simp [Micro.isBus] at h

/-- With nothing from the ports SEQ requests the primitive it stands at and does nothing else. -/
theorem step_waits {b : Prop} {s : State} (h : Good b s) (hb : s.status.busy = true)
    (hat : atPrimitive s = true ∨ inWait s = true) (he : s.env = []) : step s = .next (request s) := by
  obtain ⟨m, q, ht, hd⟩ := head_of_stands hat
  obtain ⟨z, f, hrun⟩ := runsFrom h hb ht hd
  have henv : ∀ x : State, x.env = [] → ({ x with env := [] } : State) = x := by
    intro x hx
    rw [← hx]
  have hstep := hrun.step [] (by simp)
  rw [henv s he, feed_nil, hrun.waits, henv _ ((good_request h).2.2.2.2.trans he)] at hstep
  exact hstep

/-- A request is up exactly where SEQ stands at a primitive (R41, R228). -/
theorem request_req {b : Prop} {s : State} (h : Good b s) : (request s).bus.req = atPrimitive s := by
  have hreq := h.1.requested
  unfold atPrimitive at *
  unfold request
  cases ht : s.seq.todo with
  | nil =>
    rw [ht] at hreq
    exact Bool.eq_false_iff.mpr fun hr => by simpa using hreq hr
  | cons m q =>
    rw [ht] at hreq
    dsimp only at hreq ⊢
    cases hm : m.isBus with
    | true => exact requestOf_req hm s
    | false =>
      rw [requestOf_of_not_isBus hm]
      exact Bool.eq_false_iff.mpr fun hr => Bool.eq_false_iff.mp hm (hreq hr)

/-- A request made is held: with nothing from the ports a further step changes nothing. -/
theorem step_request {b : Prop} {s : State} (h : Good b s) (hb : s.status.busy = true)
    (hat : atPrimitive s = true ∨ inWait s = true) (he : s.env = []) : step (request s) = .next (request s) := by
  obtain ⟨hgood, hseq, hstatus, _, henv⟩ := good_request h
  have hat' : atPrimitive (request s) = true ∨ inWait (request s) = true := by
    unfold atPrimitive inWait
    rw [hseq]
    exact hat
  rw [step_waits hgood (by rw [hstatus]; exact hb) hat' (henv.trans he), request_request]

/-- Settles O24: the step is the request, a request made is a state of the same kind, and a request made twice is made once. -/
theorem waitsWithoutLimit : Obligations.WaitsWithoutLimit := by
  intro s hinv hb hat he
  obtain ⟨-, -, hstatus, -, -⟩ := good_request hinv.good
  exact ⟨step_waits hinv.good hb hat he, step_request hinv.good hb hat he, hstatus, request_req hinv.good⟩

/-! ## Events that SEQ does not look for (log entry 15) -/

/-- An event that has no effect where SEQ stands: a run takes it as a request. -/
theorem feed_ineffective {e : Event} {z : State} (hz : z.seq.todo ≠ []) (ho : e.ofHost = false)
    (he : accept (request z) e = request z) (es : List Event) : feed (e :: es) z = feed es (request z) := by
  rw [feed, if_neg (by simp [hz, ho]), he]

/-- An empty turn, a tick while the counter does not run, an acknowledge at no primitive. -/
theorem accept_ineffective {e : Event} {z : State} (h : e = .turn ∨ (e = .tick ∧ z.ctc.run = false) ∨
    ((∃ a, e = .ack a) ∧ ∃ n, z.seq.todo.head? = some (.waiting n))) : accept z e = z := by
  rcases h with rfl | ⟨rfl, hrun⟩ | ⟨⟨a, rfl⟩, n, hn⟩
  · rfl
  · simp [accept, acceptTick, hrun]
  · obtain ⟨q, hq⟩ := List.head?_eq_some_iff.mp hn
    simp [accept, acceptAck, hq, Micro.isBus]

/-- Settles O26: SEQ's run takes such an event as a request; the next event finds the request made, which changes nothing in the
run, or is the host's, for which SEQ pauses. -/
theorem ineffectiveEventsAreSkipped : Obligations.IneffectiveEventsAreSkipped := by
  intro s e es hinv hb hcase henv
  have hat : atPrimitive s = true ∨ inWait s = true := by tauto
  have ho : e.ofHost = false := by rcases hcase with ⟨rfl, _⟩ | ⟨rfl, _⟩ | ⟨⟨a, rfl⟩, _⟩ <;> rfl
  obtain ⟨m, q, ht, hd⟩ := head_of_stands hat
  obtain ⟨z, f, hrun⟩ := runsFrom hinv.good hb ht hd
  have hz : z.seq.todo ≠ [] := by
    intro hnil
    have := hrun.head
    simp [hnil, ht] at this
  have hrequest : (request z).ctc = s.ctc ∧ (request z).seq.todo.head? = s.seq.todo.head? := by
    rw [request_ctc, request_todo]
    exact ⟨hrun.ctc, hrun.head⟩
  have haccept : accept (request z) e = request z := by
    apply accept_ineffective
    rw [hrequest.1, hrequest.2]
    rcases hcase with ⟨he, _⟩ | ⟨he, hprim⟩ | ⟨he, hwait⟩
    · exact .inl he
    · exact .inr (.inl ⟨he, run_of_atPrimitive hinv.toConsistent hprim⟩)
    · exact .inr (.inr ⟨he, inWait_iff.mp hwait⟩)
  have hstep : step s = .next (f (feed es (request z))) := by
    have := hrun.step (e :: es) (by rintro _ ⟨⟩; exact ho)
    rw [feed_ineffective hz ho haccept, ← henv] at this
    exact this
  refine ⟨fun hnext => ?seq, fun hhost => ?host⟩
  case seq => rw [hstep, hrun.step es hnext, feed_request es z hnext hz]
  case host =>
    obtain ⟨e', he', ho'⟩ := hhost
    obtain ⟨es', rfl⟩ := List.head?_eq_some_iff.mp he'
    have hpause : feed (e' :: es') (request z) = { request z with env := e' :: es' } := by
      rw [feed, if_pos (by simp [ho'])]
    rw [hstep, hpause, hrun.waits]

/-! ## The ticks of a wait (R43, R226) -/

/-- Inside a wait with ticks left the step is the run of the events. -/
theorem step_waiting {s : State} {n : Nat} {p : List Micro} (hb : s.status.busy = true) (ht : s.seq.todo = .waiting n :: p)
    (hc : s.ctc.cnt ≠ 0) (hh : ∀ e, s.env.head? = some e → e.ofHost = false) :
    step s = .next (feed s.env (s.goto (.waiting n :: p))) := by
  have hsettle : settle s = s.goto (.waiting n :: p) := by
    rw [settle, ht, advance_waiting, if_neg hc]
  rw [step_inside hb hh (by simp [ht]) (by simp [ht]), seqTurn_of_todo ht, resume, hsettle]
  rfl

theorem ticks_head (k : Nat) : ∀ e, (ticks k).head? = some e → e.ofHost = false := by
  intro e he
  have hmem : e ∈ ticks k := List.mem_of_mem_head? he
  rw [List.eq_of_mem_replicate hmem]
  rfl

/-- The end of a wait: the counter stops, the pin is released when it was driven, their events join the trace, and nothing else
changes. -/
theorem closeAssist_eq (s : State) (n : Nat) : closeAssist s n =
    { s with
      ctc := { s.ctc with run := false }
      status := { s.status with pullup := if assistDrives s then false else s.status.pullup }
      seq := { s.seq with step := s.seq.step + (if assistDrives s then 2 else 1) }
      trace := s.trace ++ (if assistDrives s then [.wait n, .pullup false] else [.wait n]) } := by
  cases hd : assistDrives s <;> simp [closeAssist, hd, State.log]

/-- Settles O25: fewer ticks than are left only count down; the last one closes the wait, and SEQ goes on. -/
theorem ticksCountDown : Obligations.TicksCountDown := by
  intro s n k p hb ht hrun hpos
  have hc : s.ctc.cnt ≠ 0 := by
    intro h0
    rw [h0] at hpos
    exact absurd hpos (by decide)
  refine ⟨fun he hk => ?inside, fun he hpin => ?last⟩
  case inside =>
    rw [step_waiting hb ht hc (by rw [he]; exact ticks_head k), he, ← List.append_nil (ticks k),
      feed_ticks_inside n k [] p s hk hrun, feed_nil, request_of_todo rfl, requestOf_of_not_isBus rfl]
    rw [← hrun]
    have hstands : (setCnt s (s.ctc.cnt - BitVec.ofNat 10 k)).goto (.waiting n :: p) = setCnt s _ := goto_self _ _ ht
    exact congrArg (fun x : State => Host.Outcome.next { x with env := [] }) hstands
  case last =>
    refine ⟨closeAssist (setCnt s 0) n, ?step, ?rest⟩
    case step =>
      rw [step_waiting hb ht hc (by rw [he]; exact ticks_head _), he]
      conv => lhs; rw [← List.append_nil (ticks s.ctc.cnt.toNat)]
      rw [feed_ticks_end n [] p s hc hrun, feed_nil]
    case rest =>
      have hdrives : assistDrives (setCnt s 0) = assistDrives s := rfl
      rw [closeAssist_eq, hdrives]
      refine ⟨rfl, ?status, rfl, rfl, rfl, rfl, rfl, rfl, rfl⟩
      cases hd : assistDrives s with
      | true => rfl
      | false => rw [hd] at hpin; simp [setCnt, hpin]

end Sys2Proof.Machine
end

section
/-! PROOFS. The six wire commands as instructions (30_encoding.md R90, R93, log entry 17), and a bus reset that finds no presence
(41_scratchpad.md R120). -/

namespace Sys2Proof.Machine

/-! ## A wire command and its data phase -/

/-- A wire command whose events run its data phase to the end, which leaves `X`, goes on with the procedure behind it. -/
theorem exec_wire_of_feed {c : Byte} {i : Instr} (hc : decodeWire c = .instr i) {s X : State} {p : List Micro}
    {es : List Event} (ht : s.seq.todo = .cmd c :: p)
    (hrun : feed s.env (s.goto [wire i]) = feed es (advance .running [] X)) :
    exec i s = .next (advance .running p { X.goto [] with env := es }) := by
  rw [exec_wire c i hc, runWire_of_feed i s X es hrun, ht]
  rfl

/-- The command byte itself, acknowledged. -/
theorem feed_command (i : Instr) (a : Answer) (es : List Event) (s : State) :
    feed (.ack a :: es) (s.goto [wire i]) =
      feed es (advance .running (behind s.params.crc (wire i) a []) (primitive (wire i) a s)) :=
  feed_ack_goto (wire i) rfl a es [] s

/-- A vector of nine, element by element. -/
theorem toList_nine {α : Type} (v : Vector α 9) : v.toList = [v[0], v[1], v[2], v[3], v[4], v[5], v[6], v[7], v[8]] := by
  refine List.ext_getElem (by simp) fun i hi _ => ?_
  have hi : i < 9 := by simpa using hi
  interval_cases i <;> simp

/-- The bytes of nine answers. -/
theorem map_rbyte_nine (b : Vector Answer 9) : #v[b[0].rbyte, b[1].rbyte, b[2].rbyte, b[3].rbyte, b[4].rbyte,
    b[5].rbyte, b[6].rbyte, b[7].rbyte, b[8].rbyte] = b.map Answer.rbyte := by
  ext1 i hi
  interval_cases i <;> simp

/-- Settles O55: the command byte, then the nine reads of its data phase. -/
theorem readScratchpadCommand : Obligations.ReadScratchpadCommand := by
  intro s p c b es ht he
  have hrun : feed s.env (s.goto [wire .readScratchpad]) =
      feed es (advance .running [] (afterNineReads b (primitive (.cmd 0xBE) c s))) := by
    rw [he, toList_nine]
    refine (feed_command .readScratchpad c _ s).trans ?_
    rw [behind_readScratchpad, advance_bus (.read 0) rfl (by decide)]
    exact feed_nineReads b [] es _
  refine ⟨_, exec_wire_of_feed (by decide) ht hrun, rfl, ?keeps, ?out, ?trace, ?tmp, ?ctc, ?seq, ?req⟩
  case keeps => simp [KeepsForCommand]
  case out => simp [← map_rbyte_nine]
  case trace => simp [toList_nine]
  case tmp => simp
  case ctc => simp
  case seq => simp
  case req => simp

/-- Settles O56: the command byte, then the three writes of its data phase. -/
theorem writeScratchpadCommand : Obligations.WriteScratchpadCommand := by
  intro s p c b0 b1 b2 es ht he
  have hrun : feed s.env (s.goto [wire .writeScratchpad]) = feed es (advance .running []
      (primitive (.write .cfg) b2 (primitive (.write .tl) b1 (primitive (.write .th) b0 (primitive (.cmd 0x4E) c s))))) := by
    rw [he]
    refine (feed_command .writeScratchpad c _ s).trans ?_
    rw [behind_writeScratchpad, advance_bus (.write .th) rfl (by decide)]
    exact feed_threeWrites b0 b1 b2 [] es _
  refine ⟨_, exec_wire_of_feed (by decide) ht hrun, rfl, ?keeps, ?out, ?trace, ?tmp, ?ctc, ?seq, ?req⟩
  case keeps => simp [KeepsForCommand]
  case out => simp
  case trace => simp [writeByteOf]
  case tmp => simp
  case ctc => simp
  case seq => simp
  case req => simp

/-- Settles O57: the command byte, then the assisted wait of `T_EEPROM` ticks. -/
theorem copyScratchpadCommand : Obligations.CopyScratchpadCommand := by
  intro s p c es ht he hp
  have hrun : feed s.env (s.goto [wire .copyScratchpad]) =
      feed es (advance .running [] (afterAssist 10 (primitive (.cmd 0x48) c s))) := by
    rw [he]
    refine (feed_command .copyScratchpad c _ s).trans ?_
    rw [behind_copyScratchpad]
    exact feed_assist .eeprom [] es (primitive (.cmd 0x48) c s)
  refine ⟨_, exec_wire_of_feed (by decide) ht hrun, rfl, ?keeps, ?out, ?trace, ?tmp, ?ctc, ?req, ?seq⟩
  case keeps => simp [KeepsForCommand, hp]
  case out => simp
  case trace => simp [assistDrives]
  case tmp => simp
  case ctc => simp
  case req => simp
  case seq =>
    by_cases hd : s.tmp.ext = false ∧ s.latch.pullupEn = true <;> simp [assistDrives, hd]

/-- Settles O58: both commands are their byte alone. -/
theorem commandsWithoutData : Obligations.CommandsWithoutData := by
  intro s p c es he
  have hconvert : feed s.env (s.goto [wire .convertT]) = feed es (advance .running [] (primitive (.cmd 0x44) c s)) := by
    rw [he]
    exact feed_command .convertT c es s
  have hrecall : feed s.env (s.goto [wire .recallEeprom]) = feed es (advance .running [] (primitive (.cmd 0xB8) c s)) := by
    rw [he]
    exact feed_command .recallEeprom c es s
  refine ⟨fun ht => ⟨_, exec_wire_of_feed (by decide) ht hconvert, rfl, ?_, rfl, rfl, rfl, ?_, rfl, rfl⟩,
    fun ht => ⟨_, exec_wire_of_feed (by decide) ht hrecall, rfl, ?_, rfl, rfl, rfl, ?_, rfl, rfl⟩⟩
  all_goals simp [KeepsForCommand]

/-- Settles O59: the command byte, then one slot. -/
theorem readPowerSupplyCommand : Obligations.ReadPowerSupplyCommand := by
  intro s p c b es ht he
  have hrun : feed s.env (s.goto [wire .readPowerSupply]) =
      feed es (advance .running [] (primitive .readBit b (primitive (.cmd 0xB4) c s))) := by
    rw [he]
    refine (feed_command .readPowerSupply c _ s).trans ?_
    rw [behind_readPowerSupply, advance_bus .readBit rfl (by decide)]
    exact feed_ack_goto .readBit rfl b es [] _
  refine ⟨_, exec_wire_of_feed (by decide) ht hrun, rfl, ?keeps, ?out, ?trace, ?tmp, ?ctc, ?seq, ?req⟩
  case keeps => simp [KeepsForCommand]
  case out => simp
  case trace => simp
  case tmp => simp
  case ctc => simp
  case seq => simp
  case req => simp

/-! ## No presence (R120, R214) -/

/-- A failure writes value registers and flags only, never `SP`, an operand, `COUNT` or `REG`. -/
theorem writeSentinels_keeps (s : State) (r : ResultKind) :
    (s.writeSentinels r).out.sp = s.out.sp ∧ (s.writeSentinels r).args = s.args ∧ (s.writeSentinels r).count = s.count ∧
      (s.writeSentinels r).reg = s.reg ∧ (s.writeSentinels r).seq = s.seq ∧ (s.writeSentinels r).trace = s.trace ∧
      (s.writeSentinels r).failKind = s.failKind ∧ (s.writeSentinels r).bus = s.bus := by
  cases r <;> exact ⟨rfl, rfl, rfl, rfl, rfl, rfl, rfl, rfl⟩

/-- Settles O60: the reset fails with kind Absent, the failure skips to the end of the operation, and the end writes
sentinels. -/
theorem absenceEndsTheOperation : Obligations.AbsenceEndsTheOperation := by
  intro s p q r es hb ht hr hresolve hfinish hp he
  have hh : ∀ e, s.env.head? = some e → e.ofHost = false := by
    rw [he]
    rintro e ⟨⟩
    rfl
  let X : State := (primitive .reset p s).raise .absent
  have hstep : step s = .next { (X.writeSentinels r).endOp false with env := es } := by
    rw [step_inside_bus s .reset _ hb ht rfl (by decide) (by simp) hh, he, feed_reset_absent p hp,
      skip_to_finish r q .failing _ (by decide) hresolve hfinish, feed_finish, finish_failure _ r rfl hr]
  obtain ⟨hsp, hargs, hcount, hreg, hseq, htrace, hkind, hbus⟩ := writeSentinels_keeps X r
  refine ⟨_, hstep, rfl, rfl, rfl, hkind, ?seq, htrace.trans ?trace, hsp.trans ?sp, (congrArg BusPort.req hbus).trans ?req,
    hargs.trans ?args, hcount.trans ?count, hreg.trans ?reg⟩
  case seq => simp [hseq, X, hp]
  all_goals simp [X, hp]

end Sys2Proof.Machine
end

section
/-! PROOFS. SET_RES (43_config.md R162): its argument test, every run that ends at the verified write, and every run that goes on
to the copy. -/

namespace Sys2Proof.Machine

/-! ## The three procedures of SET_RES -/

theorem exec_setRes (s : State) : exec .setRes s = .next (runProc (setResProc s.latch) s) := rfl

/-- A rejected argument (R106, R162): the procedure is the failure and the end. -/
theorem setResProc_of_illegal {l : Latches} (h : resValid l.res = false) : setResProc l = [.fail .badArg, .finish .plain] :=
  if_neg (Bool.eq_false_iff.mp h)

/-- What follows the verified write: the copy when `PERSIST` was latched, and the end. -/
def afterUpdate (l : Latches) : List Micro := (if l.persist then spCopy else []) ++ [.finish .plain]

theorem setResProc_of_legal {l : Latches} (h : resValid l.res = true) :
    setResProc l = spRead ++ .loadRes :: spWrite ++ afterUpdate l := by
  unfold setResProc afterUpdate
  rw [if_pos h]
  simp only [List.append_assoc, List.cons_append, List.nil_append]

/-- Settles O43: the argument fails before any primitive, so that SEQ reaches the end of the operation at once. -/
theorem setResRejectsBadArgument : Obligations.SetResRejectsBadArgument := by
  intro s h
  have hrun : exec .setRes s = .next ((s.raise .badArg).finish .plain) := by
    rw [exec_setRes, setResProc_of_illegal h, runProc, resume, settle_goto]
    exact congrArg Host.Outcome.next (feed_finish s.env (s.raise .badArg) .plain)
  exact ⟨_, hrun, rfl, ⟨rfl, rfl, rfl⟩, ⟨rfl, rfl, rfl, rfl, rfl, rfl, rfl, rfl, fun _ => rfl⟩, rfl, rfl, rfl, rfl⟩

/-- The update of SET_RES in every run: what it leaves, and the course SEQ goes on with. -/
theorem runProc_setRes_update {s : State} {u : UpdateRun} (hu : u.legal s.params = true)
    (hres : resValid s.latch.res = true) {es : List Event} (he : s.env = u.events ++ es) :
    ∃ X, runProc (setResProc s.latch) s =
        feed es (advance (Course.of (u.kind s.params (setResBytes s.params s.latch))) (afterUpdate s.latch) X) ∧
      Concluded (u.kind s.params (setResBytes s.params s.latch)) s X ∧ X.out = { s.out with sp := u.spAfter s.out.sp } ∧
      X.trace = s.trace ++ u.trace s.latch.addr (setResBytes s.params s.latch) ∧ X.bus.req = false ∧ X.ctc = s.ctc := by
  obtain ⟨X, hfeed, hsame, hctc, hreq, hout, htrace, hok, hkind⟩ :=
    feed_update .loadRes setResBytes loadRes_adv rfl u (afterUpdate s.latch) es s hu
  refine ⟨X, ?run, ⟨hsame, hok, hkind⟩, hout, htrace, hreq, hctc⟩
  rw [← hfeed, ← he, setResProc_of_legal hres, List.append_assoc]
  exact runProc_spRead (.loadRes :: spWrite ++ afterUpdate s.latch) s

/-- Without `PERSIST`, or after a failure, SEQ goes from the update to the end (R162, R214). -/
theorem advance_afterUpdate {k : Option FailKind} {l : Latches} (h : l.persist = false ∨ k.isSome = true) (X : State) :
    advance (Course.of k) (afterUpdate l) X = advance (Course.of k) [.finish .plain] X := by
  unfold afterUpdate
  split
  · next hp =>
    have hk : k.isSome = true := h.resolve_left (by simp [hp])
    rw [Course.of_isSome hk]
    exact advance_failing spCopy _ X (by simp [Course.skips, spCopy, powerQuery, txnStart, wire])
  · rfl

/-- Settles O41: the update concludes as its read or its verified write does, SEQ skips the copy if there is one, and the
operation ends so. -/
theorem setResRuns : Obligations.SetResRuns := by
  refine ⟨by decide, fun s u es hu hres hend he => ?_⟩
  obtain ⟨X, hrun, hconcluded, hout, htrace, hreq, hctc⟩ := runProc_setRes_update hu hres he
  rw [advance_afterUpdate hend] at hrun
  have hends := plain_operation_ends hrun hconcluded
  rw [hout, htrace, hreq, hctc] at hends
  exact hends

/-! ## The copy (R127, R162) -/

/-- Two sub-procedures in a row, the first a success: the whole concludes as the second does. -/
theorem Concluded.trans {k : Option FailKind} {s X Y : State} (h : Concluded none s X) (g : Concluded k X Y) :
    Concluded k s Y := by
  obtain ⟨hs, _, hkind⟩ := h
  obtain ⟨gs, gok, gkind⟩ := g
  refine ⟨⟨gs.cmd.trans hs.cmd, gs.status.trans hs.status, gs.pullupEn.trans hs.pullupEn, gs.args.trans hs.args,
    gs.count.trans hs.count, gs.reg.trans hs.reg, gs.latch.trans hs.latch, gs.hostRd.trans hs.hostRd,
    gs.params.trans hs.params, gs.op.trans hs.op⟩, gok, ?_⟩
  rw [gkind, hkind]
  rfl

/-- Settles O42: the verified write is followed by the copy, which concludes the procedure; the operation ends as the copy
does. -/
theorem setResPersistRuns : Obligations.SetResPersistRuns := by
  intro s u c es hu hc hres hpersist hkind he hp
  obtain ⟨X, hrun, hwritten, hout, htrace, hreq, hctc⟩ := runProc_setRes_update hu hres he
  rw [hkind] at hrun hwritten
  have hcopy : runProc (setResProc s.latch) s = feed es (advance (Course.of c.kind) [.finish .plain] (c.after X)) := by
    have hprocedure : afterUpdate s.latch = spCopy ++ [.finish .plain] := by simp [afterUpdate, hpersist]
    rw [hrun, hprocedure, ← feed_spCopy c hc]
    rfl
  have hcopied := c.concludes X hc (by rw [hwritten.same.status]; exact hp)
  have hends := plain_operation_ends hcopy (hwritten.trans hcopied)
  rw [c.after_out X hc, c.after_trace X hc, c.after_req X hc, c.after_ctc X, hout, htrace, hctc, hwritten.same.latch] at hends
  exact hends

end Sys2Proof.Machine
end

section
/-! PROOFS. DISCOVER and GET_ADDR (45_registry.md R191 to R195), from what the searches of DISCOVER leave (Laws/Registry.lean). -/

namespace Sys2Proof.Machine

/-! ## The end of DISCOVER (R191) -/

/-- How DISCOVER ends when it stored `v`. -/
def discoverKind (v : List RomAddr) : Option FailKind := if v = [] then some .noDevice else none

/-- The end of DISCOVER writes `t_ok`, the flags and the kind, by `COUNT`. -/
theorem finish_count_eq (s : State) {v : List RomAddr} (hv : s.count.toNat = v.length) :
    ∃ x, s.finish .count =
      { s with
        tmp := x
        status := { s.status with busy := false, ok := (discoverKind v).isNone }
        seq := { op := s.seq.op, step := 0, todo := [] }
        failKind := discoverKind v } := by
  have hempty : s.count = 0 ↔ v = [] := by
    rw [← List.length_eq_zero_iff, ← hv, ← BitVec.toNat_inj]
    rfl
  rw [finish_count]
  unfold discoverKind
  by_cases hc : s.count = 0
  · rw [if_pos hc, if_pos (hempty.mp hc)]
    exact ⟨_, rfl⟩
  · rw [if_neg hc, if_neg (hempty.not.mp hc)]
    exact ⟨_, rfl⟩

/-- The searches of DISCOVER start at `COUNT = 0` with the search reset made. -/
def searchesStart (s : State) (z : Answer) : State := primitive .searchReset z { s with count := 0 }

/-- From there the entries are stored from the first one on. -/
theorem stored_from_start {v : List RomAddr} {s Y : State} {z : Answer} (h : Stored v (searchesStart s z) Y) :
    Y.count.toNat = v.length ∧ (∀ (j : Nat) (hj : j < v.length), readEntry Y.reg j = v[j]) ∧
      ∀ k, 8 * v.length ≤ k → Memory.read Y.reg k = Memory.read s.reg k := by
  have hzero : (searchesStart s z).count.toNat = 0 := rfl
  have hcount := h.count
  have hentries := h.entries
  have hbytes := h.bytes
  simp only [hzero, Nat.zero_add, Nat.mul_zero] at hcount hentries hbytes
  exact ⟨hcount, hentries, fun k hk => hbytes k (.inr hk)⟩

/-- DISCOVER ends with what its searches stored (R191, R193). -/
theorem discovered_of_stored {found : List Answer} {s Y : State} {z : Answer} (es : List Event)
    (h : Stored (validOnes s.params found) (searchesStart s z) Y) (hreq : Y.bus.req = false) :
    Discovered found s { Y.finish .count with env := es } ∧
      ({ Y.finish .count with env := es } : State).trace = Y.trace := by
  obtain ⟨hcount, hentries, hbytes⟩ := stored_from_start h
  have hrest : Rest s Y := (stored_start s z).trans h.toRest
  obtain ⟨x, hx⟩ := finish_count_eq Y hcount
  rw [hx]
  have hended : EndedWith (discoverKind (validOnes s.params found)) s
      { Y with
        tmp := x
        status := { Y.status with busy := false, ok := (discoverKind (validOnes s.params found)).isNone }
        seq := { op := Y.seq.op, step := 0, todo := [] }
        failKind := discoverKind (validOnes s.params found)
        env := es } := by
    refine ⟨?_, ?_, rfl⟩
    · simp only [hrest.status]
    · simp only [hrest.op]
  exact ⟨⟨hended, count_eq hcount, hentries, hbytes, h.wf, hrest.out, hrest.args, hrest.cmd, hrest.pullupEn, hrest.latch,
    hrest.hostRd, hrest.params, hrest.ctc, hreq⟩, rfl⟩

/-! ## The searches of DISCOVER (R191 to R194) -/

/-- DISCOVER through the search reset and the candidates `found`, the registry having room: it stands at its next search. -/
theorem exec_discover_searches {s : State} {z : Answer} {found : List Answer} {es : List Event}
    (hflags : ∀ a ∈ found, a.rflag = true) (hroom : (validOnes s.params found).length < s.params.maxDev)
    (hwf : Memory.wf s.reg = true) (he : s.env = .ack z :: (acks found ++ es)) :
    ∃ Y, exec .discover s = .next (feed es (Y.goto discoverLoop)) ∧
      Stored (validOnes s.params found) (searchesStart s z) Y ∧
      Y.trace = s.trace ++ (.searchReset :: searchTrace found) := by
  have hparams : (searchesStart s z).params = s.params := (stored_start s z).params
  obtain ⟨Y, hfeed, hstored, htrace⟩ := feed_searches es found (searchesStart s z) hflags hwf
    (by rw [hparams]; exact (Nat.zero_add _).symm ▸ hroom)
  rw [hparams] at hstored
  refine ⟨Y, ?_, hstored, ?_⟩
  · rw [discover_start s z _ he, ← hfeed]
    rfl
  · rw [htrace]
    exact List.append_assoc _ _ _

/-- A search that reports no more devices ends the loop (R191). -/
theorem feed_search_none {a : Answer} (ha : a.rflag = false) (es : List Event) (Y : State) :
    feed (.ack a :: es) (Y.goto discoverLoop) = { (primitive .discover a Y).finish .count with env := es } := by
  have hbehind : behind Y.params.crc .discover a [.finish .count] = [.finish .count] := by simp [behind, ha]
  rw [feed_ack_goto .discover rfl, hbehind, advance_finish, feed_finish]

/-- It stores nothing. -/
theorem stored_search_none {a : Answer} (ha : a.rflag = false) {v : List RomAddr} {X Y : State} (h : Stored v X Y) :
    Stored v X (primitive .discover a Y) ∧ (primitive .discover a Y).bus.req = false ∧
      (primitive .discover a Y).trace = Y.trace ++ [.search false none] := by
  have heq : primitive .discover a Y = (lower (requestOf .discover Y)).log (.search false none) := by
    simp [primitive, effect, ha]
  rw [heq]
  obtain ⟨⟨h1, h2, h3, h4, h5, h6, h7, h8, h9, h10, h11⟩, hcount, hentries, hbytes, hwf⟩ := h
  exact ⟨⟨⟨h1, h2, h3, h4, h5, h6, h7, h8, h9, h10, h11⟩, hcount, hentries, hbytes, hwf⟩, rfl, rfl⟩

/-- Settles O49: the searches store the valid candidates in order, the last one stores nothing, and DISCOVER ends. -/
theorem discoverEnumerates : Obligations.DiscoverEnumerates := by
  refine ⟨by decide, fun s z stop found es hflags hstop hroom hwf he => ?_⟩
  obtain ⟨Y, hrun, hstored, htrace⟩ := exec_discover_searches hflags hroom hwf he
  obtain ⟨hstored', hreq, htrace'⟩ := stored_search_none hstop hstored
  obtain ⟨hdiscovered, hend⟩ := discovered_of_stored es hstored' hreq
  rw [feed_search_none hstop] at hrun
  refine ⟨_, hrun, rfl, hdiscovered, ?_⟩
  rw [hend, htrace', htrace, List.append_assoc, List.cons_append]

/-- Settles O50: the search that fills the registry is the last one, and the loop ends behind it. -/
theorem discoverStopsAtCapacity : Obligations.DiscoverStopsAtCapacity := by
  intro s z last found es hflags hlast hvalid hfull hwf he
  have hflags' : ∀ a ∈ found, a.rflag = true := hflags
  rw [acks, List.map_append, List.append_assoc] at he
  obtain ⟨Y, hrun, hstored, htrace⟩ := exec_discover_searches hflags' (by omega) hwf he
  have hcount := (stored_from_start hstored).1
  have hparams : Y.params = s.params := ((stored_start s z).trans hstored.toRest).params
  have hlastValid : validOnes Y.params [last] = [candidateOf last] := by simp [validOnes, hparams, hvalid]
  have hmax := maxDev_le s.params
  obtain ⟨Z, hfeed, hstored', htrace', hreq⟩ := feed_search_one last hlast es Y hstored.wf
    (by rw [hlastValid, hcount, List.length_singleton]; omega)
  have hall : validOnes s.params (found ++ [last]) = validOnes s.params found ++ validOnes Y.params [last] := by
    simp [validOnes, hparams]
  have hwhole : Stored (validOnes s.params (found ++ [last])) (searchesStart s z) Z := by
    rw [hall]
    exact hstored.append hstored'
  have hended : advance .running discoverLoop Z = Z.finish .count := by
    have hZ : ¬ Z.count.toNat < Z.params.maxDev := by
      rw [(stored_from_start hwhole).1, hstored'.params, hparams, hall, hlastValid, List.length_append, List.length_singleton]
      omega
    show (if Z.count.toNat < Z.params.maxDev then Z.goto discoverLoop else advance .running [.finish .count] Z) = _
    rw [if_neg hZ, advance_finish]
  obtain ⟨hdiscovered, hend⟩ := discovered_of_stored es hwhole hreq
  have hstep : exec .discover s = .next { Z.finish .count with env := es } := by
    rw [hrun, ← feed_finish, ← hended, ← hfeed]
    rfl
  refine ⟨_, hstep, rfl, hdiscovered, ?ok, ?trace⟩
  case ok =>
    have hstatus := hdiscovered.1.status_ok
    rw [hstatus, if_neg (by rw [hall, hlastValid]; simp)]
    rfl
  case trace =>
    rw [hend, htrace', htrace]
    simp [searchTrace]

/-- `t` is `s` with another content of `REG`. -/
def SameButReg (s t : State) : Prop := ∃ m, t = { s with reg := m }

/-- No move of a procedure reads `REG`. -/
theorem sim_reg : Sim SameButReg := by
  constructor
  case tmp | goto | env | tick | raise => rintro s _ x ⟨m, rfl⟩; exact ⟨m, rfl⟩
  case openAssist => rintro s _ n ⟨m, rfl⟩; unfold openAssist assistDrives; dsimp only; split <;> exact ⟨m, rfl⟩
  case closeAssist => rintro s _ n ⟨m, rfl⟩; unfold closeAssist assistDrives; dsimp only; split <;> exact ⟨m, rfl⟩
  case finish => rintro s _ r ⟨m, rfl⟩; cases r <;> simp only [State.finish] <;> split <;> exact ⟨m, rfl⟩
  case request => rintro p s _ ⟨m, rfl⟩; cases p <;> exact ⟨m, rfl⟩
  case effect =>
    rintro p a s _ ⟨m, rfl⟩
    cases p
    case reset =>
      show SameButReg (if a.rflag then _ else _) (if a.rflag then _ else _)
      split <;> exact ⟨m, rfl⟩
    case discover | alarmSearch =>
      show SameButReg (if a.rflag then (if romValid s.params.crc _ then _ else _) else _)
        (if a.rflag then (if romValid s.params.crc _ then _ else _) else _)
      repeat' split
      all_goals exact ⟨_, rfl⟩
    all_goals exact ⟨m, rfl⟩
  all_goals rintro s _ ⟨_, rfl⟩; rfl

/-- Settles O51: with the events used up SEQ stands at its next search and requests it; what `REG` held before, in canonical form
or not, plays no part in that. -/
theorem discoverMayNotEnd : Obligations.DiscoverMayNotEnd := by
  intro s z found hflags hroom he
  obtain ⟨Y, hrun, hstored, htrace⟩ := exec_discover_searches (s := { s with reg := [] }) (es := []) hflags hroom rfl
    (by rw [List.append_nil]; exact he)
  have hrest : Rest { s with reg := [] } Y := (stored_start _ z).trans hstored.toRest
  have hsim : SameButReg (runProc discoverProc { s with count := 0 }) (runProc discoverProc { s with reg := [], count := 0 }) :=
    sim_reg.runProc (by rintro s _ ⟨m, rfl⟩; rfl) _ _ _ ⟨[], rfl⟩
  have hlast : runProc discoverProc { s with reg := [], count := 0 } = { request (Y.goto discoverLoop) with env := [] } :=
    Host.Outcome.next.inj hrun
  obtain ⟨m, hm⟩ := hsim
  rw [hm] at hlast
  exact ⟨_, rfl, (congrArg State.status hlast).trans hrest.status, congrArg State.env hlast,
    (congrArg State.count hlast).trans (count_eq (stored_from_start hstored).1), congrArg (·.seq.todo) hlast,
    congrArg (·.bus.req) hlast, congrArg (·.bus.op) hlast, congrArg (·.bus.flag) hlast,
    (congrArg State.trace hlast).trans htrace⟩

/-! ## GET_ADDR (R195) -/

/-- Settles O52: an index below `COUNT` is below `MAXDEV`, so that the entry is there; any other fails. -/
theorem getAddrRuns : Obligations.GetAddrRuns := by
  refine ⟨by decide, fun s hcount => ?_⟩
  simp only [exec, execGetAddr]
  by_cases hidx : s.latch.idx.toNat < s.count.toNat
  · have hmax : s.latch.idx.toNat < s.params.maxDev := by omega
    rw [if_pos hidx, if_pos hmax, if_pos hidx]
    rfl
  · rw [if_neg hidx, if_neg hidx]
    rfl

end Sys2Proof.Machine
end

section
/-! PROOFS. The CRC-8 (40_crc.md R111 to R114), from its algebra in Laws/Checksum.lean, and the CRC helper on a whole byte
sequence (R117). -/

namespace Sys2Proof.Machine

/-! ## The definition (R111, R112, R114) -/

/-- The running checksum is the fold of the update. -/
theorem crcFrom_eq_foldl (f : CrcFunction) (acc : Byte) (bs : List Byte) : crcFrom f acc bs = bs.foldl (crcUpd f) acc := by
  induction bs generalizing acc with
  | nil => rfl
  | cons b bs ih => exact ih (crcUpd f acc b)

/-- An address, byte by byte. -/
theorem romAddr_toList (a : RomAddr) : a.toList = [a[0], a[1], a[2], a[3], a[4], a[5], a[6], a[7]] :=
  congrArg Vector.toList (romAddr_eta a).symm

theorem romValid_iff (f : CrcFunction) (a : RomAddr) : romValid f a = true ↔ crc8 f (a.toList.take 7) = a[7] := by
  rw [romValid, beq_iff_eq, romAddr_toList]
  rfl

theorem spValid_iff (f : CrcFunction) (sp : Scratchpad) : spValid f sp = true ↔ crc8 f (sp.toList.take 8) = sp[8] := by
  rw [spValid, beq_iff_eq, toList_nine]
  rfl

/-- Settles O29: the update and one shift are R112's by definition, the checksum is a fold, and the predicates compare it with
the last byte. -/
theorem crcDefinition : Obligations.CrcDefinition :=
  ⟨fun _ => rfl, fun _ _ => rfl, fun f bs => crcFrom_eq_foldl f 0x00 bs, romValid_iff, spValid_iff⟩

/-! ## The properties R113 lists -/

/-- Appending a byte gives 0 exactly when it is the checksum. -/
theorem crc8_append_eq_zero (bs : List Byte) (b : Byte) :
    crc8 .dallasMaxim (bs ++ [b]) = 0x00 ↔ crc8 .dallasMaxim bs = b := by
  unfold crc8
  rw [crcFrom_append]
  exact crcUpd_eq_zero _ b

/-- One bit of a byte is no zero byte. -/
theorem bit_ne_zero : ∀ j < 8, (1#8) <<< j ≠ 0 := by decide

theorem spValid_iff_crc8_eq_zero (sp : Scratchpad) :
    spValid .dallasMaxim sp = true ↔ crc8 .dallasMaxim sp.toList = 0x00 := by
  have hsplit : sp.toList = sp.toList.take 8 ++ [sp[8]] := by rw [toList_nine]; rfl
  rw [spValid_iff, hsplit, crc8_append_eq_zero, ← hsplit]

theorem crc8_xor (as bs : List Byte) (h : as.length = bs.length) :
    crc8 .dallasMaxim (List.zipWith (· ^^^ ·) as bs) = crc8 .dallasMaxim as ^^^ crc8 .dallasMaxim bs :=
  crcFrom_xor 0x00 0x00 as bs h

/-- Settles O28: a changed byte changes the running checksum, the update vanishes only on its accumulator, zeros keep zero, and
the fold is linear; the values on constant data are computed. -/
theorem crcProperties : Obligations.CrcProperties := by
  refine ⟨fun bs k hk j hj => crcFrom_flip 0x00 bs k hk _ (bit_ne_zero j hj), fun bs => (crc8_append_eq_zero bs _).mpr rfl,
    spValid_iff_crc8_eq_zero, fun n => (crcFrom_zeros 0x00 n).mpr rfl, ?_, ?_, ?_, ?_, ?_, ?_, crc8_xor⟩
  all_goals decide +kernel

/-! ## The CRC helper (R117) -/

/-- The pushes of a byte sequence fold the update over `CRC_ACC`. -/
theorem pushAll_eq (bs : List Byte) (s : State) : ∃ t, pushAll bs s = .next t ∧
    t.out = { s.out with crcAcc := crcFrom s.params.crc s.out.crcAcc bs } ∧ t.trace = s.trace ∧ t.reg = s.reg ∧
      t.args = s.args := by
  induction bs generalizing s with
  | nil => exact ⟨s, rfl, rfl, rfl, rfl, rfl⟩
  | cons b bs ih =>
    obtain ⟨t, hpush, hout, htrace, hreg, hargs⟩ := ih
      (({ s with
          latch := { s.latch with byte := b }
          out := { s.out with crcAcc := crcUpd s.params.crc s.out.crcAcc b } } : State).endOp true)
    exact ⟨t, hpush, hout, htrace, hreg, hargs⟩

/-- Settles O32: CRC_CLR starts the fold at 0x00, and the pushes fold the bytes in order. -/
theorem crcHelperComputesCrc8 : Obligations.CrcHelperComputesCrc8 := by
  intro bs s
  obtain ⟨t, hpush, hout, htrace, hreg, hargs⟩ := pushAll_eq bs ({ s with out := { s.out with crcAcc := 0x00 } }.endOp true)
  exact ⟨_, t, exec_crcClr s, hpush, congrArg Results.crcAcc hout, hout, htrace, hreg, hargs⟩

end Sys2Proof.Machine
end

section
/-! PROOFS. The resolution tables (30_encoding.md R102 to R106) and the float pattern of a raw temperature (42_conversion.md R148
to R150). -/

namespace Sys2Proof.Machine

/-! ## Resolutions (R102 to R106, R142, R163) -/

theorem resValid_iff (r : Byte) : resValid r = true ↔ r = 9 ∨ r = 10 ∨ r = 11 ∨ r = 12 := by
  simp [resValid, or_assoc]

/-- Decoding adds the two bits of the field to 9 (R103). -/
theorem resDecode_eq (l : CfgLayout) (c : Byte) :
    resDecode l c = 9 + (c.extractLsb' l.resLsb.val 2).setWidth 8 := by
  unfold resDecode
  generalize c.extractLsb' l.resLsb.val 2 = r
  revert r
  decide

theorem resDecode_toNat (l : CfgLayout) (c : Byte) : (resDecode l c).toNat = 9 + (c.toNat / 2 ^ l.resLsb.val) % 4 := by
  have hfield : (c.extractLsb' l.resLsb.val 2).toNat = (c.toNat / 2 ^ l.resLsb.val) % 4 := by
    rw [BitVec.extractLsb'_toNat, Nat.shiftRight_eq_div_pow]
  rw [resDecode_eq, BitVec.toNat_add, BitVec.toNat_setWidth, hfield]
  show (9 + _) % 256 = _
  omega

theorem resValid_resDecode (l : CfgLayout) (c : Byte) : resValid (resDecode l c) = true := by
  rw [resDecode_eq]
  generalize c.extractLsb' l.resLsb.val 2 = r
  revert r
  decide

/-- Where the mask of the field finds no bit, the field reads 0. -/
theorem extractLsb'_eq_zero_of_mask {c : Byte} {lsb : Fin 7} (hmask : c &&& (3 <<< lsb.val) = 0#8) :
    c.extractLsb' lsb.val 2 = 0#2 := by
  have hones : ∀ lsb : Fin 7, (3 <<< lsb.val : Byte).extractLsb' lsb.val 2 = BitVec.allOnes 2 := by decide
  have hfield := congrArg (BitVec.extractLsb' lsb.val 2) hmask
  rwa [BitVec.extractLsb'_and, hones, BitVec.and_allOnes, BitVec.extractLsb'_zero] at hfield

/-- Decoding the field of a legal resolution put in place gives it back. -/
theorem resDecode_field {r : Byte} (hr : resValid r = true) (lsb : Fin 7) :
    9 + (((r - 9) <<< lsb.val).extractLsb' lsb.val 2).setWidth 8 = r := by
  rcases (resValid_iff r).mp hr with rfl | rfl | rfl | rfl <;> revert lsb <;> decide

/-- Where the fixed bits leave the field alone, decoding gives back what was encoded (R163). -/
theorem resDecode_cfgEncode {l : CfgLayout} {r : Byte} (hfield : l.fixed &&& (3 <<< l.resLsb.val) = 0)
    (hr : resValid r = true) : resDecode l (cfgEncode l r) = r := by
  rw [resDecode_eq, cfgEncode, BitVec.extractLsb'_or, extractLsb'_eq_zero_of_mask hfield, BitVec.or_zero]
  exact resDecode_field hr l.resLsb

theorem tConv_eq_750 {r : Byte} (h9 : r ≠ 9) (h10 : r ≠ 10) (h11 : r ≠ 11) : tConv r = 750 := by
  unfold tConv
  rw [if_neg h9, if_neg h10, if_neg h11]

/-- Settles O40: decoding adds the field to 9, and the field holds the resolution less 9 where the fixed bits leave it free. -/
theorem resolutionTables : Obligations.ResolutionTables := by
  refine ⟨by decide, resValid_iff, resDecode_toNat .standard, fun l c => ⟨resDecode_toNat l c, resValid_resDecode l c⟩,
    fun l r hfield hr => resDecode_cfgEncode hfield hr, rfl, rfl, rfl, fun r => tConv_eq_750⟩

/-! ## The float pattern of a raw temperature (R148 to R150) -/

theorem rawOf_toNat (sp : Scratchpad) : (rawOf sp).toNat = sp[0].toNat + 256 * sp[1].toNat := by
  unfold rawOf
  rw [BitVec.toNat_append, ← Nat.shiftLeft_add_eq_or_of_lt sp[0].isLt, Nat.shiftLeft_eq]
  omega

theorem natAbs_toInt_pos {raw : BitVec 16} (h : raw ≠ 0) : 0 < raw.toInt.natAbs := by
  refine Int.natAbs_pos.mpr fun hzero => h ?_
  exact BitVec.eq_of_toInt_eq (by simpa using hzero)

theorem natAbs_toInt_lt (raw : BitVec 16) : raw.toInt.natAbs < 2 ^ 16 := by
  have hlt := raw.isLt
  rw [BitVec.toInt_eq_toNat_cond]
  split <;> omega

/-- The significand of a magnitude whose highest bit is `e`, without that bit, moved up to bit 22. -/
def fraction (m e : Nat) : Nat :=
  (m - 2 ^ e) * 2 ^ (23 - e)

/-- With the hidden bit the significand is the magnitude itself, moved up. -/
theorem hidden_add_fraction {m e : Nat} (hlow : 2 ^ e ≤ m) (he : e ≤ 15) : 2 ^ 23 + fraction m e = m * 2 ^ (23 - e) := by
  have hhidden : (2 : Nat) ^ 23 = 2 ^ e * 2 ^ (23 - e) := by rw [← Nat.pow_add]; congr 1; omega
  rw [fraction, hhidden, ← Nat.add_mul, Nat.add_sub_cancel' hlow]

theorem fraction_lt {m e : Nat} (hlow : 2 ^ e ≤ m) (hhigh : m < 2 ^ (e + 1)) (he : e ≤ 15) : fraction m e < 2 ^ 23 := by
  have hsum := hidden_add_fraction hlow he
  have htop : m * 2 ^ (23 - e) < 2 ^ (e + 1) * 2 ^ (23 - e) := Nat.mul_lt_mul_of_pos_right hhigh (Nat.two_pow_pos _)
  have hpow : (2 : Nat) ^ (e + 1) * 2 ^ (23 - e) = 2 ^ 24 := by rw [← Nat.pow_add]; congr 1; omega
  omega

/-- The three fields of the pattern (R150): sign, exponent and fraction, each in its own bits. -/
theorem f32_fields {raw : BitVec 16} (h : raw ≠ 0) : ∃ e, e ≤ 15 ∧ 2 ^ e ≤ raw.toInt.natAbs ∧
    fraction raw.toInt.natAbs e < 2 ^ 23 ∧
    (f32 raw).toNat = (if raw.msb then 2 ^ 31 else 0) + (123 + e) * 2 ^ 23 + fraction raw.toInt.natAbs e := by
  obtain ⟨hlow, hhigh, he⟩ := topBit_spec raw.toInt.natAbs 15 (natAbs_toInt_pos h) (natAbs_toInt_lt raw)
  have hfraction := fraction_lt hlow hhigh he
  refine ⟨topBit raw.toInt.natAbs 15, he, hlow, hfraction, ?_⟩
  unfold f32
  rw [if_neg h]
  have hbias : 127 + topBit raw.toInt.natAbs 15 - 4 = 123 + topBit raw.toInt.natAbs 15 := by omega
  rw [BitVec.toNat_ofNat, hbias]
  refine Nat.mod_eq_of_lt ?_
  unfold fraction at hfraction
  split <;> omega

/-- Settles O39: the exponent field is 123 plus the highest bit of |raw|, and the significand is |raw| moved up to bit 23, so
no bit of it is lost. -/
theorem floatIsExactlyRawOverSixteen : Obligations.FloatIsExactlyRawOverSixteen := by
  refine ⟨rawOf_toNat, rfl, fun raw h => ?_⟩
  obtain ⟨e, he, hlow, hfraction, hfields⟩ := f32_fields h
  have hexp : (f32 raw).toNat / 2 ^ 23 % 256 = 123 + e := by rw [hfields]; split <;> omega
  have hmantissa : (f32 raw).toNat % 2 ^ 23 = fraction raw.toInt.natAbs e := by rw [hfields]; split <;> omega
  have hsign : (f32 raw).msb = raw.msb := by
    rw [BitVec.msb_eq_decide, hfields]
    cases raw.msb <;> simp <;> omega
  rw [hexp, hmantissa]
  refine ⟨hsign, by omega, by omega, ?_⟩
  calc (2 ^ 23 + fraction raw.toInt.natAbs e) * 2 ^ (123 + e + 4)
      = raw.toInt.natAbs * (2 ^ (23 - e) * 2 ^ (123 + e + 4)) := by rw [hidden_add_fraction hlow he, Nat.mul_assoc]
    _ = raw.toInt.natAbs * 2 ^ 150 := by rw [← Nat.pow_add]; congr 2; omega

end Sys2Proof.Machine
end

section
/-! PROOFS. Accesses of the host during an operation (00_scope.md R12, 10_state.md R34): the steps with them come to rest where
the steps without them do. -/

namespace Sys2Proof.Machine

/-! ## Runs that come to rest -/

/-- The steps from `s` come to rest in `d`, but for the host port's read value and the accesses still to come; exactly in `d`
when no access comes. -/
def RestsAt (s d : State) : Prop :=
  ∃ m u, runSteps m s = .next u ∧ AtRest u ∧ d = { u with hostRd := d.hostRd, env := withoutAccesses u.env } ∧
    (withoutAccesses s.env = s.env → u = d)

theorem runSteps_succ {s t : State} (hb : s.status.busy = true) (hstep : step s = .next t) (m : Nat) :
    runSteps (m + 1) s = runSteps m t := by
  rw [runSteps, if_pos hb, hstep]

/-- A step of SEQ leaves a rest of the events, so no access among them comes to be. -/
theorem RestsAt.of_step {s t d : State} (hb : s.status.busy = true) (hstep : step s = .next t) (henv : t.env <:+ s.env)
    (ht : RestsAt t d) : RestsAt s d := by
  obtain ⟨m, u, hrun, hrest, hd, hcut⟩ := ht
  refine ⟨m + 1, u, (runSteps_succ hb hstep m).trans hrun, hrest, hd, fun hs => hcut ?_⟩
  exact withoutAccesses_rest (hs.symm ▸ henv)

/-- An access can change the read value alone. -/
theorem RestsAt.of_access {s t d : State} {e : Event} {es : List Event} {r : Byte} (hb : s.status.busy = true)
    (hstep : step s = .next t) (he : s.env = e :: es) (ha : e.isAccess = true) (ht : RestsAt t { d with hostRd := r }) :
    RestsAt s d := by
  obtain ⟨m, u, hrun, hrest, hd, -⟩ := ht
  refine ⟨m + 1, u, (runSteps_succ hb hstep m).trans hrun, hrest, ?_, fun hs => ?_⟩
  · exact congrArg (fun x : State => ({ x with hostRd := d.hostRd } : State)) hd
  · have hmem : e ∈ withoutAccesses s.env := by rw [hs, he]; exact List.mem_cons_self
    have hnot := (List.mem_filter.mp hmem).2
    simp [ha] at hnot

/-- While `BUSY` is 1 a write is ignored (R34), so an access changes nothing but the read value. -/
theorem step_access {s : State} {e : Event} {es : List Event} (hb : s.status.busy = true) (he : s.env = e :: es)
    (ha : e.isAccess = true) : ∃ r, step s = .next { s with env := es, hostRd := r } := by
  cases e with
  | hostRead r => exact ⟨_, step_hostRead he⟩
  | hostWrite r v =>
    refine ⟨s.hostRd, ?_⟩
    rw [step_host he rfl]
    exact congrArg Host.Outcome.next (hostWrite_of_busy (s := { s with env := es }) hb r v)
  | rst | ack a | tick | turn => cases ha

/-- The next event is an access, or it leaves the turn to SEQ. -/
theorem access_or_seq {s : State} (hr : .rst ∉ s.env) :
    (∃ e es, s.env = e :: es ∧ e.isAccess = true) ∨ ∀ e, s.env.head? = some e → e.ofHost = false := by
  cases he : s.env with
  | nil => exact .inr (by simp)
  | cons e es =>
    cases e with
    | rst => exact absurd (by rw [he]; exact List.mem_cons_self) hr
    | hostRead r => exact .inl ⟨_, es, rfl, rfl⟩
    | hostWrite r v => exact .inl ⟨_, es, rfl, rfl⟩
    | ack a => exact .inr fun e h => by cases h; rfl
    | tick => exact .inr fun e h => by cases h; rfl
    | turn => exact .inr fun e h => by cases h; rfl

/-! ## SEQ's step behind the start of an operation -/

/-- SEQ is behind the start of its operation. -/
def PastStart (s : State) : Prop :=
  ∀ m ∈ s.seq.todo, m ≠ .dispatch

theorem pastStart_runWire {s : State} {c : Byte} {i : Instr} (hs : PastStart s) (hi : decodeWire c = .instr i) :
    PastStart (runWire i s) := by
  have hz := (kept_inside.runProc [wire i] s (by rw [(wire_decode c i hi).1]; simp) trivial).2
  have htail : ∀ m ∈ s.seq.todo.tail, m ≠ .dispatch := fun m hm => hs m (List.mem_of_mem_tail hm)
  rw [runWire_resumed]
  unfold PastStart resumed
  split
  · exact (kept_inside.advance _ _ _ htail trivial).2
  · intro m hm
    rcases List.mem_append.mp hm with hm | hm
    · exact hz m hm
    · exact htail m hm

/-- A wire command takes its first event. -/
theorem runWire_env {c : Byte} {i : Instr} (hi : decodeWire c = .instr i) (s : State) :
    (runWire i s).env = (feed s.env (s.goto [.cmd c])).env := by
  rw [runWire_resumed, resumed_env, (wire_decode c i hi).1, runProc_bus (.cmd c) rfl (by simp)]

/-- A run in progress with an event of SEQ's side next takes it. -/
theorem feed_shorter {es : List Event} {z : State} (hz : z.seq.todo ≠ []) (hes : es ≠ [])
    (hh : ∀ e, es.head? = some e → e.ofHost = false) : (feed es z).env <:+ es.tail := by
  cases es with
  | nil => exact absurd rfl hes
  | cons e es => exact feed_takes e es z hz (hh e rfl)

/-- Behind the start a step of SEQ takes an event, if there is one, and keeps where the run is going. -/
theorem step_pastStart {s t : State} (h : Good False s) (hb : s.status.busy = true) (hs : PastStart s) (hr : .rst ∉ s.env)
    (hh : ∀ e, s.env.head? = some e → e.ofHost = false) (hne : s.env ≠ []) (hstep : step s = .next t) :
    PastStart t ∧ destination t = destination s ∧ t.env <:+ s.env.tail := by
  rcases position_cases h hb with ⟨ht, _⟩ | ⟨c, q, i, ht, hi⟩ | ⟨m, q, ht, hd, hc⟩
  · exact absurd rfl (hs .dispatch (by rw [ht]; exact List.mem_cons_self))
  · rw [step_wire hb hh ht hi, exec_wire c i hi] at hstep
    cases hstep
    refine ⟨pastStart_runWire hs hi, destination_runWire s c i q ht hi hr, ?_⟩
    rw [runWire_env hi]
    exact feed_shorter (by simp) hne hh
  · rw [step_inside hb hh (by simp [ht, hd]) (by rw [ht]; intro c q' hq; exact hc c (List.cons.inj hq).1),
      seqTurn_inside h hb m q ht hd] at hstep
    cases hstep
    exact ⟨(kept_inside.feed s.env s hs trivial).2, destination_feed s hr, feed_shorter (by simp [ht]) hne hh⟩

/-- Where SEQ can stand behind the start (R31). -/
theorem stands_of_pastStart {s : State} (h : Good False s) (hb : s.status.busy = true) (hs : PastStart s) :
    atPrimitive s = true ∨ inWait s = true := by
  cases ht : s.seq.todo with
  | nil =>
    have hpos := h.1.position hb
    rw [ht] at hpos
    cases hpos
  | cons m q =>
    have hd : m ≠ .dispatch := hs m (by rw [ht]; exact List.mem_cons_self)
    have hhead := (good_head h hb m q ht hd).2
    unfold atPrimitive inWait
    rw [ht]
    cases m with
    | waiting n => exact .inr rfl
    | dispatch => exact absurd rfl hd
    | cmd c => exact .inl rfl
    | _ => exact .inl hhead

/-- With nothing from the ports SEQ comes to rest with its request. -/
theorem restsAt_of_env_nil {s : State} (h : Good False s) (hb : s.status.busy = true) (hs : PastStart s) (he : s.env = []) :
    RestsAt s (destination s) := by
  have hat := stands_of_pastStart h hb hs
  obtain ⟨-, -, -, -, henv⟩ := good_request h
  have hdest : destination s = request s := by
    have hnil : ({ request s with env := [] } : State) = request s := by rw [← he, ← henv]
    rw [destination, he]
    exact hnil
  refine ⟨1, request s, runSteps_succ hb (step_waits h hb hat he) 0, .inr (step_request h hb hat he), ?_, fun _ => hdest.symm⟩
  rw [hdest, henv, he]
  exact congrArg (fun x => ({ request s with env := x } : State)) (henv.trans he)

/-- The end of an operation is at rest. -/
theorem restsAt_of_not_busy {s : State} (h : Good False s) (hb : s.status.busy = false) : RestsAt s (destination s) := by
  have hdest := destination_ended s (h.1.idleStep hb).1
  refine ⟨0, s, rfl, .inl hb, ?_, fun hs => ?_⟩
  · rw [hdest]
  · rw [hdest, hs]

/-- Behind the start the run with the accesses comes to rest at the destination of the run without them. -/
theorem restsAt_destination {s : State} (h : Good False s) (hs : PastStart s) (hr : .rst ∉ s.env) :
    RestsAt s (destination s) := by
  induction hlen : s.env.length using Nat.strong_induction_on generalizing s with
  | h n ih =>
    cases hb : s.status.busy with
    | false => exact restsAt_of_not_busy h hb
    | true =>
      rcases access_or_seq hr with ⟨e, es, he, ha⟩ | hh
      · obtain ⟨r, hstep⟩ := step_access hb he ha
        obtain ⟨t, hstep', hgood⟩ := good_step h
        rw [hstep] at hstep'
        cases hstep'
        refine RestsAt.of_access hb hstep he ha (r := r) ?_
        rw [← destination_access s e es r he ha]
        have hr' : .rst ∉ es := fun hm => hr (by rw [he]; exact List.mem_cons_of_mem e hm)
        exact ih es.length (by rw [← hlen, he]; simp) hgood hs hr' rfl
      · by_cases hne : s.env = []
        · exact restsAt_of_env_nil h hb hs hne
        · obtain ⟨t, hstep, hgood⟩ := good_step h
          obtain ⟨hpast, hdest, henv⟩ := step_pastStart h hb hs hr hh hne hstep
          have hsuffix := henv.trans (List.tail_suffix _)
          have hshorter : t.env.length < n := by
            have hle := henv.length_le
            have hpos := List.length_pos_iff.mpr hne
            rw [List.length_tail] at hle
            omega
          rw [← hdest]
          exact RestsAt.of_step hb hstep hsuffix (ih _ hshorter hgood hpast (fun hm => hr (hsuffix.subset hm)) rfl)

/-! ## The start of the operation, and the whole run -/

/-- No instruction changes the host port's read value. -/
theorem exec_hostRd_kept {i : Instr} {s t : State} (h : exec i s = .next t) : t.hostRd = s.hostRd := by
  obtain ⟨t', -, rfl⟩ := exec_hostRd i s t s.hostRd h
  rfl

/-- No run changes the host port's read value. -/
theorem destination_hostRd (s : State) : (destination s).hostRd = s.hostRd := by
  have hsame := congrArg State.hostRd (feed_seqSees s.hostRd (withoutAccesses s.env) s s ⟨s.env, rfl⟩)
  exact hsame

theorem exec_of_start {i : Instr} {s : State} (h : Good False s) (hb : s.status.busy = true) (ht : s.seq.todo = [.dispatch])
    (hi : decodeHost s.seq.op = .instr i) : ∃ t, exec i s = .next t ∧ Good False t :=
  exec_host_good (ready_of_good h hb _ _ ht (by simp) rfl) i (host_format _ i hi)

/-- At the start, with no access next, the operation comes to rest where its exec without any access stops. -/
theorem restsAt_exec_now {i : Instr} {s d : State} (h : Good False s) (hb : s.status.busy = true)
    (ht : s.seq.todo = [.dispatch]) (hi : decodeHost s.seq.op = .instr i) (hr : .rst ∉ s.env)
    (hh : ∀ e, s.env.head? = some e → e.ofHost = false)
    (hexec : exec i { s with env := withoutAccesses s.env } = .next d) : RestsAt s d := by
  have hf := host_format _ i hi
  obtain ⟨t, hrun, hgood⟩ := exec_of_start h hb ht hi
  obtain ⟨henv, hpast⟩ := exec_leaves i hf s t hrun
  rw [destination_exec i hf s t hr hrun] at hexec
  cases hexec
  refine RestsAt.of_step hb ((step_dispatch hb hh ht hi).trans hrun) henv ?_
  exact restsAt_destination hgood hpast fun hm => hr (henv.subset hm)

/-- At the start, past the accesses before the exec, the same. -/
theorem restsAt_exec {i : Instr} {es : List Event} : ∀ {s d : State}, s.env = es → Good False s → s.status.busy = true →
    s.seq.todo = [.dispatch] → decodeHost s.seq.op = .instr i → .rst ∉ s.env →
    exec i { s with env := withoutAccesses s.env } = .next d → RestsAt s d := by
  induction es with
  | nil => exact fun hes h hb ht hi hr hexec => restsAt_exec_now h hb ht hi hr (by simp [hes]) hexec
  | cons e es ih =>
    intro s d hes h hb ht hi hr hexec
    rcases access_or_seq hr with ⟨e', es', he, ha⟩ | hh
    · rw [hes] at he
      cases he
      obtain ⟨r, hstep⟩ := step_access hb hes ha
      obtain ⟨t, hstep', hgood⟩ := good_step h
      rw [hstep] at hstep'
      cases hstep'
      rw [hes, withoutAccesses_cons, if_pos ha] at hexec
      have hgood' : Good False ({ s with env := withoutAccesses es, hostRd := r } : State) := good_env hgood _
      obtain ⟨x, hx, -⟩ := exec_of_start hgood' hb ht hi
      obtain ⟨d', hd', rfl⟩ := exec_hostRd i { s with env := withoutAccesses es } x r hx
      rw [hexec] at hd'
      cases hd'
      refine RestsAt.of_access hb hstep hes ha (r := r) (ih rfl hgood hb ht hi (fun hm => hr ?_) hx)
      rw [hes]
      exact List.mem_cons_of_mem e hm
    · exact restsAt_exec_now h hb ht hi hr hh hexec

/-- A position of the invariant is the start alone, or lies behind it. -/
theorem pastStart_of_good {s : State} (h : Good False s) (hb : s.status.busy = true) {m : Micro} {q : List Micro}
    (ht : s.seq.todo = m :: q) (hd : m ≠ .dispatch) : PastStart s := by
  have hproc := (good_head h hb m q ht hd).1.1
  unfold PastStart
  rw [ht]
  intro x hx
  rcases List.mem_cons.mp hx with rfl | hx
  · exact hd
  · rintro rfl
    exact absurd (List.all_eq_true.mp hproc _ hx) (by decide)

/-- Where the steps of an operation in progress come to rest does not depend on the accesses. -/
theorem restsAt_cut_and_uncut {s : State} (h : Good False s) (hb : s.status.busy = true) (hr : .rst ∉ s.env) :
    ∃ d, d.hostRd = s.hostRd ∧ RestsAt s d ∧ RestsAt { s with env := withoutAccesses s.env } d := by
  have hgood : Good False ({ s with env := withoutAccesses s.env } : State) := good_env h _
  have hr' : .rst ∉ withoutAccesses s.env := fun hm => hr (List.mem_filter.mp hm).1
  have behind : PastStart s →
      ∃ d, d.hostRd = s.hostRd ∧ RestsAt s d ∧ RestsAt { s with env := withoutAccesses s.env } d := by
    intro hs
    have hsame : destination { s with env := withoutAccesses s.env } = destination s := by
      show feed (withoutAccesses (withoutAccesses s.env)) _ = feed (withoutAccesses s.env) s
      rw [withoutAccesses_idem, feed_env]
    exact ⟨destination s, destination_hostRd s, restsAt_destination h hs hr, hsame ▸ restsAt_destination hgood hs hr'⟩
  rcases position_cases h hb with ⟨ht, i, hi⟩ | ⟨c, q, i, ht, hi⟩ | ⟨m, q, ht, hd, -⟩
  · obtain ⟨d, hd, -⟩ := exec_of_start hgood hb ht hi
    have hread : d.hostRd = s.hostRd := exec_hostRd_kept (s := { s with env := withoutAccesses s.env }) hd
    refine ⟨d, hread, restsAt_exec rfl h hb ht hi hr hd, ?_⟩
    exact restsAt_exec rfl hgood hb ht hi hr' (by rw [withoutAccesses_idem]; exact hd)
  · exact behind (pastStart_of_good h hb ht (by simp))
  · exact behind (pastStart_of_good h hb ht hd)

/-- Settles O27: by induction on the events the steps come to rest at one destination, with the accesses and without. -/
theorem hostAccessesDoNotDisturb : Obligations.HostAccessesDoNotDisturb := by
  intro s t hinv hb hr
  refine ⟨fun n hrun hrest => ?_, fun i ht hi hexec hdone => ?_⟩
  · obtain ⟨d, hd, ⟨m, u, hu, hurest, hcut, -⟩, m', t', ht', htrest, -, huncut⟩ := restsAt_cut_and_uncut hinv.good hb hr
    have htd : t = d := (rest_unique hrun ht' hrest htrest).trans (huncut (withoutAccesses_idem s.env))
    rw [hd] at hcut
    exact ⟨m, u, hu, hurest, htd.trans hcut⟩
  · obtain ⟨m, u, hu, -, hcut, -⟩ := restsAt_exec rfl hinv.good hb ht hi hr hexec
    have hread : t.hostRd = s.hostRd := exec_hostRd_kept (s := { s with env := withoutAccesses s.env }) hexec
    rw [hread] at hcut
    exact ⟨m, u, hu, (congrArg (fun x : State => x.status.busy) hcut).symm.trans hdone, hcut⟩

end Sys2Proof.Machine
end
